-- ==== Sys2Proof/Word.lean ====
section
/-! DEFINITION. The two bit-vector types of the block: the byte and the 32-bit host word (00_scope.md R6). -/

namespace Sys2Proof

/-- A byte is 8 bits (R6). -/
abbrev Byte := BitVec 8

/-- Host registers and command words are 32 bits wide (R6). -/
abbrev Word := BitVec 32

end Sys2Proof
end

