-- ==== Sys2Proof/Syntax.lean ====
section
/-! DEFINITION. The 13 commands of spec/opcode_table.json, one constructor per row (30_encoding.md R87), with the
operands of their formats (R86, R88). -/

namespace Sys2Proof

/-- A command with its operands. The byte operand is B, a width operand W is the 5-bit field, a value operand V the
23-bit field (30_encoding.md R85, R88). -/
inductive Instr where
  /-- ENC_INIT (43_encoder.md R170). -/
  | encInit
  /-- ENC_BYTE b (43_encoder.md R172). -/
  | encByte (b : Byte)
  /-- ENC_END (43_encoder.md R174). -/
  | encEnd
  /-- DEC_INIT (44_decoder.md R190). -/
  | decInit
  /-- DEC_BYTE b (44_decoder.md R194). -/
  | decByte (b : Byte)
  /-- DEC_END (44_decoder.md R195). -/
  | decEnd
  /-- PK_INIT (41_bitpacker.md R120). -/
  | pkInit
  /-- PK_APPEND W, V (41_bitpacker.md R121). -/
  | pkAppend (w : BitVec 5) (v : BitVec 23)
  /-- PK_END (41_bitpacker.md R122). -/
  | pkEnd
  /-- UPK_INIT (41_bitpacker.md R124). -/
  | upkInit
  /-- UPK_BYTE b (41_bitpacker.md R125). -/
  | upkByte (b : Byte)
  /-- UPK_READ W (41_bitpacker.md R126). -/
  | upkRead (w : BitVec 5)
  /-- UPK_END (41_bitpacker.md R127). -/
  | upkEnd
deriving DecidableEq, Repr

end Sys2Proof
end

