-- ==== Sys2Proof/WellFormed.lean ====
section
/-! DEFINITION. Which terms of `Instr` a command word can stand for: a width operand is at most 23
(30_encoding.md R85, R86, R89). The other fields have exactly the width of their type. -/

namespace Sys2Proof

/-- W is legal only in 0..23 (30_encoding.md R86, formats A and R). -/
def Instr.wellFormed (i : Instr) : Bool :=
  match i with
  | .pkAppend w _ => decide (w.toNat ≤ 23)
  | .upkRead w => decide (w.toNat ≤ 23)
  | .encInit => true
  | .encByte _ => true
  | .encEnd => true
  | .decInit => true
  | .decByte _ => true
  | .decEnd => true
  | .pkInit => true
  | .pkEnd => true
  | .upkInit => true
  | .upkByte _ => true
  | .upkEnd => true

end Sys2Proof
end

