-- ==== Sys2Proof/Decode.lean ====
section
/-! DEFINITION. The command word: its fields (30_encoding.md R85, R88), the total decoder `decode_cmd` (R93) which
rejects an illegal word by name (R89), the encoder written from the formats and the opcode map (R86, R87), and the host's
view of the opcode table, `decodeTableWord`. -/

namespace Sys2Proof

/-- OP = w[31:28] (R85). -/
def opField (w : Word) : BitVec 4 := w.extractLsb' 28 4

/-- W = w[27:23] (R85, R88). -/
def wField (w : Word) : BitVec 5 := w.extractLsb' 23 5

/-- V = w[22:0] (R85, R88). -/
def vField (w : Word) : BitVec 23 := w.extractLsb' 0 23

/-- B = w[7:0], the byte of a byte command (R88). -/
def bField (w : Word) : Byte := w.extractLsb' 0 8

/-- V[22:8], which must be zero in a byte command (R86). -/
def vHighField (w : Word) : BitVec 15 := w.extractLsb' 8 15

/-- Why a word is illegal (R89). -/
inductive IllegalWord where
  /-- OP is 0x0, 0xE or 0xF. -/
  | reservedOpcode
  /-- A field the format requires to be zero is not. -/
  | nonzeroField
  /-- A PK_APPEND or UPK_READ with W above 23. -/
  | widthAbove23
deriving DecidableEq, Repr

/-- Format N: W and V are zero (R86). -/
def decodeNone (i : Instr) (w : Word) : Except IllegalWord Instr :=
  if wField w = 0 ∧ vField w = 0 then .ok i else .error .nonzeroField

/-- Format B: W and V[22:8] are zero, the operand is V[7:0] (R86). -/
def decodeByteForm (mk : Byte → Instr) (w : Word) : Except IllegalWord Instr :=
  if wField w = 0 ∧ vHighField w = 0 then .ok (mk (bField w)) else .error .nonzeroField

/-- Format A: W is at most 23, the operands are W and V (R86). -/
def decodeAppendForm (w : Word) : Except IllegalWord Instr :=
  if (wField w).toNat ≤ 23 then .ok (.pkAppend (wField w) (vField w)) else .error .widthAbove23

/-- Format R: W is at most 23 and V is zero, the operand is W (R86). -/
def decodeReadForm (w : Word) : Except IllegalWord Instr :=
  if vField w = 0 then
    if (wField w).toNat ≤ 23 then .ok (.upkRead (wField w)) else .error .widthAbove23
  else .error .nonzeroField

/-- `decode_cmd(w)` of R93: total on 32-bit words. -/
def decodeCmd (w : Word) : Except IllegalWord Instr :=
  match opField w with
  | 0x1#4 => decodeNone .encInit w
  | 0x2#4 => decodeByteForm .encByte w
  | 0x3#4 => decodeNone .encEnd w
  | 0x4#4 => decodeNone .decInit w
  | 0x5#4 => decodeByteForm .decByte w
  | 0x6#4 => decodeNone .decEnd w
  | 0x7#4 => decodeNone .pkInit w
  | 0x8#4 => decodeAppendForm w
  | 0x9#4 => decodeNone .pkEnd w
  | 0xA#4 => decodeNone .upkInit w
  | 0xB#4 => decodeByteForm .upkByte w
  | 0xC#4 => decodeReadForm w
  | 0xD#4 => decodeNone .upkEnd w
  | _ => .error .reservedOpcode

/-! ### The encoder -/

/-- The OP column of the opcode map (R87). -/
def Instr.opcode (i : Instr) : BitVec 4 :=
  match i with
  | .encInit => 0x1
  | .encByte _ => 0x2
  | .encEnd => 0x3
  | .decInit => 0x4
  | .decByte _ => 0x5
  | .decEnd => 0x6
  | .pkInit => 0x7
  | .pkAppend _ _ => 0x8
  | .pkEnd => 0x9
  | .upkInit => 0xA
  | .upkByte _ => 0xB
  | .upkRead _ => 0xC
  | .upkEnd => 0xD

/-- What the format puts into W [27:23] (R86). -/
def Instr.wOperand (i : Instr) : BitVec 5 :=
  match i with
  | .pkAppend w _ => w
  | .upkRead w => w
  | .encInit | .encByte _ | .encEnd | .decInit | .decByte _ | .decEnd | .pkInit | .pkEnd => 0
  | .upkInit | .upkByte _ | .upkEnd => 0

/-- What the format puts into V [22:0] (R86). -/
def Instr.vOperand (i : Instr) : BitVec 23 :=
  match i with
  | .encByte b => b.setWidth 23
  | .decByte b => b.setWidth 23
  | .upkByte b => b.setWidth 23
  | .pkAppend _ v => v
  | .encInit | .encEnd | .decInit | .decEnd | .pkInit | .pkEnd | .upkInit | .upkRead _ | .upkEnd => 0

/-- The command word of an instruction: its three fields side by side (R85). -/
def encode (i : Instr) : Word := i.opcode ++ i.wOperand ++ i.vOperand

/-- The instruction the decoder reads from an instruction whose bits, as spec/opcode_table.json numbers them, are the
low `nbits` bits of `w`; every command is one 32-bit word (R90), so the bits above `nbits` are zero. -/
def decodeTableWord (nbits w : Nat) : Option Instr :=
  match decodeCmd (BitVec.ofNat 32 (w % 2 ^ nbits)) with
  | .ok i => some i
  | .error _ => none

end Sys2Proof
end

