-- ==== Sys2Proof/Config.lean ====
section
/-! DEFINITION. What is fixed when the block is built: the implementation parameters of 00_scope.md R5. A State carries
one such record in its field `params`, no step writes it, and a statement about every State is therefore a statement
about every choice of the parameters (notes/assumptions/3.md). The spec leaves no value undefined, so there is no free
value here. -/

namespace Sys2Proof

/-- The implementation parameters (00_scope.md R5). CODE_LIMIT is derived from W_MAX: `Machine.codeLimit`. -/
structure Params where
  /-- W_MAX, the largest codeword width, in bits, the encoder may emit. -/
  wMax : Nat
  /-- IBUF_BITS, the capacity, in bits, of the bit-unpacker's input queue. -/
  ibufBits : Nat
  /-- SHORT_STOP_OK, whether DEC_END accepts a stop code one bit narrower than the decoder's width (R195). -/
  shortStopOk : Bool
deriving DecidableEq, Repr

/-- The constraints R5 puts on the parameters. -/
def Params.wellFormed (p : Params) : Bool :=
  decide (9 ≤ p.wMax) && decide (p.wMax ≤ 30) && decide (p.wMax + 8 ≤ p.ibufBits)

/-- The reference configuration of R5, the one the test vectors of 95_test_vectors.md use.
DESIGN CHOICE: the spec leaves the parameters OPEN; `State.reset` takes this record. Unsafe for a statement about
`State.reset` alone (notes/assumptions/3.md). -/
def Params.reference : Params := { wMax := 16, ibufBits := 24, shortStopOk := true }

end Sys2Proof
end

