-- ==== Sys2Proof/Machine/State.lean ====
section
/-! DEFINITION. The state of the block (10_state.md R28 to R38) with the host's two queues, the state after reset
(R39), the reasons a step can stop, and the accesses a host can make (20_memory.md R61, R62). -/

namespace Sys2Proof.Machine

/-- A Symbol: a byte sequence of length at least 1 (00_scope.md R8), as its first byte and the rest. -/
structure Symbol where
  first : Byte
  rest : List Byte
deriving DecidableEq, Repr

/-- PHASE (10_state.md R28). -/
inductive Phase where
  /-- No call has been started since reset. -/
  | idle
  /-- A call is running and accepts its data commands. -/
  | active
  /-- The call ended successfully. -/
  | done
  /-- The call, or a command given outside any call, failed. -/
  | fault
deriving DecidableEq, Repr

/-- CALL, the kind of the current or last call (10_state.md R29). -/
inductive Call where
  /-- No call yet. -/
  | none
  /-- An encode call. -/
  | enc
  /-- A decode call. -/
  | dec
  /-- A raw-pack call. -/
  | pk
  /-- A raw-unpack call. -/
  | upk
deriving DecidableEq, Repr

/-- ERR, the fault codes of 60_exceptions.md R220. A fault of the block is an ordinary next state (R224): these are
values of a register, not reasons for the model to stop. -/
inductive Err where
  /-- 0: no fault. -/
  | none
  /-- 1: the command word is not one of the 13 legal forms. -/
  | illegalCommand
  /-- 2: the command is not accepted in the current PHASE and CALL. -/
  | sequence
  /-- 3: a value given to the accumulator is not below 2^width. -/
  | precondition
  /-- 4: fewer bits remain than a read needs. -/
  | corruptTruncated
  /-- 5: a code with no Symbol that is not the sanctioned special case. -/
  | corruptBadCode
  /-- 6: an insertion of a Symbol that is already present. -/
  | corruptDuplicate
  /-- 7: an insertion would assign a code above CODE_LIMIT. -/
  | capacity
  /-- 8: a pushed byte would take IBUF past IBUF_BITS bits. -/
  | bufferOverflow
deriving DecidableEq, Repr

/-- Why the model stops where the spec gives no value. -/
inductive Fault where
  /-- Raised by ENC_BYTE on a dictionary miss and by ENC_END when WORD is a Symbol that is not a key of FWD, so that
  FWD[WORD] (43_encoder.md R172, R174) has no value. No run from reset reaches such a state (10_state.md R40 item 7).
  DESIGN CHOICE. Safe: the model stops and claims nothing (notes/assumptions/4.md). -/
  | wordNotInDictionary
deriving DecidableEq, Repr

/-- Accesses and instructions the model gives no step. Every refusal is safe: nothing is claimed about what a physical
block does. -/
inductive Refusal where
  /-- Raised by exec for an instruction that has no meaning yet. Safe. -/
  | notModelled (mnemonic : String)
  /-- Raised by a host access that is not 32 bits wide (20_memory.md R62). Safe. -/
  | accessNotWord
  /-- Raised by a host access at an offset that is not a multiple of 4 (20_memory.md R62). Safe. -/
  | accessMisaligned
  /-- Raised by a host access at an unmapped offset, 0x14 to 0x1F (20_memory.md R60, R62). Safe. -/
  | accessUnmapped
  /-- Raised by a host write to STATUS, OUT, RESULT or MAXCODE (20_memory.md R62). Safe. -/
  | writeToReadOnly
  /-- Raised by a host read of CMD (10_state.md R22, 20_memory.md R62). Safe. -/
  | readOfCmd
deriving DecidableEq, Repr

/-- What the host can do to the block: a write or a read of `bytes` bytes at a 5-bit offset (20_memory.md R60), or
reset (70_reset_and_hazards.md R250). -/
inductive HostAccess where
  /-- `MemWrite(offset, bytes, value)`. -/
  | write (offset : BitVec 5) (bytes : Nat) (value : Word)
  /-- `MemRead(offset, bytes)`. -/
  | read (offset : BitVec 5) (bytes : Nat)
  /-- Reset, a host action of its own. -/
  | reset
deriving DecidableEq, Repr

/-- The state of the machine. The first thirteen fields are the block's (10_state.md R28 to R38); the last three are the
model's own (notes/assumptions/1.md to 3.md). DEDUCED: there is no byte-addressed memory; safe (notes/assumptions/9.md). -/
structure State where
  /-- PHASE (R28). -/
  phase : Phase
  /-- CALL (R29). -/
  call : Call
  /-- ERR (R30). -/
  err : Err
  /-- FWD, from Symbol to code (R31), in the order of insertion. DESIGN CHOICE, safe (notes/assumptions/5.md). -/
  fwd : List (Symbol × Nat)
  /-- REV, from code to Symbol (R31), in the order of insertion. DESIGN CHOICE, safe (notes/assumptions/5.md). -/
  rev : List (Nat × Symbol)
  /-- MAX_CODE (R31). -/
  maxCode : Nat
  /-- WORD: `none` is ε (R32). -/
  word : Option Symbol
  /-- PREV: `none` is NONE (R33). -/
  prev : Option Symbol
  /-- DNBITS (R34). -/
  dnbits : Nat
  /-- ACC, first bit first (R35). -/
  acc : List Bool
  /-- IBUF, first bit first (R36). -/
  ibuf : List Bool
  /-- OUTQ, oldest byte first, of any length (R37). DESIGN CHOICE; unsafe for a block whose FIFO fills
  (notes/assumptions/8.md). -/
  outq : List Byte
  /-- RESULTV (R38). -/
  resultv : BitVec 23
  /-- The implementation parameters, written by no step (00_scope.md R5). -/
  params : Params
  /-- The host's accesses not yet performed, oldest first. -/
  pending : List HostAccess
  /-- The words the host's reads have returned, oldest first. -/
  replies : List Word
deriving DecidableEq, Repr

/-- The block right after reset: every element at the value of 10_state.md R39. The host has asked for nothing and has
read nothing, and the parameters are the reference configuration of R5 (DESIGN CHOICE, notes/assumptions/1.md to 3.md). -/
def State.reset : State where
  phase := .idle
  call := .none
  err := .none
  fwd := []
  rev := []
  maxCode := 0
  word := none
  prev := none
  dnbits := 0
  acc := []
  ibuf := []
  outq := []
  resultv := 0
  params := Params.reference
  pending := []
  replies := []

end Sys2Proof.Machine
end

