-- ==== Sys2Proof/Machine/Operands.lean ====
section
/-! DEFINITION. The number and sequence helpers every rule uses: bit sequences and their values, MSB first
(00_scope.md R8, R9), the width function (R10), and Symbols as byte sequences (R8). -/

namespace Sys2Proof.Machine

/-- `bits_W(v)`: the bits v[W-1], ..., v[0] (R9). -/
def bitsOf : Nat → Nat → List Bool
  | 0, _ => []
  | w + 1, v => v.testBit w :: bitsOf w v

/-- One more bit at the low end of a value: the step of `val`. -/
def shiftIn (a : Nat) (b : Bool) : Nat := 2 * a + b.toNat

/-- `val(s)`: the number whose binary digits are s, first bit most significant; `val([]) = 0` (R9). -/
def bitsVal (s : List Bool) : Nat := s.foldl shiftIn 0

/-- `bits_8(b)` of a byte (R9). -/
def byteBits (b : Byte) : List Bool := bitsOf 8 b.toNat

/-- The byte whose bits are the sequence, first bit bit 7 (20_memory.md R64). DEDUCED by the spec itself; unsafe if the
derivation is wrong (notes/assumptions/11.md). -/
def byteOfBits (s : List Bool) : Byte := BitVec.ofNat 8 (bitsVal s)

/-- `bit_length(x)`: the number of binary digits of x, and 0 for 0 (R10). -/
def bitLength (x : Nat) : Nat := if x = 0 then 0 else Nat.log2 x + 1

/-- `zeros(n)`: n zero bits (41_bitpacker.md R112). -/
def zeroBits (n : Nat) : List Bool := List.replicate n false

/-- The one-byte Symbol [b]. -/
def Symbol.single (b : Byte) : Symbol := ⟨b, []⟩

/-- `s ++ [x]` for a Symbol s (R8). -/
def Symbol.snoc (s : Symbol) (x : Byte) : Symbol := ⟨s.first, s.rest ++ [x]⟩

/-- The bytes of a Symbol, first byte first (R8). -/
def Symbol.bytes (s : Symbol) : List Byte := s.first :: s.rest

/-- The length of a Symbol, at least 1 (R8). -/
def Symbol.length (s : Symbol) : Nat := s.bytes.length

/-- `CODE_LIMIT = 2^W_MAX - 1`, the largest code the dictionary may assign (R5). -/
def codeLimit (p : Params) : Nat := 2 ^ p.wMax - 1

/-- `m[k]`: lookup of key k in the finite map m, `none` where k is not in m (R11). -/
def mapGet {κ α : Type} [DecidableEq κ] : List (κ × α) → κ → Option α
  | [], _ => none
  | e :: m, k => if e.1 = k then some e.2 else mapGet m k

/-- `m[k] <- v`: add or overwrite key k of the finite map m (R11). -/
def mapSet {κ α : Type} [DecidableEq κ] : List (κ × α) → κ → α → List (κ × α)
  | [], k, v => [(k, v)]
  | e :: m, k, v => if e.1 = k then (k, v) :: m else e :: mapSet m k v

end Sys2Proof.Machine
end

