-- ==== Sys2Proof/Machine/Ops.lean ====
section
/-! DEFINITION. The shared operations: named updates of the state, the start of a call and admission (40_dispatch.md
R101, R102), fault entry (60_exceptions.md R224), the BitPacker's primitives (41_bitpacker.md R111 to R114), the
Dictionary's operations (42_dictionary.md R142 to R147), the output sequencer (44_decoder.md R191), and reset
(70_reset_and_hazards.md R250).

Taking a fault is ONE operation, `State.faultEntry`, reached through `commit`. There is no return from a fault beside
it: the spec has no such command, and the block leaves FAULT by `State.startCall` of an admitted *_INIT or by
`State.resetBlock` (60_exceptions.md R226). -/

namespace Sys2Proof.Machine

/-! ### Named updates -/

/-- `PHASE <- p`. -/
def State.setPhase (p : Phase) (s : State) : State := { s with phase := p }

/-- `WORD <- w`. -/
def State.setWord (w : Option Symbol) (s : State) : State := { s with word := w }

/-- `PREV <- p`. -/
def State.setPrev (p : Option Symbol) (s : State) : State := { s with prev := p }

/-- `DNBITS <- n`. -/
def State.setDnbits (n : Nat) (s : State) : State := { s with dnbits := n }

/-- `IBUF <- b`. -/
def State.setIbuf (b : List Bool) (s : State) : State := { s with ibuf := b }

/-- `RESULTV <- v`. -/
def State.setResult (v : BitVec 23) (s : State) : State := { s with resultv := v }

/-- The host receives the word its read returns. -/
def State.reply (v : Word) (s : State) : State := { s with replies := s.replies ++ [v] }

/-- The fault entry of 60_exceptions.md R224, applied to the state from before the command: every write the command
made is discarded, only PHASE and ERR change. DESIGN CHOICE: the bytes in OUTQ stay, as R227 has it; unsafe for a block
that clears them (notes/assumptions/10.md). -/
def State.faultEntry (e : Err) (s : State) : State := { s with phase := .fault, err := e }

/-- `Start_call(kind)` (40_dispatch.md R101). -/
def State.startCall (kind : Call) (s : State) : State :=
  { s with phase := .active, call := kind, err := .none, acc := [], ibuf := [], outq := [] }

/-- Reset sets every state element of the block to its reset value (70_reset_and_hazards.md R250, 10_state.md R39). The
parameters are fixed when the block is built (R252) and the host's own queues are outside the block. -/
def State.resetBlock (s : State) : State :=
  { State.reset with params := s.params, pending := s.pending, replies := s.replies }

/-! ### Ending a command -/

/-- How a command's own rule ends without a result: it raises a fault code of R220, or the model stops. -/
inductive Abort where
  | raise (e : Err)
  | stop (f : Fault)
deriving DecidableEq, Repr

/-- The end of `Step(w)` (40_dispatch.md R103): the command's result takes effect whole, or the fault entry runs on the
state `s` from before the command. -/
def commit (s : State) (r : Except Abort State) : Host.Outcome State Fault Refusal :=
  match r with
  | .ok t => .next t
  | .error (.raise e) => .next (s.faultEntry e)
  | .error (.stop f) => .fault f

/-- What admission decides. -/
inductive Admission where
  /-- The command's own rule runs. -/
  | run
  /-- The command changes nothing. -/
  | ignore
  /-- The command raises the fault code. -/
  | raise (e : Err)
deriving DecidableEq, Repr

/-- `Admit_init` (40_dispatch.md R101): a running call cannot be abandoned. -/
def admitInit (s : State) : Admission :=
  match s.phase with
  | .active => .raise .sequence
  | .idle => .run
  | .done => .run
  | .fault => .run

/-- `Admit_data` of a command of the given pipeline (40_dispatch.md R102). -/
def admitData (pipeline : Call) (s : State) : Admission :=
  if s.call ≠ pipeline then .raise .sequence
  else if s.call = .dec ∧ s.phase = .done then .ignore
  else if s.phase ≠ .active then .raise .sequence
  else .run

/-- What follows admission. -/
def runAdmitted (a : Admission) (rule : State → Except Abort State) (s : State) : Host.Outcome State Fault Refusal :=
  match a with
  | .run => commit s (rule s)
  | .ignore => .next s
  | .raise e => .next (s.faultEntry e)

/-- `Step` of an *_INIT command of the given kind (40_dispatch.md R100, R101): admission, the common start of a call,
then the command's own rule. It runs in FAULT too. -/
def runInit (kind : Call) (rule : State → Except Abort State) (s : State) : Host.Outcome State Fault Refusal :=
  runAdmitted (admitInit s) (fun s => rule (s.startCall kind)) s

/-- `Step` of a data command of the given pipeline (40_dispatch.md R100, R102): ignored in FAULT, then the legality of
its word (30_encoding.md R89), then admission, then the command's own rule. DEDUCED: the legality is asked here too, of
an instruction the decoder never yields; safe (notes/assumptions/12.md). -/
def runData (pipeline : Call) (legal : Bool) (rule : State → Except Abort State) (s : State) :
    Host.Outcome State Fault Refusal :=
  if s.phase = .fault then .next s
  else if legal = false then .next (s.faultEntry .illegalCommand)
  else runAdmitted (admitData pipeline s) rule s

/-- `Step` of an illegal word: ignored in FAULT, else ILLEGAL_COMMAND (40_dispatch.md R100, 30_encoding.md R89). -/
def runIllegal (s : State) : Host.Outcome State Fault Refusal :=
  if s.phase = .fault then .next s else .next (s.faultEntry .illegalCommand)

/-! ### BitPacker -/

/-- The `while |ACC| >= 8` loop of emit (41_bitpacker.md R111): whole bytes leave ACC for OUTQ, the first bit of each
bit 7. The first argument bounds the number of rounds; `|ACC|` rounds always suffice. -/
def moveBytes : Nat → List Bool → List Byte → List Bool × List Byte
  | 0, acc, outq => (acc, outq)
  | n + 1, acc, outq =>
    if 8 ≤ acc.length then moveBytes n (acc.drop 8) (outq ++ [byteOfBits (acc.take 8)]) else (acc, outq)

/-- `ACC <- ACC ++ bits`, then the whole bytes move to OUTQ (R111). -/
def State.appendBits (bits : List Bool) (s : State) : State :=
  { s with
    acc := (moveBytes (s.acc ++ bits).length (s.acc ++ bits) s.outq).1
    outq := (moveBytes (s.acc ++ bits).length (s.acc ++ bits) s.outq).2 }

/-- `emit(v, W)`, the source's `append` (41_bitpacker.md R111). -/
def emit (v w : Nat) (s : State) : Except Abort State :=
  if 2 ^ w ≤ v then .error (.raise .precondition) else .ok (s.appendBits (bitsOf w v))

/-- `flush()`: the partial final byte is padded on the right (41_bitpacker.md R112). -/
def State.flush (s : State) : State :=
  if s.acc = [] then s
  else { s with acc := [], outq := s.outq ++ [byteOfBits (s.acc ++ zeroBits (8 - s.acc.length))] }

/-- `push(b)`: one input byte enters IBUF, bit 7 first (41_bitpacker.md R113). -/
def State.push (b : Byte) (s : State) : State := { s with ibuf := s.ibuf ++ byteBits b }

/-- `read(n)`: the next n bits of IBUF as a number, and the state without them (41_bitpacker.md R114). -/
def readBits (n : Nat) (s : State) : Except Abort (Nat × State) :=
  if s.ibuf.length < n then .error (.raise .corruptTruncated)
  else .ok (bitsVal (s.ibuf.take n), s.setIbuf (s.ibuf.drop n))

/-! ### Dictionary -/

/-- The seed of FWD: [b] ↦ b + 1 for b in 0..255 (42_dictionary.md R142). -/
def seedFwd : List (Symbol × Nat) := (List.range 256).map fun b => (Symbol.single (BitVec.ofNat 8 b), b + 1)

/-- The seed of REV: b + 1 ↦ [b] for b in 0..255 (42_dictionary.md R142). -/
def seedRev : List (Nat × Symbol) := (List.range 256).map fun b => (b + 1, Symbol.single (BitVec.ofNat 8 b))

/-- `Dict_init()` (42_dictionary.md R142). -/
def State.dictInit (s : State) : State := { s with fwd := seedFwd, rev := seedRev, maxCode := 256 }

/-- `nbits()`, the current codeword width (42_dictionary.md R143). -/
def nbits (s : State) : Nat := bitLength s.maxCode

/-- `nbits_next()`, the width as if one more code were assigned (42_dictionary.md R144). -/
def nbitsNext (s : State) : Nat := bitLength (s.maxCode + 1)

/-- The outcome of `lookup_code` (42_dictionary.md R145). -/
inductive CodeLookup where
  | found (code : Nat)
  | absent
deriving DecidableEq, Repr

/-- `lookup_code(s)` (42_dictionary.md R145). -/
def lookupCode (s : State) (sym : Symbol) : CodeLookup :=
  match mapGet s.fwd sym with
  | some c => .found c
  | none => .absent

/-- `FWD[sym]`, asked only where sym is a key; elsewhere it has no value and the model stops. -/
def codeOf (s : State) (sym : Symbol) : Except Abort Nat :=
  match mapGet s.fwd sym with
  | some c => .ok c
  | none => .error (.stop .wordNotInDictionary)

/-- The two map writes and the new MAX_CODE of `insert` (42_dictionary.md R146). -/
def State.addEntry (sym : Symbol) (s : State) : State :=
  { s with
    fwd := mapSet s.fwd sym (s.maxCode + 1)
    rev := mapSet s.rev (s.maxCode + 1) sym
    maxCode := s.maxCode + 1 }

/-- `insert(s)`, the shared growth function: the duplicate check, then the capacity check (42_dictionary.md R146). -/
def insertSymbol (sym : Symbol) (s : State) : Except Abort State :=
  if (mapGet s.fwd sym).isSome then .error (.raise .corruptDuplicate)
  else if codeLimit s.params ≤ s.maxCode then .error (.raise .capacity)
  else .ok (s.addEntry sym)

/-- The tagged outcome of `lookup_symbol` (42_dictionary.md R147). -/
inductive SymbolLookup where
  | found (sym : Symbol)
  | pendingInsert
  | absent
deriving DecidableEq, Repr

/-- `lookup_symbol(c)` (42_dictionary.md R147). -/
def lookupSymbol (s : State) (c : Nat) : SymbolLookup :=
  match mapGet s.rev c with
  | some sym => .found sym
  | none => if c = s.maxCode + 1 then .pendingInsert else .absent

/-! ### Output sequencer and the OUT register -/

/-- `out_symbol(s)`: the bytes of a Symbol enter OUTQ in order (44_decoder.md R191). -/
def State.outSymbol (sym : Symbol) (s : State) : State := { s with outq := s.outq ++ sym.bytes }

end Sys2Proof.Machine
end

