-- ==== Sys2Proof/Machine/Decoder.lean ====
section
/-! DEFINITION. The LZW decoder pipeline: DEC_INIT, DEC_BYTE with its decode step, DEC_END (44_decoder.md R190 to
R196). -/

namespace Sys2Proof.Machine

/-- DEC_INIT: `Start_call(DEC); Dict_init(); DNBITS <- nbits(); PREV <- NONE` (44_decoder.md R190). -/
def execDecInit (s : State) : Host.Outcome State Fault Refusal :=
  runInit .dec (fun s => .ok ((s.dictInit.setDnbits (nbits s.dictInit)).setPrev none)) s

/-- Step 4 of the decode step: the Symbol of a code, synthesised from PREV for the code the decoder has not yet
mirrored (44_decoder.md R192, R193). -/
def decodedSymbol (c : Nat) (s : State) : Except Abort Symbol :=
  match lookupSymbol s c with
  | .found sym => .ok sym
  | .pendingInsert =>
    match s.prev with
    | none => .error (.raise .corruptBadCode)
    | some p => .ok (p.snoc p.first)
  | .absent => .error (.raise .corruptBadCode)

/-- Step 6 of the decode step: once a Symbol has been decoded, the dictionary grows and the next read's width follows
it (44_decoder.md R192; the order is normative, 70_reset_and_hazards.md R256). -/
def growDecoder (sym : Symbol) (s : State) : Except Abort State :=
  match s.prev with
  | none => .ok s
  | some p => do
    let s ← insertSymbol (p.snoc sym.first) s
    .ok (s.setDnbits (nbitsNext s))

/-- `Dstep()`, one decode step (44_decoder.md R192). -/
def decodeStep (s : State) : Except Abort State := do
  let (c, s) ← readBits s.dnbits s
  if c = 0 then .ok (s.setPhase .done)
  else do
    let sym ← decodedSymbol c s
    let s ← growDecoder sym (s.outSymbol sym)
    .ok (s.setPrev (some sym))

/-- The own rule of DEC_BYTE (44_decoder.md R194). -/
def decByteRule (b : Byte) (s : State) : Except Abort State :=
  if s.dnbits ≤ (s.push b).ibuf.length then decodeStep (s.push b) else .ok (s.push b)

/-- DEC_BYTE b (44_decoder.md R194). -/
def execDecByte (b : Byte) (s : State) : Host.Outcome State Fault Refusal :=
  runData .dec true (decByteRule b) s

/-- The condition under which DEC_END takes what is left of the input for the encoder's stop code, one bit narrower
than DNBITS (44_decoder.md R195, 90_conflicts.md C1). -/
def shortStop (s : State) : Bool :=
  s.params.shortStopOk && s.prev.isSome && decide (s.ibuf.length = nbits s) && decide (s.ibuf.length < s.dnbits) &&
    decide (s.ibuf = zeroBits s.ibuf.length)

/-- The own rule of DEC_END (44_decoder.md R195). -/
def decEndRule (s : State) : Except Abort State :=
  if shortStop s then .ok ((s.setIbuf []).setPhase .done) else .error (.raise .corruptTruncated)

/-- DEC_END (44_decoder.md R195). -/
def execDecEnd (s : State) : Host.Outcome State Fault Refusal :=
  runData .dec true decEndRule s

end Sys2Proof.Machine
end

