-- ==== Sys2Proof/Machine/Encoder.lean ====
section
/-! DEFINITION. The LZW encoder pipeline: ENC_INIT, ENC_BYTE, ENC_END (43_encoder.md R170 to R174). -/

namespace Sys2Proof.Machine

/-- ENC_INIT: `Start_call(ENC); Dict_init(); WORD <- ε` (43_encoder.md R170). -/
def execEncInit (s : State) : Host.Outcome State Fault Refusal :=
  runInit .enc (fun s => .ok (s.dictInit.setWord none)) s

/-- The miss of ENC_BYTE: the code of WORD is written in the width from before the insertion, then WORD ++ [b] is
inserted and WORD restarts at [b] (43_encoder.md R171, R172; the order is normative, 70_reset_and_hazards.md R256). -/
def encMiss (w : Symbol) (b : Byte) (s : State) : Except Abort State := do
  let k ← codeOf s w
  let s ← emit k (nbits s) s
  let s ← insertSymbol (w.snoc b) s
  .ok (s.setWord (some (Symbol.single b)))

/-- The own rule of ENC_BYTE (43_encoder.md R172). -/
def encByteRule (b : Byte) (s : State) : Except Abort State :=
  match s.word with
  | none => .ok (s.setWord (some (Symbol.single b)))
  | some w =>
    match lookupCode s (w.snoc b) with
    | .found _ => .ok (s.setWord (some (w.snoc b)))
    | .absent => encMiss w b s

/-- ENC_BYTE b (43_encoder.md R172). -/
def execEncByte (b : Byte) (s : State) : Host.Outcome State Fault Refusal :=
  runData .enc true (encByteRule b) s

/-- Step 4 of ENC_END: a WORD that is not empty is written in the current width (43_encoder.md R174). -/
def emitWord (s : State) : Except Abort State :=
  match s.word with
  | none => .ok s
  | some w => do
    let k ← codeOf s w
    emit k (nbits s) s

/-- The own rule of ENC_END (43_encoder.md R174). -/
def encEndRule (s : State) : Except Abort State := do
  let s ← emitWord s
  let s ← emit 0 (nbits s) s
  .ok ((s.flush.setWord none).setPhase .done)

/-- ENC_END (43_encoder.md R174). -/
def execEncEnd (s : State) : Host.Outcome State Fault Refusal :=
  runData .enc true encEndRule s

end Sys2Proof.Machine
end

