-- ==== Sys2Proof/Machine/Packer.lean ====
section
/-! DEFINITION. The raw packer commands PK_INIT, PK_APPEND, PK_END (41_bitpacker.md R120 to R122). -/

namespace Sys2Proof.Machine

/-- PK_INIT: `Start_call(PK)` and nothing else (41_bitpacker.md R120). -/
def execPkInit (s : State) : Host.Outcome State Fault Refusal :=
  runInit .pk (fun s => .ok s) s

/-- PK_APPEND W, V: `emit(V, W)`; a word with W above 23 is illegal (41_bitpacker.md R121). -/
def execPkAppend (w : BitVec 5) (v : BitVec 23) (s : State) : Host.Outcome State Fault Refusal :=
  runData .pk (decide (w.toNat ≤ 23)) (emit v.toNat w.toNat) s

/-- PK_END: `flush(); PHASE <- DONE` (41_bitpacker.md R122). -/
def execPkEnd (s : State) : Host.Outcome State Fault Refusal :=
  runData .pk true (fun s => .ok (s.flush.setPhase .done)) s

end Sys2Proof.Machine
end

