-- ==== Sys2Proof/Machine/Unpacker.lean ====
section
/-! DEFINITION. The raw unpacker commands UPK_INIT, UPK_BYTE, UPK_READ, UPK_END (41_bitpacker.md R124 to R127). -/

namespace Sys2Proof.Machine

/-- UPK_INIT: `Start_call(UPK); RESULTV <- 0` (41_bitpacker.md R124). -/
def execUpkInit (s : State) : Host.Outcome State Fault Refusal :=
  runInit .upk (fun s => .ok (s.setResult 0)) s

/-- The own rule of UPK_BYTE: the bound is checked before the byte is pushed (41_bitpacker.md R125). -/
def upkByteRule (b : Byte) (s : State) : Except Abort State :=
  if s.params.ibufBits < s.ibuf.length + 8 then .error (.raise .bufferOverflow) else .ok (s.push b)

/-- UPK_BYTE b (41_bitpacker.md R125). -/
def execUpkByte (b : Byte) (s : State) : Host.Outcome State Fault Refusal :=
  runData .upk true (upkByteRule b) s

/-- The own rule of UPK_READ: `RESULTV <- read(W)` (41_bitpacker.md R126). -/
def upkReadRule (w : Nat) (s : State) : Except Abort State := do
  let (v, s) ← readBits w s
  .ok (s.setResult (BitVec.ofNat 23 v))

/-- UPK_READ W; a word with W above 23 is illegal (41_bitpacker.md R126). -/
def execUpkRead (w : BitVec 5) (s : State) : Host.Outcome State Fault Refusal :=
  runData .upk (decide (w.toNat ≤ 23)) (upkReadRule w.toNat) s

/-- UPK_END: `IBUF <- []; PHASE <- DONE` (41_bitpacker.md R127). -/
def execUpkEnd (s : State) : Host.Outcome State Fault Refusal :=
  runData .upk true (fun s => .ok ((s.setIbuf []).setPhase .done)) s

end Sys2Proof.Machine
end

