-- ==== Sys2Proof/Machine/Dispatch.lean ====
section
/-! DEFINITION. `Step(w)` of a legal command (40_dispatch.md R100): one arm per row of the opcode table. -/

namespace Sys2Proof.Machine

def exec (i : Instr) (s : State) : Host.Outcome State Fault Refusal :=
  match i with
  | .encInit => Sys2Proof.Machine.execEncInit s
  | .encByte b => Sys2Proof.Machine.execEncByte b s
  | .encEnd => Sys2Proof.Machine.execEncEnd s
  | .decInit => Sys2Proof.Machine.execDecInit s
  | .decByte b => Sys2Proof.Machine.execDecByte b s
  | .decEnd => Sys2Proof.Machine.execDecEnd s
  | .pkInit => Sys2Proof.Machine.execPkInit s
  | .pkAppend w v => Sys2Proof.Machine.execPkAppend w v s
  | .pkEnd => Sys2Proof.Machine.execPkEnd s
  | .upkInit => Sys2Proof.Machine.execUpkInit s
  | .upkByte b => Sys2Proof.Machine.execUpkByte b s
  | .upkRead w => Sys2Proof.Machine.execUpkRead w s
  | .upkEnd => Sys2Proof.Machine.execUpkEnd s

end Sys2Proof.Machine
end

