-- ==== Sys2Proof/Machine/Flags.lean ====
section
/-! DEFINITION. The status flags and the readable registers: the STATUS fields (10_state.md R23, R24, R43), OUT (R25),
RESULT (R26) and MAXCODE (R27). -/

namespace Sys2Proof.Machine

/-- The PHASE field of STATUS (R23, R28). -/
def phaseBits (p : Phase) : BitVec 2 :=
  match p with
  | .idle => 0
  | .active => 1
  | .done => 2
  | .fault => 3

/-- The CALL field of STATUS (R23, R29). -/
def callBits (c : Call) : BitVec 3 :=
  match c with
  | .none => 0
  | .enc => 1
  | .dec => 2
  | .pk => 3
  | .upk => 4

/-- The ERR field of STATUS (R23, R30, 60_exceptions.md R220). -/
def errBits (e : Err) : BitVec 4 :=
  match e with
  | .none => 0
  | .illegalCommand => 1
  | .sequence => 2
  | .precondition => 3
  | .corruptTruncated => 4
  | .corruptBadCode => 5
  | .corruptDuplicate => 6
  | .capacity => 7
  | .bufferOverflow => 8

/-- OUT_NE: 1 exactly when OUTQ is not empty (R23, R43). -/
def outNe (s : State) : BitVec 1 := if s.outq = [] then 0 else 1

/-- STATUS.NBITS as a number: the width of the next codeword the active pipeline will write or read (R24). -/
def statusNbits (s : State) : Nat :=
  match s.call with
  | .enc => bitLength s.maxCode
  | .dec => s.dnbits
  | .none => 0
  | .pk => 0
  | .upk => 0

/-- STATUS: the fields of R23 side by side, reserved bits zero. DESIGN CHOICE: NBITS shows the low 5 bits of the width;
safe, since nothing is cut in a state a run reaches (notes/assumptions/6.md). -/
def statusWord (s : State) : Word :=
  (0 : BitVec 11) ++ BitVec.ofNat 5 (statusNbits s) ++ (0 : BitVec 3) ++ outNe s ++ errBits s.err ++ (0 : BitVec 3) ++
    callBits s.call ++ phaseBits s.phase

/-- RESULT: RESULTV zero-extended (R26). -/
def resultWord (s : State) : Word := s.resultv.setWidth 32

/-- MAXCODE: MAX_CODE zero-extended (R27). DESIGN CHOICE: the low 32 bits of the number; safe, since nothing is cut in a
state a run reaches (notes/assumptions/6.md). -/
def maxcodeWord (s : State) : Word := BitVec.ofNat 32 s.maxCode

/-- The word a read of OUT returns: VALID in bit 8 and the byte, or 0 (R25). -/
def outWord (s : State) : Word :=
  match s.outq with
  | [] => 0
  | b :: _ => 0x100 ||| b.setWidth 32

/-- What a read of OUT removes: the byte it returns (R25). -/
def State.popOut (s : State) : State := { s with outq := s.outq.drop 1 }

end Sys2Proof.Machine
end

