-- ==== Sys2Proof/Machine/HostBus.lean ====
section
/-! DEFINITION. The register window as the host sees it: the offsets (10_state.md R21), the five accesses (20_memory.md
R61), the accesses outside the protocol (R62), and reset (70_reset_and_hazards.md R250). -/

namespace Sys2Proof.Machine

/-- CMD, offset 0x00 (R21). -/
def offCmd : BitVec 5 := 0x00

/-- STATUS, offset 0x04 (R21). -/
def offStatus : BitVec 5 := 0x04

/-- OUT, offset 0x08 (R21). -/
def offOut : BitVec 5 := 0x08

/-- RESULT, offset 0x0C (R21). -/
def offResult : BitVec 5 := 0x0C

/-- MAXCODE, offset 0x10 (R21). -/
def offMaxcode : BitVec 5 := 0x10

/-- `Step(w)` (40_dispatch.md R100): the word is decoded, then the command runs or the word is illegal. -/
def runWord (w : Word) (s : State) : Host.Outcome State Fault Refusal :=
  match decodeCmd w with
  | .ok i => exec i s
  | .error _ => runIllegal s

/-- What is wrong with an access before its register is looked at: its width, its alignment, or an unmapped offset
(20_memory.md R60, R62, R66). DESIGN CHOICE: the order in which they are named; safe (notes/assumptions/7.md). -/
def accessProblem (offset : BitVec 5) (bytes : Nat) : Option Refusal :=
  if bytes ≠ 4 then some .accessNotWord
  else if offset.toNat % 4 ≠ 0 then some .accessMisaligned
  else if offMaxcode.toNat < offset.toNat then some .accessUnmapped
  else none

/-- A host write: CMD runs the command, the other registers are read-only (10_state.md R21, R22). -/
def hostWrite (offset : BitVec 5) (bytes : Nat) (value : Word) (s : State) : Host.Outcome State Fault Refusal :=
  match accessProblem offset bytes with
  | some r => .refused r
  | none => if offset = offCmd then runWord value s else .refused .writeToReadOnly

/-- A host read: the register's word goes to the host, and a read of OUT removes the byte it returns (10_state.md R21,
R23, R25, R26, R27). -/
def hostRead (offset : BitVec 5) (bytes : Nat) (s : State) : Host.Outcome State Fault Refusal :=
  match accessProblem offset bytes with
  | some r => .refused r
  | none =>
    if offset = offCmd then .refused .readOfCmd
    else if offset = offStatus then .next (s.reply (statusWord s))
    else if offset = offOut then .next (s.popOut.reply (outWord s))
    else if offset = offResult then .next (s.reply (resultWord s))
    else .next (s.reply (maxcodeWord s))

/-- One host access, performed whole (20_memory.md R70). -/
def performAccess (a : HostAccess) (s : State) : Host.Outcome State Fault Refusal :=
  match a with
  | .write offset bytes value => hostWrite offset bytes value s
  | .read offset bytes => hostRead offset bytes s
  | .reset => .next s.resetBlock

/-- The state with the oldest pending access taken off the host's queue. -/
def State.takeAccess (s : State) : State := { s with pending := s.pending.drop 1 }

/-- The state in which the host's next access is to write the command word `w`. -/
def State.withNextCommand (w : Word) (s : State) : State :=
  { s with pending := .write offCmd 4 w :: s.pending }

end Sys2Proof.Machine
end

