-- ==== Sys2Proof/Machine/Step.lean ====
section
/-! DEFINITION. One step of the machine: the host's oldest pending access, or nothing while the host waits. -/

namespace Sys2Proof.Machine

/-- One host access is one step, in the order the host makes them (20_memory.md R70, 70_reset_and_hazards.md R255).
While the host waits the block holds its state (60_exceptions.md R237, 70_reset_and_hazards.md R251). DESIGN CHOICE: the
host's accesses stand in State; safe (notes/assumptions/1.md, 13.md). -/
def step (s : State) : Host.Outcome State Fault Refusal :=
  match s.pending with
  | [] => .next s
  | a :: _ => performAccess a s.takeAccess

/-- `s` with the instruction whose bits are the low `nbits` bits of `w` as the host's next command: the block fetches
nothing (20_memory.md R73), so a command runs because the host writes it to CMD. -/
def State.withFetchWord (s : State) (nbits w : Nat) : State :=
  s.withNextCommand (BitVec.ofNat 32 (w % 2 ^ nbits))

end Sys2Proof.Machine
end

