-- ==== Sys2Proof/Machine/Protocol.lean ====
section
/-! DEFINITION. What a host writes and reads to use the block: the pseudo-instructions (30_encoding.md R92) and the
protocol of the two source operations (70_reset_and_hazards.md R253), as sequences of host accesses, and the assembler
text of a command (R91). No step uses this file; it names the host's side for statements and tests. -/

namespace Sys2Proof.Machine

/-- The host access that gives the block one command: a write of its word to CMD. -/
def commandAccess (i : Instr) : HostAccess := .write offCmd 4 (encode i)

/-- `ENC_BYTES` (R92). -/
def encBytesAccesses (bs : List Byte) : List HostAccess := bs.map fun b => commandAccess (.encByte b)

/-- `DEC_BYTES` (R92). -/
def decBytesAccesses (bs : List Byte) : List HostAccess := bs.map fun b => commandAccess (.decByte b)

/-- `UPK_BYTES` (R92). -/
def upkBytesAccesses (bs : List Byte) : List HostAccess := bs.map fun b => commandAccess (.upkByte b)

/-- `ENCODE "s"` (R92, R253). -/
def encodeAccesses (bs : List Byte) : List HostAccess :=
  commandAccess .encInit :: (encBytesAccesses bs ++ [commandAccess .encEnd])

/-- `DECODE b0, b1, ...` (R92, R253). -/
def decodeAccesses (bs : List Byte) : List HostAccess :=
  commandAccess .decInit :: (decBytesAccesses bs ++ [commandAccess .decEnd])

/-- `DRAIN` (R92) in a state with `n` bytes in OUTQ: reads of OUT until one returns VALID = 0. -/
def drainAccesses (n : Nat) : List HostAccess := List.replicate (n + 1) (.read offOut 4)

/-- The bytes a host takes from the words its reads of OUT returned: `v[7:0]` where `v[8] = 1` (R253). -/
def drainedBytes (replies : List Word) : List Byte :=
  replies.filterMap fun v => if v.getLsbD 8 then some (v.extractLsb' 0 8) else none

/-- The commands of a batch, one after the other, each completed before the next (20_memory.md R70); the batch ends at
the first stop of the model. -/
def runCommands : List Instr → State → Host.Outcome State Fault Refusal
  | [], s => .next s
  | i :: is, s =>
    match exec i s with
    | .next t => runCommands is t
    | .fault f => .fault f
    | .refused r => .refused r

/-- The same for command words, legal or not, as the host writes them to CMD. -/
def runWords : List Word → State → Host.Outcome State Fault Refusal
  | [], s => .next s
  | w :: ws, s =>
    match runWord w s with
    | .next t => runWords ws t
    | .fault f => .fault f
    | .refused r => .refused r

/-- `n` steps of the machine; the run ends at the first stop of the model. -/
def runSteps : Nat → State → Host.Outcome State Fault Refusal
  | 0, s => .next s
  | n + 1, s =>
    match step s with
    | .next t => runSteps n t
    | .fault f => .fault f
    | .refused r => .refused r

/-- The commands of `ENCODE "s"` (R92). -/
def encodeCommands (bs : List Byte) : List Instr := .encInit :: (bs.map .encByte ++ [.encEnd])

/-- The commands of `DECODE b0, b1, ...` (R92). -/
def decodeCommands (bs : List Byte) : List Instr := .decInit :: (bs.map .decByte ++ [.decEnd])

/-- The mnemonic of a command as the opcode table spells it (R87). -/
def mnemonic (i : Instr) : String :=
  match i with
  | .encInit => "ENC_INIT"
  | .encByte _ => "ENC_BYTE"
  | .encEnd => "ENC_END"
  | .decInit => "DEC_INIT"
  | .decByte _ => "DEC_BYTE"
  | .decEnd => "DEC_END"
  | .pkInit => "PK_INIT"
  | .pkAppend _ _ => "PK_APPEND"
  | .pkEnd => "PK_END"
  | .upkInit => "UPK_INIT"
  | .upkByte _ => "UPK_BYTE"
  | .upkRead _ => "UPK_READ"
  | .upkEnd => "UPK_END"

/-- The assembler text of a command (R91): the mnemonic, then its operands in decimal. -/
def assembly (i : Instr) : String :=
  match i with
  | .encByte b => mnemonic i ++ " " ++ toString b.toNat
  | .decByte b => mnemonic i ++ " " ++ toString b.toNat
  | .upkByte b => mnemonic i ++ " " ++ toString b.toNat
  | .pkAppend w v => mnemonic i ++ " " ++ toString w.toNat ++ ", " ++ toString v.toNat
  | .upkRead w => mnemonic i ++ " " ++ toString w.toNat
  | .encInit | .encEnd | .decInit | .decEnd | .pkInit | .pkEnd | .upkInit | .upkEnd => mnemonic i

end Sys2Proof.Machine
end

