-- ==== Sys2Proof/Safety.lean ====
section
/-! DEFINITION. What counts as a sound state and a valid end, in the terms the statements use: the invariants of
10_state.md R40 with the facts of 42_dictionary.md R149 they rest on, the end of a call and the clean entry
(70_reset_and_hazards.md R259), and the bounds of 60_exceptions.md R221. -/

namespace Sys2Proof.Machine

/-- The Symbol is a key of FWD. -/
def State.knows (s : State) (sym : Symbol) : Prop := (mapGet s.fwd sym).isSome = true

/-- The dictionary's canonical form: REV lists the codes 1..MAX_CODE in rising order, FWD the same pairs in the same
order, and no Symbol stands twice (10_state.md R31, R40 items 1 and 2). -/
structure DictCanonical (s : State) : Prop where
  codes : s.rev.map Prod.fst = List.range' 1 s.maxCode
  mirror : s.fwd = s.rev.map Prod.swap
  distinct : (s.rev.map Prod.snd).Nodup

/-- A dictionary that a call has seeded: it still holds the 256 single bytes at their codes (42_dictionary.md R141,
R142). -/
def Seeded (s : State) : Prop :=
  256 ≤ s.maxCode ∧ ∀ b : Byte, mapGet s.fwd (Symbol.single b) = some (b.toNat + 1)

/-- Every key of FWD of length 2 or more is a key with one more byte (10_state.md R40 item 3, 42_dictionary.md R149). -/
def ParentClosed (s : State) : Prop :=
  ∀ sym, s.knows sym → sym.rest ≠ [] → ∃ t x, s.knows t ∧ sym = t.snoc x

/-- The Symbol of code k has length at most max(1, k - 255) (42_dictionary.md R149 item 2). -/
def LengthsBounded (s : State) : Prop :=
  ∀ sym k, mapGet s.fwd sym = some k → sym.length ≤ max 1 (k - 255)

/-- The invariant of 10_state.md R40, for every choice of the parameters that R5 allows, with what its items need to be
kept by a step. -/
structure Invariant (s : State) : Prop where
  /-- The parameters are ones R5 allows. -/
  params : s.params.wellFormed = true
  /-- Items 1 and 2. -/
  canonical : DictCanonical s
  /-- Item 2. -/
  capacity : s.maxCode = 0 ∨ (Seeded s ∧ s.maxCode ≤ codeLimit s.params)
  /-- Item 3. -/
  closed : ParentClosed s
  /-- 42_dictionary.md R149 item 2. -/
  lengths : LengthsBounded s
  /-- Item 4. -/
  acc : s.acc.length ≤ 7
  /-- IBUF never exceeds IBUF_BITS (R36). -/
  ibuf : s.ibuf.length ≤ s.params.ibufBits
  /-- DNBITS is in 0..W_MAX+1 (R34). -/
  dnbits : s.dnbits ≤ s.params.wMax + 1
  /-- ERR is 0 exactly outside FAULT (R30, R43). -/
  err : s.err = .none ↔ s.phase ≠ .fault
  /-- IDLE is the phase before any call (R28, R29). -/
  idle : s.phase = .idle → s.call = .none
  /-- Before any call no call is running or done (R28, R29). -/
  noCall : s.call = .none → s.phase = .idle ∨ s.phase = .fault
  /-- An ENC or DEC call has seeded the dictionary (42_dictionary.md R152). -/
  seeded : s.call = .enc ∨ s.call = .dec → s.maxCode ≠ 0
  /-- A DEC call has set DNBITS (R34). -/
  decWidth : s.call = .dec → 9 ≤ s.dnbits
  /-- Item 7. -/
  encWord : s.call = .enc → s.phase = .active → ∀ w, s.word = some w → s.knows w
  /-- Item 5. -/
  decBits : s.call = .dec → s.phase = .active → s.ibuf.length < s.dnbits
  /-- Item 6. -/
  decNext : s.call = .dec → s.phase = .active → s.dnbits = bitLength (s.maxCode + 1)
  /-- Item 6: nothing is inserted before the first Symbol. -/
  decFirst : s.call = .dec → s.phase = .active → s.prev = none → s.maxCode = 256
  /-- Item 8. -/
  decPrev : s.call = .dec → s.phase = .active → ∀ p, s.prev = some p → s.knows p

/-- The pipeline a data command belongs to, and `none` for an *_INIT command (40_dispatch.md R101, R102). -/
def pipelineOf (i : Instr) : Option Call :=
  match i with
  | .encByte _ => some .enc
  | .encEnd => some .enc
  | .decByte _ => some .dec
  | .decEnd => some .dec
  | .pkAppend _ _ => some .pk
  | .pkEnd => some .pk
  | .upkByte _ => some .upk
  | .upkRead _ => some .upk
  | .upkEnd => some .upk
  | .encInit => none
  | .decInit => none
  | .pkInit => none
  | .upkInit => none

/-- The bits of an ordered sequence of (value, width) pairs, each value MSB first (41_bitpacker.md R115). -/
def packBits (pairs : List (Nat × Nat)) : List Bool := pairs.flatMap fun p => bitsOf p.2 p.1

/-- The byte sequence is the bit sequence cut into bytes, the last one padded on the right with fewer than 8 zero bits
(30_encoding.md R82, 41_bitpacker.md R115). -/
def IsCutOf (bytes : List Byte) (bits : List Bool) : Prop :=
  ∃ k, k < 8 ∧ bytes.flatMap byteBits = bits ++ zeroBits k

/-- The Symbol a decode step takes for the code c: the dictionary's, or the one synthesised from PREV for the code the
decoder has not yet mirrored (44_decoder.md R192 step 4). -/
def DecodesTo (s : State) (c : Nat) (sym : Symbol) : Prop :=
  mapGet s.rev c = some sym ∨
    (mapGet s.rev c = none ∧ c = s.maxCode + 1 ∧ ∃ p, s.prev = some p ∧ sym = p.snoc p.first)

/-- The next state of an outcome, if it is one. -/
def nextState (o : Host.Outcome State Fault Refusal) : Option State :=
  match o with
  | .next t => some t
  | .fault _ => none
  | .refused _ => none

/-- A call is over when PHASE is DONE or FAULT (70_reset_and_hazards.md R259). -/
def callOver (s : State) : Bool := decide (s.phase = .done) || decide (s.phase = .fault)

/-- The output of a call is valid only if the call ended with PHASE = DONE (60_exceptions.md R227). -/
def outputValid (s : State) : Bool := decide (s.phase = .done)

/-- The clean-entry state of a call of the given kind (70_reset_and_hazards.md R259). -/
def CleanEntry (kind : Call) (s : State) : Prop :=
  s.phase = .active ∧ s.call = kind ∧ s.err = .none ∧ s.acc = [] ∧ s.ibuf = [] ∧ s.outq = [] ∧
    (kind = .enc ∨ kind = .dec → s.fwd = seedFwd ∧ s.rev = seedRev ∧ s.maxCode = 256) ∧
    (kind = .enc → s.word = none) ∧ (kind = .dec → s.prev = none ∧ s.dnbits = 9)

end Sys2Proof.Machine
end

