-- ==== Sys2Proof/Certificates/Slice0/Obligations.lean ====
section
/-! DEFINITION. The statements for the provers, one `def Obligations.<Name> : Prop` each, in the order of
OBLIGATIONS.json. -/

open Sys2Proof Sys2Proof.Machine

/-! ## Encoding -/

/-- Decode and encode agree on every well-formed command with every operand (30_encoding.md R85, R86, R87, R93). -/
def Obligations.DecodeInvertsEncode : Prop :=
  ∀ i : Instr, i.wellFormed = true → decodeCmd (encode i) = .ok i

/-- A legal word is the encoding of the command it decodes to, so no bit of it is dropped (30_encoding.md R86, R93). -/
def Obligations.LegalWordIsItsEncoding : Prop :=
  ∀ (w : Word) (i : Instr), decodeCmd w = .ok i → i.wellFormed = true ∧ encode i = w

/-- The opcode map (30_encoding.md R87): "A word w selects a row when (w & mask) = match, with the extra W condition
where the row gives one", and the selected row is the command the word decodes to. -/
def Obligations.OpcodeMapRowsDecode : Prop :=
  ∀ w : Word,
    (w &&& 0xFFFFFFFF = 0x10000000 ↔ decodeCmd w = .ok .encInit) ∧
    (w &&& 0xFFFFFF00 = 0x20000000 ↔ ∃ b, decodeCmd w = .ok (.encByte b)) ∧
    (w &&& 0xFFFFFFFF = 0x30000000 ↔ decodeCmd w = .ok .encEnd) ∧
    (w &&& 0xFFFFFFFF = 0x40000000 ↔ decodeCmd w = .ok .decInit) ∧
    (w &&& 0xFFFFFF00 = 0x50000000 ↔ ∃ b, decodeCmd w = .ok (.decByte b)) ∧
    (w &&& 0xFFFFFFFF = 0x60000000 ↔ decodeCmd w = .ok .decEnd) ∧
    (w &&& 0xFFFFFFFF = 0x70000000 ↔ decodeCmd w = .ok .pkInit) ∧
    (w &&& 0xF0000000 = 0x80000000 ∧ w.toNat / 2 ^ 23 % 32 ≤ 23 ↔ ∃ a v, decodeCmd w = .ok (.pkAppend a v)) ∧
    (w &&& 0xFFFFFFFF = 0x90000000 ↔ decodeCmd w = .ok .pkEnd) ∧
    (w &&& 0xFFFFFFFF = 0xA0000000 ↔ decodeCmd w = .ok .upkInit) ∧
    (w &&& 0xFFFFFF00 = 0xB0000000 ↔ ∃ b, decodeCmd w = .ok (.upkByte b)) ∧
    (w &&& 0xF07FFFFF = 0xC0000000 ∧ w.toNat / 2 ^ 23 % 32 ≤ 23 ↔ ∃ a, decodeCmd w = .ok (.upkRead a)) ∧
    (w &&& 0xFFFFFFFF = 0xD0000000 ↔ decodeCmd w = .ok .upkEnd)

/-- Operand assembly (30_encoding.md R88): B, W and V are bits [7:0], [27:23] and [22:0] of the word, unchanged; a
PK_APPEND with V >= 2^W is well-formed as a word and faults PRECONDITION when executed. -/
def Obligations.OperandsTakenFromTheirFields : Prop :=
  (∀ (w : Word) (b : Byte),
    decodeCmd w = .ok (.encByte b) ∨ decodeCmd w = .ok (.decByte b) ∨ decodeCmd w = .ok (.upkByte b) →
    b.toNat = w.toNat % 256) ∧
  (∀ (w : Word) (a : BitVec 5) (v : BitVec 23), decodeCmd w = .ok (.pkAppend a v) →
    a.toNat = w.toNat / 2 ^ 23 % 32 ∧ a.toNat ≤ 23 ∧ v.toNat = w.toNat % 2 ^ 23) ∧
  (∀ (w : Word) (a : BitVec 5), decodeCmd w = .ok (.upkRead a) → a.toNat = w.toNat / 2 ^ 23 % 32 ∧ a.toNat ≤ 23) ∧
  (∀ (a : BitVec 5) (v : BitVec 23) (s : State), a.toNat ≤ 23 → 2 ^ a.toNat ≤ v.toNat →
    s.call = .pk → s.phase = .active →
    decodeCmd (encode (.pkAppend a v)) = .ok (.pkAppend a v) ∧
    exec (.pkAppend a v) s = .next { s with phase := .fault, err := .precondition })

/-- Illegal encodings (30_encoding.md R89): which words are illegal, what executing one does, and that every other word
is exactly one command. -/
def Obligations.IllegalWordsRaiseIllegalCommand : Prop :=
  ∀ w : Word,
    ((∃ e, decodeCmd w = .error e) ↔
      w.toNat / 2 ^ 28 ∈ [0x0, 0xE, 0xF] ∨
      (w.toNat / 2 ^ 28 ∈ [0x1, 0x3, 0x4, 0x6, 0x7, 0x9, 0xA, 0xD] ∧ w.toNat % 2 ^ 28 ≠ 0) ∨
      (w.toNat / 2 ^ 28 ∈ [0x2, 0x5, 0xB] ∧ w.toNat % 2 ^ 28 / 2 ^ 8 ≠ 0) ∨
      (w.toNat / 2 ^ 28 = 0x8 ∧ 23 < w.toNat / 2 ^ 23 % 32) ∨
      (w.toNat / 2 ^ 28 = 0xC ∧ (w.toNat % 2 ^ 23 ≠ 0 ∨ 23 < w.toNat / 2 ^ 23 % 32))) ∧
    ((∃ i, decodeCmd w = .ok i ∧ ∀ j, decodeCmd w = .ok j → j = i) ↔ ¬ ∃ e, decodeCmd w = .error e) ∧
    ∀ (e : IllegalWord) (s : State), decodeCmd w = .error e →
      (s.phase ≠ .fault → runWord w s = .next { s with phase := .fault, err := .illegalCommand }) ∧
      (s.phase = .fault → runWord w s = .next s)

/-- A few words written out from the encoding, with the command each stands for (95_test_vectors.md section 3.1 and the
worked words of section 4). -/
def Obligations.SampleWordsDecode : Prop :=
  decodeCmd 0b00010000000000000000000000000000 = .ok .encInit ∧
  decodeCmd 0b00100000000000000000000001100001 = .ok (.encByte 0x61) ∧
  decodeCmd 0b01010000000000000000000001000000 = .ok (.decByte 0x40) ∧
  decodeCmd 0b10000001100000000000000000000101 = .ok (.pkAppend 3 5) ∧
  decodeCmd 0b10001011111111111111111111111111 = .ok (.pkAppend 23 0x7FFFFF) ∧
  decodeCmd 0b11000001100000000000000000000000 = .ok (.upkRead 3) ∧
  decodeCmd 0b10001100000000000000000000000000 = .error .widthAbove23 ∧
  decodeCmd 0b00110000100000000000000000000000 = .error .nonzeroField ∧
  decodeCmd 0b11100000000000000000000000000000 = .error .reservedOpcode

/-! ## Steps and the host's registers -/

/-- A step runs the decoded command (40_dispatch.md R100): when the host's oldest access is a write of the word w to
CMD, the step takes that access off the host's queue and is exec of the command w decodes to; a word of the opcode table
placed by withFetchWord is run so. -/
def Obligations.StepRunsDecodedCommand : Prop :=
  (∀ (s : State) (w : Word) (i : Instr) (rest : List HostAccess),
    s.pending = .write 0x00#5 4 w :: rest → decodeCmd w = .ok i → step s = exec i { s with pending := rest }) ∧
  (∀ (s : State) (n : Nat) (i : Instr), decodeTableWord 32 n = some i → step (s.withFetchWord 32 n) = exec i s)

/-- "Between commands it holds its state unchanged for as long as the host waits." (60_exceptions.md R237) -/
def Obligations.WaitingHoldsState : Prop :=
  ∀ s : State, s.pending = [] → step s = .next s

/-- STATUS (10_state.md R23): every field at its bits, the reserved bits 0, no side effect, no write reaches it, and it
reads 0 after reset. -/
def Obligations.StatusReadReportsFields : Prop :=
  (∀ (s : State) (rest : List HostAccess), s.pending = .read 0x04#5 4 :: rest →
    ∃ v : Word, step s = .next { s with pending := rest, replies := s.replies ++ [v] } ∧
      v.extractLsb' 0 2 = (match s.phase with | .idle => 0#2 | .active => 1#2 | .done => 2#2 | .fault => 3#2) ∧
      v.extractLsb' 2 3 =
        (match s.call with | .none => 0#3 | .enc => 1#3 | .dec => 2#3 | .pk => 3#3 | .upk => 4#3) ∧
      v.extractLsb' 5 3 = 0 ∧
      v.extractLsb' 8 4 =
        (match s.err with
          | .none => 0#4 | .illegalCommand => 1#4 | .sequence => 2#4 | .precondition => 3#4 | .corruptTruncated => 4#4
          | .corruptBadCode => 5#4 | .corruptDuplicate => 6#4 | .capacity => 7#4 | .bufferOverflow => 8#4) ∧
      v.extractLsb' 12 1 = (if s.outq = [] then 0#1 else 1#1) ∧
      v.extractLsb' 13 3 = 0 ∧
      v.extractLsb' 16 5 =
        BitVec.ofNat 5 (match s.call with | .enc => bitLength s.maxCode | .dec => s.dnbits | _ => 0) ∧
      v.extractLsb' 21 11 = 0) ∧
  (∀ (s : State) (n : Nat) (x : Word) (rest : List HostAccess), s.pending = .write 0x04#5 n x :: rest →
    ∃ r, step s = .refused r) ∧
  statusWord State.reset = 0

/-- STATUS.NBITS (10_state.md R24): the width of the next codeword the active pipeline will write or read, 0 or
9..W_MAX+1, whole in its 5 bits. -/
def Obligations.StatusNbitsIsNextWidth : Prop :=
  ∀ (s : State) (rest : List HostAccess), Invariant s → s.pending = .read 0x04#5 4 :: rest →
    ∃ v : Word, step s = .next { s with pending := rest, replies := s.replies ++ [v] } ∧
      (s.call = .enc → (v.extractLsb' 16 5).toNat = bitLength s.maxCode) ∧
      (s.call = .dec → (v.extractLsb' 16 5).toNat = s.dnbits) ∧
      (s.call ≠ .enc → s.call ≠ .dec → (v.extractLsb' 16 5).toNat = 0) ∧
      ((v.extractLsb' 16 5).toNat = 0 ∨
        (9 ≤ (v.extractLsb' 16 5).toNat ∧ (v.extractLsb' 16 5).toNat ≤ s.params.wMax + 1))

/-- OUT (10_state.md R25): with OUTQ empty a read returns 0 and changes nothing, else it returns VALID in bit 8 with the
oldest byte and removes it; PHASE never changes. -/
def Obligations.OutReadPopsOldestByte : Prop :=
  ∀ (s : State) (rest : List HostAccess), s.pending = .read 0x08#5 4 :: rest →
    (s.outq = [] → step s = .next { s with pending := rest, replies := s.replies ++ [0] }) ∧
    (∀ b q, s.outq = b :: q →
      ∃ v : Word, v.toNat = 256 + b.toNat ∧
        step s = .next { s with pending := rest, outq := q, replies := s.replies ++ [v] })

/-- RESULT (10_state.md R26): reads return RESULTV zero-extended, only UPK_READ and UPK_INIT write it, and its reset
value is 0. -/
def Obligations.ResultRegisterHoldsLastRead : Prop :=
  (∀ (s : State) (rest : List HostAccess), s.pending = .read 0x0C#5 4 :: rest →
    ∃ v : Word, v.toNat = s.resultv.toNat ∧
      step s = .next { s with pending := rest, replies := s.replies ++ [v] }) ∧
  (∀ (i : Instr) (s t : State), exec i s = .next t → t.resultv ≠ s.resultv →
    i = .upkInit ∨ ∃ a, i = .upkRead a) ∧
  State.reset.resultv = 0

/-- MAXCODE (10_state.md R27): reads return MAX_CODE, which is 0 at reset, 256 after ENC_INIT or DEC_INIT, and then
changes only by an insertion, one up. -/
def Obligations.MaxcodeRegisterReadsMaxCode : Prop :=
  (∀ (s : State) (rest : List HostAccess), Invariant s → s.pending = .read 0x10#5 4 :: rest →
    ∃ v : Word, v.toNat = s.maxCode ∧ step s = .next { s with pending := rest, replies := s.replies ++ [v] }) ∧
  State.reset.maxCode = 0 ∧
  (∀ (s : State), s.phase ≠ .active →
    (∃ t, exec .encInit s = .next t ∧ t.maxCode = 256) ∧ ∃ t, exec .decInit s = .next t ∧ t.maxCode = 256) ∧
  (∀ (i : Instr) (s t : State), exec i s = .next t → i ≠ .encInit → i ≠ .decInit →
    t.maxCode = s.maxCode ∨
      ∃ sym, mapGet s.fwd sym = none ∧ t.maxCode = s.maxCode + 1 ∧ mapGet t.fwd sym = some t.maxCode)

/-- "Any other host access is outside the host protocol, and the model gives it no step (it is refused)."
(20_memory.md R62): the accesses the machine refuses are exactly those that are neither one of the five of R61 nor
reset. -/
def Obligations.OtherAccessesAreRefused : Prop :=
  ∀ (s : State) (a : HostAccess) (rest : List HostAccess), s.pending = a :: rest →
    ((∃ r, step s = .refused r) ↔
      ¬ (a = .reset ∨ (∃ w, a = .write 0x00#5 4 w) ∨ a = .read 0x04#5 4 ∨ a = .read 0x08#5 4 ∨ a = .read 0x0C#5 4 ∨
        a = .read 0x10#5 4))

/-- Reset (70_reset_and_hazards.md R250): every state element takes its reset value in every PHASE, output still in OUTQ
is lost, and no other action returns to IDLE. The parameters, fixed when the block is built, and the host's own queues
stay. -/
def Obligations.ResetSetsEveryElement : Prop :=
  (∀ (s : State) (rest : List HostAccess), s.pending = .reset :: rest →
    step s = .next
      { phase := .idle, call := .none, err := .none, fwd := [], rev := [], maxCode := 0, word := none, prev := none,
        dnbits := 0, acc := [], ibuf := [], outq := [], resultv := 0, params := s.params, pending := rest,
        replies := s.replies }) ∧
  (∀ s t : State, s.phase ≠ .idle → step s = .next t → t.phase = .idle → ∃ rest, s.pending = .reset :: rest)

/-- The reset values (10_state.md R39), and what the four readable registers then read; a call's *_INIT leaves nothing
of them where the call reads. -/
def Obligations.ResetStateHoldsTableValues : Prop :=
  State.reset.phase = .idle ∧ State.reset.call = .none ∧ State.reset.err = .none ∧ State.reset.fwd = [] ∧
  State.reset.rev = [] ∧ State.reset.maxCode = 0 ∧ State.reset.word = none ∧ State.reset.prev = none ∧
  State.reset.dnbits = 0 ∧ State.reset.acc = [] ∧ State.reset.ibuf = [] ∧ State.reset.outq = [] ∧
  State.reset.resultv = 0 ∧
  statusWord State.reset = 0 ∧ outWord State.reset = 0 ∧ resultWord State.reset = 0 ∧ maxcodeWord State.reset = 0 ∧
  ∀ s : State, s.phase ≠ .active →
    (∃ t, exec .encInit s = .next t ∧ CleanEntry .enc t) ∧ ∃ t, exec .decInit s = .next t ∧ CleanEntry .dec t

/-- The host's command writes run in the host's order, each completed before the next (20_memory.md R70): one step for
each write, and the outcome is that of the commands one after the other. -/
def Obligations.HostWritesRunInOrder : Prop :=
  ∀ (is : List Instr) (s : State) (rest : List HostAccess), (∀ i ∈ is, i.wellFormed = true) →
    s.pending = is.map commandAccess ++ rest → runSteps is.length s = runCommands is { s with pending := rest }

/-- DRAIN (30_encoding.md R92, 70_reset_and_hazards.md R253): reads of OUT until one is not VALID give the host the
bytes of OUTQ, oldest first, and change nothing else. -/
def Obligations.DrainReturnsOutputInOrder : Prop :=
  ∀ (s : State) (rest : List HostAccess), s.pending = drainAccesses s.outq.length ++ rest →
    ∃ words : List Word, drainedBytes words = s.outq ∧
      runSteps (s.outq.length + 1) s =
        .next { s with pending := rest, outq := [], replies := s.replies ++ words }

/-! ## Dispatch and faults -/

/-- Admission of an *_INIT command and Start_call (40_dispatch.md R101): in an ACTIVE call it faults SEQUENCE, else it
starts a call with ACC, IBUF and OUTQ empty. -/
def Obligations.InitStartsCallUnlessActive : Prop :=
  ∀ (i : Instr) (kind : Call) (s : State),
    (i, kind) ∈ [(Instr.encInit, Call.enc), (.decInit, .dec), (.pkInit, .pk), (.upkInit, .upk)] →
    (s.phase = .active → exec i s = .next { s with phase := .fault, err := .sequence }) ∧
    (s.phase ≠ .active → ∃ t, exec i s = .next t ∧ t.phase = .active ∧ t.call = kind ∧ t.err = .none ∧
      t.acc = [] ∧ t.ibuf = [] ∧ t.outq = [])

/-- Admission of a data command and the admission matrix (40_dispatch.md R102): ignored in FAULT and, in a DEC call, in
DONE; SEQUENCE outside an active call of its own pipeline; its own rule, which never raises SEQUENCE, inside one. -/
def Obligations.DataCommandAdmission : Prop :=
  ∀ (i : Instr) (p : Call) (s : State), pipelineOf i = some p → i.wellFormed = true →
    (s.phase = .fault → exec i s = .next s) ∧
    (s.phase ≠ .fault → s.call ≠ p → exec i s = .next { s with phase := .fault, err := .sequence }) ∧
    (s.call = p → p = .dec → s.phase = .done → exec i s = .next s) ∧
    (s.call = p → s.phase ≠ .fault → s.phase ≠ .active → ¬ (p = .dec ∧ s.phase = .done) →
      exec i s = .next { s with phase := .fault, err := .sequence }) ∧
    (s.call = p → s.phase = .active → exec i s ≠ .next { s with phase := .fault, err := .sequence })

/-- Fault entry (60_exceptions.md R224): a command word that faults commits nothing but PHASE = FAULT and its code, and
the rule's example. -/
def Obligations.FaultCommitsOnlyPhaseAndErr : Prop :=
  (∀ (w : Word) (s t : State), runWord w s = .next t → s.phase ≠ .fault → t.phase = .fault →
    ∃ e, e ≠ Err.none ∧ t = { s with phase := .fault, err := e }) ∧
  (nextState (runCommands [.decInit, .decByte 0x00, .decEnd] State.reset)).map statusWord = some 0x0009040B

/-- Behaviour in FAULT (60_exceptions.md R225): every batch of words without an *_INIT changes no state, so ERR keeps
the code of the first fault, and register reads still work. -/
def Obligations.FaultIgnoresAllButInit : Prop :=
  (∀ (ws : List Word) (s : State), s.phase = .fault →
    (∀ w ∈ ws, ∀ i, decodeCmd w = .ok i → pipelineOf i ≠ none) → runWords ws s = .next s) ∧
  (∀ (s : State) (o : BitVec 5) (rest : List HostAccess), s.phase = .fault → o ∈ [0x04#5, 0x08#5, 0x0C#5, 0x10#5] →
    s.pending = .read o 4 :: rest →
    ∃ t v, step s = .next t ∧ t.phase = .fault ∧ t.err = s.err ∧ t.replies = s.replies ++ [v] ∧
      t.outq = if o = 0x08#5 then s.outq.drop 1 else s.outq)

/-- Leaving FAULT (60_exceptions.md R226): an *_INIT in FAULT starts a new call and clears ERR, reset returns to IDLE,
nothing else leaves FAULT, and no fault is raised while PHASE = FAULT. -/
def Obligations.FaultIsLeftOnlyByInitOrReset : Prop :=
  (∀ (i : Instr) (s : State), s.phase = .fault → pipelineOf i = none →
    ∃ t, exec i s = .next t ∧ t.phase = .active ∧ t.err = .none) ∧
  (∀ s t : State, s.phase = .fault → step s = .next t →
    (t.phase = .fault ∧ t.err = s.err) ∨
    (t.phase = .idle ∧ t.err = .none ∧ ∃ rest, s.pending = .reset :: rest) ∨
    (t.phase = .active ∧ t.err = .none ∧
      ∃ w i rest, s.pending = .write 0x00#5 4 w :: rest ∧ decodeCmd w = .ok i ∧ pipelineOf i = none))

/-- The fault codes (60_exceptions.md R220): the number of each in ERR, and which commands raise it. -/
def Obligations.FaultCodesAndTheirCommands : Prop :=
  ([Err.none, .illegalCommand, .sequence, .precondition, .corruptTruncated, .corruptBadCode, .corruptDuplicate,
    .capacity, .bufferOverflow].map fun e => (errBits e).toNat) = [0, 1, 2, 3, 4, 5, 6, 7, 8] ∧
  (∀ (w : Word) (s t : State), Invariant s → s.phase ≠ .fault → runWord w s = .next t → t.phase = .fault →
    (t.err = .illegalCommand ↔ ∃ e, decodeCmd w = .error e) ∧
    (∀ i, decodeCmd w = .ok i →
      t.err = .sequence ∨
      (t.err = .precondition ∧ ∃ a v, i = .pkAppend a v) ∨
      (t.err = .corruptTruncated ∧ (i = .decEnd ∨ ∃ a, i = .upkRead a)) ∨
      (t.err = .corruptBadCode ∧ ∃ b, i = .decByte b) ∨
      (t.err = .corruptDuplicate ∧ ∃ b, i = .decByte b) ∨
      (t.err = .capacity ∧ ((∃ b, i = .encByte b) ∨ ∃ b, i = .decByte b)) ∨
      (t.err = .bufferOverflow ∧ ∃ b, i = .upkByte b)))

/-! ## Raw packer -/

/-- PK_INIT (41_bitpacker.md R120). -/
def Obligations.PkInitStartsRawPack : Prop :=
  encode .pkInit = 0x70000000 ∧
  (∀ s : State, s.phase ≠ .active →
    exec .pkInit s =
      .next { s with phase := .active, call := .pk, err := .none, acc := [], ibuf := [], outq := [] }) ∧
  (∀ s : State, s.phase = .active → exec .pkInit s = .next { s with phase := .fault, err := .sequence }) ∧
  (nextState (exec .pkInit State.reset)).map statusWord = some 0x0000000D

/-- PK_APPEND W, V (41_bitpacker.md R121): the W bits of V join ACC, MSB first, and whole bytes move to OUTQ. -/
def Obligations.PkAppendAppendsBits : Prop :=
  (∀ (a : BitVec 5) (v : BitVec 23), encode (.pkAppend a v) = 0x80000000 ||| (a.setWidth 32 <<< 23) ||| v.setWidth 32) ∧
  (∀ (a : BitVec 5) (v : BitVec 23) (s : State), s.call = .pk → s.phase = .active → a.toNat ≤ 23 →
    v.toNat < 2 ^ a.toNat →
    ∃ acc' bytes, exec (.pkAppend a v) s = .next { s with acc := acc', outq := s.outq ++ bytes } ∧
      bytes.flatMap byteBits ++ acc' = s.acc ++ bitsOf a.toNat v.toNat ∧ acc'.length < 8 ∧
      (s.acc.length ≤ 7 → bytes.length ≤ 3) ∧ (8 ≤ s.acc.length + a.toNat → s.outq ++ bytes ≠ [])) ∧
  (∀ (a : BitVec 5) (v : BitVec 23) (s : State), s.call = .pk → s.phase = .active → a.toNat ≤ 23 →
    2 ^ a.toNat ≤ v.toNat → exec (.pkAppend a v) s = .next { s with phase := .fault, err := .precondition }) ∧
  (∀ (a : BitVec 5) (v : BitVec 23) (s : State), s.phase ≠ .fault → a.toNat ≤ 23 → s.call ≠ .pk ∨ s.phase ≠ .active →
    exec (.pkAppend a v) s = .next { s with phase := .fault, err := .sequence }) ∧
  (∀ (a : BitVec 5) (v : BitVec 23) (s : State), s.phase ≠ .fault → 23 < a.toNat →
    runWord (encode (.pkAppend a v)) s = .next { s with phase := .fault, err := .illegalCommand }) ∧
  (nextState (runCommands [.pkInit, .pkAppend 3 5] State.reset)).map (fun t => (t.acc, t.outq)) =
    some ([true, false, true], [])

/-- PK_END (41_bitpacker.md R122): the bits left in ACC become one byte, padded on the right with zeros, and the call
is DONE. -/
def Obligations.PkEndPadsLastByte : Prop :=
  encode .pkEnd = 0x90000000 ∧
  (∀ s : State, s.call = .pk → s.phase = .active → s.acc = [] → exec .pkEnd s = .next { s with phase := .done }) ∧
  (∀ s : State, s.call = .pk → s.phase = .active → s.acc ≠ [] → s.acc.length ≤ 7 →
    ∃ b : Byte, exec .pkEnd s = .next { s with phase := .done, acc := [], outq := s.outq ++ [b] } ∧
      byteBits b = s.acc ++ zeroBits (8 - s.acc.length)) ∧
  (∀ s : State, s.phase ≠ .fault → s.call ≠ .pk ∨ s.phase ≠ .active →
    exec .pkEnd s = .next { s with phase := .fault, err := .sequence }) ∧
  (nextState (runCommands [.pkInit, .pkAppend 3 5, .pkEnd] State.reset)).map (fun t => t.outq) = some [0xA0]

/-- A raw-pack call leaves in OUTQ exactly the source's pack() of the appended pairs (41_bitpacker.md R123, R115). -/
def Obligations.RawPackCallGivesPack : Prop :=
  ∀ (pairs : List (BitVec 5 × BitVec 23)) (s : State), s.phase ≠ .active →
    (∀ p ∈ pairs, p.1.toNat ≤ 23 ∧ p.2.toNat < 2 ^ p.1.toNat) →
    ∃ t, runCommands (.pkInit :: (pairs.map (fun p => Instr.pkAppend p.1 p.2) ++ [.pkEnd])) s = .next t ∧
      t.phase = .done ∧ IsCutOf t.outq (packBits (pairs.map fun p => (p.2.toNat, p.1.toNat)))

/-! ## Raw unpacker -/

/-- UPK_INIT (41_bitpacker.md R124). -/
def Obligations.UpkInitStartsRawUnpack : Prop :=
  encode .upkInit = 0xA0000000 ∧
  (∀ s : State, s.phase ≠ .active →
    exec .upkInit s =
      .next { s with phase := .active, call := .upk, err := .none, acc := [], ibuf := [], outq := [], resultv := 0 }) ∧
  (∀ s : State, s.phase = .active → exec .upkInit s = .next { s with phase := .fault, err := .sequence }) ∧
  (nextState (exec .upkInit State.reset)).map statusWord = some 0x00000011

/-- UPK_BYTE b (41_bitpacker.md R125): the byte joins IBUF, bit 7 first, unless IBUF would pass IBUF_BITS. -/
def Obligations.UpkBytePushesWithinBound : Prop :=
  (∀ b : Byte, encode (.upkByte b) = 0xB0000000 ||| b.setWidth 32) ∧
  (∀ (b : Byte) (s : State), s.call = .upk → s.phase = .active → s.ibuf.length + 8 ≤ s.params.ibufBits →
    ∃ bits, exec (.upkByte b) s = .next { s with ibuf := s.ibuf ++ bits } ∧
      bits = (List.range 8).map fun k => b.getLsbD (7 - k)) ∧
  (∀ (b : Byte) (s : State), s.call = .upk → s.phase = .active → s.params.ibufBits < s.ibuf.length + 8 →
    exec (.upkByte b) s = .next { s with phase := .fault, err := .bufferOverflow }) ∧
  (∀ (b : Byte) (s : State), s.phase ≠ .fault → s.call ≠ .upk ∨ s.phase ≠ .active →
    exec (.upkByte b) s = .next { s with phase := .fault, err := .sequence }) ∧
  (nextState (runCommands [.upkInit, .upkByte 0xA5] State.reset)).map (fun t => t.ibuf) =
    some [true, false, true, false, false, true, false, true]

/-- UPK_READ W (41_bitpacker.md R126): the next W bits leave IBUF, MSB first, for RESULT. -/
def Obligations.UpkReadTakesNextBits : Prop :=
  (∀ a : BitVec 5, encode (.upkRead a) = 0xC0000000 ||| (a.setWidth 32 <<< 23)) ∧
  (∀ (a : BitVec 5) (s : State), s.call = .upk → s.phase = .active → a.toNat ≤ 23 → a.toNat ≤ s.ibuf.length →
    ∃ (v : BitVec 23) (left : List Bool), exec (.upkRead a) s = .next { s with resultv := v, ibuf := left } ∧
      bitsOf a.toNat v.toNat ++ left = s.ibuf ∧ v.toNat < 2 ^ a.toNat) ∧
  (∀ (a : BitVec 5) (s : State), s.call = .upk → s.phase = .active → a.toNat ≤ 23 → s.ibuf.length < a.toNat →
    exec (.upkRead a) s = .next { s with phase := .fault, err := .corruptTruncated }) ∧
  (∀ (a : BitVec 5) (s : State), s.phase ≠ .fault → a.toNat ≤ 23 → s.call ≠ .upk ∨ s.phase ≠ .active →
    exec (.upkRead a) s = .next { s with phase := .fault, err := .sequence }) ∧
  (∀ (w : Word) (s : State), s.phase ≠ .fault → w.toNat / 2 ^ 28 = 0xC →
    23 < w.toNat / 2 ^ 23 % 32 ∨ w.toNat % 2 ^ 23 ≠ 0 →
    runWord w s = .next { s with phase := .fault, err := .illegalCommand }) ∧
  (nextState (runCommands [.upkInit, .upkByte 0xA5, .upkRead 3] State.reset)).map (fun t => (t.resultv, t.ibuf)) =
    some (5, [false, false, true, false, true])

/-- UPK_END (41_bitpacker.md R127): unread bits are discarded without a fault and the call is DONE. -/
def Obligations.UpkEndDiscardsUnreadBits : Prop :=
  encode .upkEnd = 0xD0000000 ∧
  (∀ s : State, s.call = .upk → s.phase = .active → exec .upkEnd s = .next { s with ibuf := [], phase := .done }) ∧
  (∀ s : State, s.phase ≠ .fault → s.call ≠ .upk ∨ s.phase ≠ .active →
    exec .upkEnd s = .next { s with phase := .fault, err := .sequence }) ∧
  (nextState (runCommands [.upkInit, .upkByte 0xFF, .upkRead 3, .upkEnd] State.reset)).map
    (fun t => (t.phase, t.resultv)) = some (.done, 7)

/-- The unpacker inverts the packer (41_bitpacker.md R116): the bytes of a packed bit sequence, pushed in order into an
empty IBUF, give the values back in order, and fewer than 8 zero bits are left. -/
def Obligations.UnpackerInvertsPacker : Prop :=
  ∀ (pairs : List (Nat × Nat)) (bytes : List Byte) (s : State),
    (∀ p ∈ pairs, p.1 < 2 ^ p.2) → s.ibuf = [] → IsCutOf bytes (packBits pairs) →
    ∃ (t : State) (k : Nat), k < 8 ∧ t.ibuf = zeroBits k ∧
      pairs.foldlM (fun (u : List Nat × State) p => (readBits p.2 u.2).map fun r => (u.1 ++ [r.1], r.2))
        ([], bytes.foldl (fun u b => u.push b) s) = .ok (pairs.map Prod.fst, t)

/-! ## Dictionary and width calculator -/

/-- Dict_init (42_dictionary.md R142): both maps hold exactly the 256 single bytes at the codes 1..256 in byte-value
order, MAX_CODE is 256; only ENC_INIT and DEC_INIT seed: every other command leaves the dictionary as it is or adds one
entry. -/
def Obligations.DictInitSeedsSingleBytes : Prop :=
  (∀ s : State, s.dictInit.maxCode = 256 ∧
    (∀ b : Byte, mapGet s.dictInit.fwd (Symbol.single b) = some (b.toNat + 1) ∧
      mapGet s.dictInit.rev (b.toNat + 1) = some (Symbol.single b)) ∧
    (∀ sym c, mapGet s.dictInit.fwd sym = some c → ∃ b : Byte, sym = Symbol.single b ∧ c = b.toNat + 1) ∧
    (∀ c sym, mapGet s.dictInit.rev c = some sym → ∃ b : Byte, sym = Symbol.single b ∧ c = b.toNat + 1)) ∧
  (∀ (i : Instr) (s t : State), exec i s = .next t → i ≠ .encInit → i ≠ .decInit →
    (t.fwd = s.fwd ∧ t.rev = s.rev ∧ t.maxCode = s.maxCode) ∨
      ∃ sym, t.fwd = mapSet s.fwd sym (s.maxCode + 1) ∧ t.rev = mapSet s.rev (s.maxCode + 1) sym ∧
        t.maxCode = s.maxCode + 1)

/-- The width calculator as a table (42_dictionary.md R148): nbits() = n exactly when 2^(n-1) <= MAX_CODE <= 2^n - 1,
and nbits_next() differs from it, by one, exactly when MAX_CODE + 1 is a power of two. -/
def Obligations.WidthCalculatorTable : Prop :=
  (∀ (s : State) (n : Nat), 1 ≤ n → (nbits s = n ↔ 2 ^ (n - 1) ≤ s.maxCode ∧ s.maxCode ≤ 2 ^ n - 1)) ∧
  (∀ s : State, (nbitsNext s ≠ nbits s ↔ ∃ k, s.maxCode + 1 = 2 ^ k) ∧
    (nbitsNext s ≠ nbits s → nbitsNext s = nbits s + 1)) ∧
  (∀ s : State, 256 ≤ s.maxCode → s.maxCode ≤ 510 → nbits s = 9 ∧ nbitsNext s = 9) ∧
  (∀ s : State, s.maxCode = 511 → nbits s = 9 ∧ nbitsNext s = 10) ∧
  (∀ s : State, 512 ≤ s.maxCode → s.maxCode ≤ 1022 → nbits s = 10 ∧ nbitsNext s = 10) ∧
  (∀ s : State, s.maxCode = 1023 → nbits s = 10 ∧ nbitsNext s = 11)

/-- insert (42_dictionary.md R146): the duplicate check before the capacity check, then the new code MAX_CODE + 1 in
both maps, every other entry as before. -/
def Obligations.InsertAssignsNextCode : Prop :=
  ∀ (sym : Symbol) (s : State),
    (∀ c, mapGet s.fwd sym = some c → insertSymbol sym s = .error (.raise .corruptDuplicate)) ∧
    (mapGet s.fwd sym = none → 2 ^ s.params.wMax - 1 ≤ s.maxCode → insertSymbol sym s = .error (.raise .capacity)) ∧
    (mapGet s.fwd sym = none → s.maxCode < 2 ^ s.params.wMax - 1 →
      ∃ t, insertSymbol sym s = .ok t ∧ t = { s with fwd := t.fwd, rev := t.rev, maxCode := s.maxCode + 1 } ∧
        mapGet t.fwd sym = some (s.maxCode + 1) ∧ mapGet t.rev (s.maxCode + 1) = some sym ∧
        (∀ sym', sym' ≠ sym → mapGet t.fwd sym' = mapGet s.fwd sym') ∧
        (∀ c, c ≠ s.maxCode + 1 → mapGet t.rev c = mapGet s.rev c))

/-- The two lookups on a canonical dictionary (42_dictionary.md R145, R147): their tagged outcomes, with 1..MAX_CODE the
codes that are found. -/
def Obligations.LookupsAnswerTaggedOutcomes : Prop :=
  ∀ s : State, DictCanonical s →
    (∀ sym c, lookupCode s sym = .found c ↔ mapGet s.fwd sym = some c) ∧
    (∀ sym, lookupCode s sym = .absent ↔ ¬ s.knows sym) ∧
    (∀ c, (∃ sym, lookupSymbol s c = .found sym ∧ mapGet s.rev c = some sym) ↔ 1 ≤ c ∧ c ≤ s.maxCode) ∧
    (∀ c, lookupSymbol s c = .pendingInsert ↔ c = s.maxCode + 1) ∧
    (∀ c, lookupSymbol s c = .absent ↔ c = 0 ∨ s.maxCode + 1 < c)

/-- Codes are never reassigned or removed within a call, MAX_CODE rises by exactly 1 per insertion, and nbits() never
decreases (42_dictionary.md R141, R151). -/
def Obligations.DictionaryOnlyGrowsInCall : Prop :=
  ∀ (i : Instr) (s t : State), DictCanonical s → pipelineOf i ≠ none → exec i s = .next t →
    (∀ sym c, mapGet s.fwd sym = some c → mapGet t.fwd sym = some c) ∧
    (∀ c sym, mapGet s.rev c = some sym → mapGet t.rev c = some sym) ∧
    ((t.maxCode = s.maxCode ∧ t.fwd = s.fwd ∧ t.rev = s.rev) ∨
      (t.maxCode = s.maxCode + 1 ∧ ∃ sym, mapGet s.fwd sym = none ∧ mapGet t.rev t.maxCode = some sym ∧
        mapGet t.fwd sym = some t.maxCode)) ∧
    nbits s ≤ nbits t

/-- Prefix closure and Symbol length (42_dictionary.md R149): every prefix of a key is a key, the Symbol of code k is at
most max(1, k - 255) bytes long, and every Symbol begins with a seed Symbol. -/
def Obligations.DictionaryIsPrefixClosed : Prop :=
  ∀ s : State, Invariant s →
    (∀ sym n, s.knows sym → s.knows ⟨sym.first, sym.rest.take n⟩) ∧
    (∀ sym k, mapGet s.rev k = some sym → sym.length ≤ max 1 (k - 255) ∧ sym.length ≤ max 1 (codeLimit s.params - 255)) ∧
    (∀ sym, s.knows sym → mapGet s.fwd (Symbol.single sym.first) = some (sym.first.toNat + 1))

/-! ## Encoder -/

/-- ENC_INIT (43_encoder.md R170). -/
def Obligations.EncInitStartsEncodeCall : Prop :=
  encode .encInit = 0x10000000 ∧
  (∀ s : State, s.phase ≠ .active →
    ∃ t, exec .encInit s = .next t ∧
      t = { s with phase := .active, call := .enc, err := .none, acc := [], ibuf := [], outq := [],
                   fwd := seedFwd, rev := seedRev, maxCode := 256, word := none } ∧
      ((statusWord t).extractLsb' 16 5).toNat = 9) ∧
  (∀ s : State, s.phase = .active → exec .encInit s = .next { s with phase := .fault, err := .sequence }) ∧
  (nextState (exec .encInit State.reset)).map (fun t => (statusWord t, maxcodeWord t)) = some (0x00090005, 256)

/-- ENC_BYTE b (43_encoder.md R172): the first byte starts WORD; a byte that extends a match extends WORD; else the code
of WORD is written in the width from before the insertion, WORD ++ [b] takes the next code, and WORD restarts at [b].
The code of WORD is at most MAX_CODE, which the invariant gives. -/
def Obligations.EncByteExtendsOrEmits : Prop :=
  (∀ b : Byte, encode (.encByte b) = 0x20000000 ||| b.setWidth 32) ∧
  (∀ (b : Byte) (s : State), s.call = .enc → s.phase = .active →
    (s.word = none → exec (.encByte b) s = .next { s with word := some ⟨b, []⟩ }) ∧
    (∀ w c, s.word = some w → mapGet s.fwd (w.snoc b) = some c →
      exec (.encByte b) s = .next { s with word := some (w.snoc b) }) ∧
    (∀ w k, s.word = some w → mapGet s.fwd (w.snoc b) = none → mapGet s.fwd w = some k → k ≤ s.maxCode →
      s.maxCode < codeLimit s.params →
      ∃ acc' bytes, exec (.encByte b) s = .next
          { s with acc := acc', outq := s.outq ++ bytes, fwd := mapSet s.fwd (w.snoc b) (s.maxCode + 1),
                   rev := mapSet s.rev (s.maxCode + 1) (w.snoc b), maxCode := s.maxCode + 1, word := some ⟨b, []⟩ } ∧
        bytes.flatMap byteBits ++ acc' = s.acc ++ bitsOf (bitLength s.maxCode) k ∧ acc'.length < 8) ∧
    (∀ w k, s.word = some w → mapGet s.fwd (w.snoc b) = none → mapGet s.fwd w = some k → k ≤ s.maxCode →
      codeLimit s.params ≤ s.maxCode → exec (.encByte b) s = .next { s with phase := .fault, err := .capacity })) ∧
  (∀ (b : Byte) (s : State), s.phase ≠ .fault → s.call ≠ .enc ∨ s.phase ≠ .active →
    exec (.encByte b) s = .next { s with phase := .fault, err := .sequence }) ∧
  (nextState (runCommands [.encInit, .encByte 0x61, .encByte 0x61] State.reset)).map
    (fun t => (t.word, t.outq, t.acc, mapGet t.fwd ⟨0x61, [0x61]⟩)) =
      some (some ⟨0x61, []⟩, [0x31], [false], some 257)

/-- ENC_END (43_encoder.md R174): the code of a WORD that is not empty, then the stop code 0, both in the current width,
then the padding of the last byte; the call is DONE. -/
def Obligations.EncEndWritesStopCode : Prop :=
  encode .encEnd = 0x30000000 ∧
  (∀ s : State, s.call = .enc → s.phase = .active → s.word = none →
    ∃ bytes bits, exec .encEnd s = .next { s with phase := .done, word := none, acc := [], outq := s.outq ++ bytes } ∧
      bits = s.acc ++ bitsOf (bitLength s.maxCode) 0 ∧ IsCutOf bytes bits ∧ (s.maxCode ≠ 0 → bytes ≠ [])) ∧
  (∀ (s : State) (w : Symbol) (k : Nat), s.call = .enc → s.phase = .active → s.word = some w →
    mapGet s.fwd w = some k → k ≤ s.maxCode →
    ∃ bytes bits, exec .encEnd s = .next { s with phase := .done, word := none, acc := [], outq := s.outq ++ bytes } ∧
      bits = s.acc ++ bitsOf (bitLength s.maxCode) k ++ bitsOf (bitLength s.maxCode) 0 ∧ IsCutOf bytes bits ∧
      (s.maxCode ≠ 0 → bytes ≠ [])) ∧
  (∀ s : State, s.phase ≠ .fault → s.call ≠ .enc ∨ s.phase ≠ .active →
    exec .encEnd s = .next { s with phase := .fault, err := .sequence }) ∧
  (nextState (runCommands [.encInit, .encEnd] State.reset)).map (fun t => (t.outq, statusWord t, maxcodeWord t)) =
    some ([0x00, 0x00], 0x00091006, 256)

/-- "CAPACITY is the only fault an admitted encoder data command can raise" (43_encoder.md R173), and ENC_END raises
none. -/
def Obligations.EncoderRaisesOnlyCapacity : Prop :=
  ∀ (i : Instr) (s : State), Invariant s → s.call = .enc → s.phase = .active → pipelineOf i = some .enc →
    ∃ t, exec i s = .next t ∧ (t.phase = .fault → t.err = .capacity ∧ i ≠ .encEnd)

/-- Every input of length at most CODE_LIMIT - 255 encodes without a fault (43_encoder.md section on capacity), from
every state with no call running. -/
def Obligations.InputsWithinCapacityEncode : Prop :=
  ∀ (s : State) (input : List Byte), s.params.wellFormed = true → s.phase ≠ .active →
    input.length ≤ codeLimit s.params - 255 →
    ∃ t, runCommands (encodeCommands input) s = .next t ∧ t.phase = .done ∧ t.call = .enc ∧ t.err = .none ∧
      t.maxCode ≤ 256 + (input.length - 1)

/-! ## Decoder -/

/-- DEC_INIT (44_decoder.md R190). -/
def Obligations.DecInitStartsDecodeCall : Prop :=
  encode .decInit = 0x40000000 ∧
  (∀ s : State, s.phase ≠ .active →
    ∃ t, exec .decInit s = .next t ∧
      t = { s with phase := .active, call := .dec, err := .none, acc := [], ibuf := [], outq := [],
                   fwd := seedFwd, rev := seedRev, maxCode := 256, dnbits := 9, prev := none } ∧
      ((statusWord t).extractLsb' 16 5).toNat = 9) ∧
  (∀ s : State, s.phase = .active → exec .decInit s = .next { s with phase := .fault, err := .sequence }) ∧
  (nextState (exec .decInit State.reset)).map (fun t => (statusWord t, maxcodeWord t)) = some (0x00090009, 256)

/-- DEC_BYTE b with no whole codeword in IBUF, and where it is not admitted (44_decoder.md R194); once the call is DONE,
every further DEC_BYTE and DEC_END changes nothing (R196). -/
def Obligations.DecByteBuffersBits : Prop :=
  (∀ b : Byte, encode (.decByte b) = 0x50000000 ||| b.setWidth 32) ∧
  (∀ (b : Byte) (s : State), s.call = .dec → s.phase = .active → s.ibuf.length + 8 < s.dnbits →
    exec (.decByte b) s = .next { s with ibuf := s.ibuf ++ byteBits b }) ∧
  (∀ (is : List Instr) (s : State), s.call = .dec → s.phase = .done → (∀ i ∈ is, pipelineOf i = some .dec) →
    runCommands is s = .next s) ∧
  (∀ (b : Byte) (s : State), s.phase ≠ .fault → s.call ≠ .dec ∨ (s.phase ≠ .active ∧ s.phase ≠ .done) →
    exec (.decByte b) s = .next { s with phase := .fault, err := .sequence }) ∧
  (nextState (runCommands [.decInit, .decByte 0x31, .decByte 0x40] State.reset)).map
    (fun t => (t.outq, t.prev, t.maxCode, t.ibuf.length)) = some ([0x61], some ⟨0x61, []⟩, 256, 7)

/-- The decode step of a DEC_BYTE that completes a codeword (44_decoder.md R192): the stop code, the Symbol of the code
or the synthesised one, its output, the insertion with its faults, and the width of the next read. -/
def Obligations.DecByteRunsDecodeStep : Prop :=
  ∀ (b : Byte) (s : State) (code left : List Bool), s.call = .dec → s.phase = .active →
    code ++ left = s.ibuf ++ byteBits b → code.length = s.dnbits →
    (bitsVal code = 0 → exec (.decByte b) s = .next { s with ibuf := left, phase := .done }) ∧
    (bitsVal code ≠ 0 → (∀ sym, ¬ DecodesTo s (bitsVal code) sym) →
      exec (.decByte b) s = .next { s with phase := .fault, err := .corruptBadCode }) ∧
    (∀ sym, bitsVal code ≠ 0 → DecodesTo s (bitsVal code) sym → s.prev = none →
      exec (.decByte b) s =
        .next { s with ibuf := left, outq := s.outq ++ (sym.first :: sym.rest), prev := some sym }) ∧
    (∀ sym p, bitsVal code ≠ 0 → DecodesTo s (bitsVal code) sym → s.prev = some p →
      (∀ c, mapGet s.fwd (p.snoc sym.first) = some c →
        exec (.decByte b) s = .next { s with phase := .fault, err := .corruptDuplicate }) ∧
      (mapGet s.fwd (p.snoc sym.first) = none → codeLimit s.params ≤ s.maxCode →
        exec (.decByte b) s = .next { s with phase := .fault, err := .capacity }) ∧
      (mapGet s.fwd (p.snoc sym.first) = none → s.maxCode < codeLimit s.params →
        exec (.decByte b) s = .next
          { s with ibuf := left, outq := s.outq ++ (sym.first :: sym.rest), prev := some sym,
                   fwd := mapSet s.fwd (p.snoc sym.first) (s.maxCode + 1),
                   rev := mapSet s.rev (s.maxCode + 1) (p.snoc sym.first), maxCode := s.maxCode + 1,
                   dnbits := bitLength (s.maxCode + 2) }))

/-- DEC_END (44_decoder.md R195): it accepts exactly the short stop code, else the stream is truncated; in DONE it is
ignored; the accepting branch needs MAX_CODE + 1 a power of two and at least one insertion. -/
def Obligations.DecEndAcceptsOnlyShortStop : Prop :=
  encode .decEnd = 0x60000000 ∧
  (∀ s : State, s.call = .dec → s.phase = .active → s.params.shortStopOk = true → s.prev ≠ none →
    s.ibuf.length = bitLength s.maxCode → s.ibuf.length < s.dnbits → (∀ x ∈ s.ibuf, x = false) →
    exec .decEnd s = .next { s with ibuf := [], phase := .done }) ∧
  (∀ s : State, s.call = .dec → s.phase = .active →
    ¬ (s.params.shortStopOk = true ∧ s.prev ≠ none ∧ s.ibuf.length = bitLength s.maxCode ∧
      s.ibuf.length < s.dnbits ∧ ∀ x ∈ s.ibuf, x = false) →
    exec .decEnd s = .next { s with phase := .fault, err := .corruptTruncated }) ∧
  (∀ s : State, s.call = .dec → s.phase = .done → exec .decEnd s = .next s) ∧
  (∀ s : State, s.phase ≠ .fault → s.call ≠ .dec ∨ (s.phase ≠ .active ∧ s.phase ≠ .done) →
    exec .decEnd s = .next { s with phase := .fault, err := .sequence }) ∧
  (∀ s t : State, Invariant s → s.call = .dec → s.phase = .active → exec .decEnd s = .next t → t.phase = .done →
    256 < s.maxCode ∧ s.maxCode + 1 = 2 ^ s.ibuf.length) ∧
  (nextState (runCommands [.decInit, .decByte 0x00, .decEnd] State.reset)).map statusWord = some 0x0009040B

/-- After a decode step that does not stop or fault, PREV is the Symbol bound to the code just read and a key of FWD
(44_decoder.md R198); for the code the decoder had not yet mirrored it is PREV ++ [PREV[0]], now bound to that code
(R193). -/
def Obligations.DecodeStepBindsReadCode : Prop :=
  ∀ (b : Byte) (s t : State) (code left : List Bool), Invariant s → s.call = .dec → s.phase = .active →
    code ++ left = s.ibuf ++ byteBits b → code.length = s.dnbits → exec (.decByte b) s = .next t → t.phase = .active →
    (∃ sym, t.prev = some sym ∧ mapGet t.rev (bitsVal code) = some sym ∧ t.knows sym) ∧
    (bitsVal code = s.maxCode + 1 → ∀ p, s.prev = some p →
      t.prev = some (p.snoc p.first) ∧ mapGet t.rev (bitsVal code) = some (p.snoc p.first) ∧
      t.maxCode = bitsVal code)

/-- At most one decode step per byte, and a bounded IBUF (44_decoder.md R199): the pushed byte fits, and after the
command no second whole codeword is buffered. -/
def Obligations.AtMostOneStepPerByte : Prop :=
  ∀ (b : Byte) (s t : State), Invariant s → s.call = .dec → s.phase = .active → exec (.decByte b) s = .next t →
    s.ibuf.length + 8 < s.dnbits + 8 ∧ s.ibuf.length + 8 ≤ s.params.ibufBits ∧
    (t.phase = .active → t.ibuf.length < t.dnbits) ∧
    (s.dnbits ≤ s.ibuf.length + 8 → t.phase ≠ .fault → t.ibuf.length < 8)

/-- Round trip (44_decoder.md R202): with SHORT_STOP_OK, what a decode call makes of the bytes an encode call left in
OUTQ is the encoder's input, and the decode call ends DONE; for every input within the capacity and every state with no
call running. -/
def Obligations.DecodeOfEncodeGivesInput : Prop :=
  ∀ (s : State) (input : List Byte), s.params.wellFormed = true → s.params.shortStopOk = true → s.phase ≠ .active →
    input.length ≤ codeLimit s.params - 255 →
    ∃ t u, runCommands (encodeCommands input) s = .next t ∧ runCommands (decodeCommands t.outq) t = .next u ∧
      u.phase = .done ∧ u.err = .none ∧ u.outq = input

/-! ## Frames -/

/-- The frame of the raw packer's commands (10_state.md R41): PK_INIT writes PHASE, CALL, ERR, ACC, IBUF and OUTQ,
PK_APPEND ACC and OUTQ, PK_END those and PHASE; a fault writes PHASE and ERR only; the host's queues and the parameters
are never written. -/
def Obligations.PackerFrame : Prop :=
  ∀ (i : Instr) (s t : State), (i = .pkInit ∨ (∃ a v, i = .pkAppend a v) ∨ i = .pkEnd) → exec i s = .next t →
    t.fwd = s.fwd ∧ t.rev = s.rev ∧ t.maxCode = s.maxCode ∧ t.word = s.word ∧ t.prev = s.prev ∧ t.dnbits = s.dnbits ∧
    t.resultv = s.resultv ∧ t.params = s.params ∧ t.pending = s.pending ∧ t.replies = s.replies ∧
    (t.phase = .fault → t.call = s.call ∧ t.acc = s.acc ∧ t.ibuf = s.ibuf ∧ t.outq = s.outq) ∧
    (i ≠ .pkInit → t.call = s.call ∧ t.ibuf = s.ibuf ∧ (∃ q, t.outq = s.outq ++ q) ∧
      (t.phase ≠ .fault → t.err = s.err)) ∧
    (i ≠ .pkInit → i ≠ .pkEnd → t.phase ≠ .fault → t.phase = s.phase)

/-- The frame of the raw unpacker's commands (10_state.md R41): UPK_INIT writes PHASE, CALL, ERR, ACC, IBUF, OUTQ and
RESULTV, UPK_BYTE IBUF, UPK_READ IBUF and RESULTV, UPK_END IBUF and PHASE; a fault writes PHASE and ERR only. -/
def Obligations.UnpackerFrame : Prop :=
  ∀ (i : Instr) (s t : State), (i = .upkInit ∨ (∃ b, i = .upkByte b) ∨ (∃ a, i = .upkRead a) ∨ i = .upkEnd) →
    exec i s = .next t →
    t.fwd = s.fwd ∧ t.rev = s.rev ∧ t.maxCode = s.maxCode ∧ t.word = s.word ∧ t.prev = s.prev ∧ t.dnbits = s.dnbits ∧
    t.params = s.params ∧ t.pending = s.pending ∧ t.replies = s.replies ∧
    (t.phase = .fault → t.call = s.call ∧ t.acc = s.acc ∧ t.ibuf = s.ibuf ∧ t.outq = s.outq ∧ t.resultv = s.resultv) ∧
    (i ≠ .upkInit → t.call = s.call ∧ t.acc = s.acc ∧ t.outq = s.outq ∧ (t.phase ≠ .fault → t.err = s.err)) ∧
    (i ≠ .upkInit → i ≠ .upkEnd → t.phase ≠ .fault → t.phase = s.phase) ∧
    ((∃ b, i = .upkByte b) ∨ i = .upkEnd → t.resultv = s.resultv)

/-- The frame of the encoder's commands (10_state.md R41): ENC_INIT writes PHASE, CALL, ERR, the dictionary, WORD, ACC,
IBUF and OUTQ, ENC_BYTE the dictionary, WORD, ACC and OUTQ, ENC_END PHASE, WORD, ACC and OUTQ; a fault writes PHASE and
ERR only. -/
def Obligations.EncoderFrame : Prop :=
  ∀ (i : Instr) (s t : State), (i = .encInit ∨ (∃ b, i = .encByte b) ∨ i = .encEnd) → exec i s = .next t →
    t.prev = s.prev ∧ t.dnbits = s.dnbits ∧ t.resultv = s.resultv ∧ t.params = s.params ∧ t.pending = s.pending ∧
    t.replies = s.replies ∧
    (t.phase = .fault → t.call = s.call ∧ t.acc = s.acc ∧ t.ibuf = s.ibuf ∧ t.outq = s.outq ∧ t.fwd = s.fwd ∧
      t.rev = s.rev ∧ t.maxCode = s.maxCode ∧ t.word = s.word) ∧
    (i ≠ .encInit → t.call = s.call ∧ t.ibuf = s.ibuf ∧ (∃ q, t.outq = s.outq ++ q) ∧
      (t.phase ≠ .fault → t.err = s.err)) ∧
    (i = .encEnd → t.fwd = s.fwd ∧ t.rev = s.rev ∧ t.maxCode = s.maxCode) ∧
    (i ≠ .encInit → i ≠ .encEnd → t.phase ≠ .fault → t.phase = s.phase)

/-- The frame of the decoder's commands (10_state.md R41): DEC_INIT writes PHASE, CALL, ERR, the dictionary, PREV,
DNBITS, ACC, IBUF and OUTQ, DEC_BYTE PHASE, the dictionary, PREV, DNBITS, IBUF and OUTQ, DEC_END PHASE and IBUF; a fault
writes PHASE and ERR only. -/
def Obligations.DecoderFrame : Prop :=
  ∀ (i : Instr) (s t : State), (i = .decInit ∨ (∃ b, i = .decByte b) ∨ i = .decEnd) → exec i s = .next t →
    t.word = s.word ∧ t.resultv = s.resultv ∧ t.params = s.params ∧ t.pending = s.pending ∧ t.replies = s.replies ∧
    (t.phase = .fault → t.call = s.call ∧ t.acc = s.acc ∧ t.ibuf = s.ibuf ∧ t.outq = s.outq ∧ t.fwd = s.fwd ∧
      t.rev = s.rev ∧ t.maxCode = s.maxCode ∧ t.prev = s.prev ∧ t.dnbits = s.dnbits) ∧
    (i ≠ .decInit → t.call = s.call ∧ t.acc = s.acc ∧ (∃ q, t.outq = s.outq ++ q) ∧
      (t.phase ≠ .fault → t.err = s.err)) ∧
    (i = .decEnd → t.fwd = s.fwd ∧ t.rev = s.rev ∧ t.maxCode = s.maxCode ∧ t.prev = s.prev ∧ t.dnbits = s.dnbits ∧
      t.outq = s.outq)

/-! ## Invariants and the whole machine -/

/-- The reset state, with any parameters R5 allows and any accesses of the host to come, meets the invariant. -/
def Obligations.ResetMeetsInvariant : Prop :=
  ∀ (p : Params) (accesses : List HostAccess), p.wellFormed = true →
    Invariant { State.reset with params := p, pending := accesses }

/-- Every step keeps the invariant of 10_state.md R40, from every state that meets it. -/
def Obligations.StepKeepsInvariant : Prop :=
  ∀ s t : State, Invariant s → step s = .next t → Invariant t

/-- The eight items of 10_state.md R40 hold in every state that meets the invariant. -/
def Obligations.InvariantGivesSpecItems : Prop :=
  ∀ s : State, Invariant s →
    ((∀ sym c, mapGet s.fwd sym = some c ↔ mapGet s.rev c = some sym) ∧
      (∀ c, (∃ sym, mapGet s.rev c = some sym) ↔ 1 ≤ c ∧ c ≤ s.maxCode)) ∧
    (s.maxCode = 0 ∨ (256 ≤ s.maxCode ∧ s.maxCode ≤ codeLimit s.params)) ∧
    (∀ sym x, s.knows (sym.snoc x) → s.knows sym) ∧
    s.acc.length ≤ 7 ∧
    (s.call = .dec → s.phase = .active → s.ibuf.length < s.dnbits) ∧
    (s.call = .dec → s.phase = .active →
      (s.prev = none → s.dnbits = 9) ∧ (s.prev ≠ none → s.dnbits = bitLength (s.maxCode + 1))) ∧
    (s.call = .enc → s.phase = .active → s.word = none ∨ ∃ w, s.word = some w ∧ s.knows w) ∧
    (s.call = .dec → s.phase = .active → s.prev = none ∨ ∃ p, s.prev = some p ∧ s.knows p)

/-- Every command word completes (40_dispatch.md R104): from a state that meets the invariant it answers a next state,
never a stop of the model, and so does every one of the host's other accesses and reset. -/
def Obligations.EveryCommandCompletes : Prop :=
  (∀ (w : Word) (s : State), Invariant s → ∃ t, runWord w s = .next t) ∧
  (∀ (s : State) (a : HostAccess) (rest : List HostAccess), Invariant s → s.pending = a :: rest →
    (a = .reset ∨ (∃ w, a = .write 0x00#5 4 w) ∨ a = .read 0x04#5 4 ∨ a = .read 0x08#5 4 ∨ a = .read 0x0C#5 4 ∨
      a = .read 0x10#5 4) → ∃ t, step s = .next t ∧ t.pending = rest)

/-- "The result of an ENC or DEC call never depends on what happened before its *_INIT" (70_reset_and_hazards.md R252):
two blocks built alike, with no call running and any two pasts, give the same phase, code, output and dictionary after
the same *_INIT and data commands of that call. -/
def Obligations.CallForgetsThePast : Prop :=
  ∀ (i : Instr) (p : Call) (data : List Instr) (s s' t : State),
    (i, p) ∈ [(Instr.encInit, Call.enc), (.decInit, .dec)] → (∀ d ∈ data, pipelineOf d = some p) →
    s.phase ≠ .active → s'.phase ≠ .active → s.params = s'.params → runCommands (i :: data) s = .next t →
    ∃ t', runCommands (i :: data) s' = .next t' ∧ t'.phase = t.phase ∧ t'.call = t.call ∧ t'.err = t.err ∧
      t'.outq = t.outq ∧ t'.maxCode = t.maxCode ∧ t'.fwd = t.fwd ∧ t'.rev = t.rev
end

