-- ==== Sys2Proof/Laws/Bits.lean ====
section
/-! SUPPORT. Bit sequences and their values (00_scope.md R9), the width function (R10), and the loop of emit
(41_bitpacker.md R111). -/

namespace Sys2Proof.Machine

@[simp] theorem bitsOf_length (w v : Nat) : (bitsOf w v).length = w := by
  induction w with
  | zero => rfl
  | succ w ih => simp [bitsOf, ih]

@[simp] theorem byteBits_length (b : Byte) : (byteBits b).length = 8 := bitsOf_length 8 _

@[simp] theorem zeroBits_length (n : Nat) : (zeroBits n).length = n := by simp [zeroBits]

theorem foldl_shiftIn (s : List Bool) (a : Nat) : s.foldl shiftIn a = a * 2 ^ s.length + bitsVal s := by
  induction s generalizing a with
  | nil => simp [bitsVal]
  | cons b s ih =>
    have h0 := ih (shiftIn 0 b)
    simp only [bitsVal, List.foldl_cons, List.length_cons]
    rw [ih, h0]
    simp only [shiftIn, Nat.pow_succ]
    ring

@[simp] theorem bitsVal_nil : bitsVal [] = 0 := rfl

theorem bitsVal_cons (b : Bool) (s : List Bool) : bitsVal (b :: s) = b.toNat * 2 ^ s.length + bitsVal s := by
  have h := foldl_shiftIn s (shiftIn 0 b)
  simpa [bitsVal, shiftIn] using h

theorem bitsVal_append (s t : List Bool) : bitsVal (s ++ t) = bitsVal s * 2 ^ t.length + bitsVal t := by
  simp only [bitsVal, List.foldl_append]
  exact foldl_shiftIn t _

theorem bitsVal_lt (s : List Bool) : bitsVal s < 2 ^ s.length := by
  induction s with
  | nil => simp
  | cons b s ih =>
    rw [bitsVal_cons, List.length_cons, Nat.pow_succ]
    cases b <;> simp <;> omega

theorem bitsVal_zeroBits (n : Nat) : bitsVal (zeroBits n) = 0 := by
  induction n with
  | zero => rfl
  | succ n ih =>
    have : zeroBits (n + 1) = false :: zeroBits n := rfl
    rw [this, bitsVal_cons, ih]; simp

/-- Only zero bits have the value 0. -/
theorem bitsVal_eq_zero (s : List Bool) (h : bitsVal s = 0) : s = zeroBits s.length := by
  induction s with
  | nil => rfl
  | cons b s ih =>
    rw [bitsVal_cons] at h
    cases b
    · have h' : bitsVal s = 0 := by simpa using h
      have e : zeroBits (s.length + 1) = false :: zeroBits s.length := rfl
      rw [List.length_cons, e, ← ih h']
    · have : 0 < 2 ^ s.length := Nat.two_pow_pos _
      simp at h

theorem bitsOf_mod (w v : Nat) : bitsOf w (v % 2 ^ w) = bitsOf w v := by
  suffices H : ∀ k, w ≤ k → bitsOf w (v % 2 ^ k) = bitsOf w v from H w (Nat.le_refl w)
  induction w with
  | zero => intro k _; rfl
  | succ w ih =>
    intro k hk
    simp only [bitsOf, ih k (by omega), Nat.testBit_mod_two_pow]
    simp [show w < k by omega]

/-- `val(bits_W(v)) = v` for v below 2^W (R9). -/
theorem bitsVal_bitsOf (w v : Nat) (h : v < 2 ^ w) : bitsVal (bitsOf w v) = v := by
  induction w generalizing v with
  | zero => simp_all [bitsOf]
  | succ w ih =>
    rw [bitsOf, bitsVal_cons, bitsOf_length, ← bitsOf_mod, ih _ (Nat.mod_lt _ (Nat.two_pow_pos w))]
    have hd : v / 2 ^ w < 2 := by
      rw [Nat.div_lt_iff_lt_mul (Nat.two_pow_pos w)]; rw [Nat.pow_succ] at h; omega
    have hb : (v.testBit w).toNat = v / 2 ^ w := by
      rw [Nat.testBit_eq_decide_div_mod_eq]
      generalize v / 2 ^ w = q at hd
      rcases (show q = 0 ∨ q = 1 by omega) with e | e <;> simp [e]
    rw [hb, Nat.mul_comm]
    exact Nat.div_add_mod v (2 ^ w)

/-- A bit sequence is the digits of its value. -/
theorem bitsOf_bitsVal (s : List Bool) : bitsOf s.length (bitsVal s) = s := by
  induction s with
  | nil => rfl
  | cons b s ih =>
    have hlt := bitsVal_lt s
    have hp : 0 < 2 ^ s.length := Nat.two_pow_pos _
    have hb : (bitsVal (b :: s)).testBit s.length = b := by
      rw [bitsVal_cons, Nat.testBit_eq_decide_div_mod_eq, Nat.mul_comm, Nat.mul_add_div hp, Nat.div_eq_of_lt hlt]
      cases b <;> simp
    have hr : bitsOf s.length (bitsVal (b :: s)) = s := by
      rw [← bitsOf_mod, bitsVal_cons, Nat.mul_comm, Nat.mul_add_mod, Nat.mod_eq_of_lt hlt, ih]
    rw [List.length_cons, bitsOf, hb, hr]

theorem byteBits_byteOfBits (s : List Bool) (h : s.length = 8) : byteBits (byteOfBits s) = s := by
  have hlt := bitsVal_lt s
  rw [h] at hlt
  unfold byteBits byteOfBits
  rw [BitVec.toNat_ofNat, Nat.mod_eq_of_lt hlt, ← h, bitsOf_bitsVal]

theorem byteOfBits_byteBits (b : Byte) : byteOfBits (byteBits b) = b := by
  unfold byteBits byteOfBits
  rw [bitsVal_bitsOf 8 b.toNat b.isLt, BitVec.ofNat_toNat, BitVec.setWidth_eq]

theorem byteBits_inj {b c : Byte} (h : byteBits b = byteBits c) : b = c := by
  rw [← byteOfBits_byteBits b, h, byteOfBits_byteBits]

/-- `bit_length(x)` is the least n with x below 2^n (R10). -/
theorem bitLength_le_iff (x n : Nat) : bitLength x ≤ n ↔ x < 2 ^ n := by
  unfold bitLength
  by_cases h : x = 0
  · simp [h]
  · rw [if_neg h, ← Nat.log2_lt h]; exact Iff.rfl

theorem lt_two_pow_bitLength (x : Nat) : x < 2 ^ bitLength x := (bitLength_le_iff x _).mp (Nat.le_refl _)

theorem lt_bitLength_iff (x n : Nat) : n < bitLength x ↔ 2 ^ n ≤ x := by
  have := bitLength_le_iff x n
  omega

theorem bitLength_mono {x y : Nat} (h : x ≤ y) : bitLength x ≤ bitLength y :=
  (bitLength_le_iff x _).mpr (Nat.lt_of_le_of_lt h (lt_two_pow_bitLength y))

/-- What the loop of emit does (R111): the bits of the bytes it moves, then what it leaves, are the bits it was given,
and it leaves fewer than 8. -/
theorem moveBytes_spec (n : Nat) (acc : List Bool) (outq : List Byte) (h : acc.length ≤ n) :
    ∃ bs, (moveBytes n acc outq).2 = outq ++ bs ∧ bs.flatMap byteBits ++ (moveBytes n acc outq).1 = acc ∧
      (moveBytes n acc outq).1.length < 8 := by
  induction n generalizing acc outq with
  | zero =>
    have : acc = [] := List.length_eq_zero_iff.mp (by omega)
    exact ⟨[], by simp [moveBytes], by simp [moveBytes], by simp [moveBytes, this]⟩
  | succ n ih =>
    by_cases h8 : 8 ≤ acc.length
    · obtain ⟨bs, h1, h2, h3⟩ := ih (acc.drop 8) (outq ++ [byteOfBits (acc.take 8)]) (by simp; omega)
      rw [moveBytes, if_pos h8]
      refine ⟨byteOfBits (acc.take 8) :: bs, by simp [h1], ?_, h3⟩
      rw [List.flatMap_cons, byteBits_byteOfBits _ (by simp; omega), List.append_assoc, h2, List.take_append_drop]
    · rw [moveBytes, if_neg h8]
      exact ⟨[], by simp, by simp, by simpa using h8⟩

end Sys2Proof.Machine
end

