-- ==== Sys2Proof/Laws/State.lean ====
section
/-! SUPPORT. One lemma per field per named update of the state, so that no later proof unfolds a record update. -/

namespace Sys2Proof.Machine

variable (s : State)

/-! ### `setPhase` -/

@[simp] theorem State.setPhase_phase (p : Phase) : (s.setPhase p).phase = p := rfl
@[simp] theorem State.setPhase_call (p : Phase) : (s.setPhase p).call = s.call := rfl
@[simp] theorem State.setPhase_err (p : Phase) : (s.setPhase p).err = s.err := rfl
@[simp] theorem State.setPhase_fwd (p : Phase) : (s.setPhase p).fwd = s.fwd := rfl
@[simp] theorem State.setPhase_rev (p : Phase) : (s.setPhase p).rev = s.rev := rfl
@[simp] theorem State.setPhase_maxCode (p : Phase) : (s.setPhase p).maxCode = s.maxCode := rfl
@[simp] theorem State.setPhase_word (p : Phase) : (s.setPhase p).word = s.word := rfl
@[simp] theorem State.setPhase_prev (p : Phase) : (s.setPhase p).prev = s.prev := rfl
@[simp] theorem State.setPhase_dnbits (p : Phase) : (s.setPhase p).dnbits = s.dnbits := rfl
@[simp] theorem State.setPhase_acc (p : Phase) : (s.setPhase p).acc = s.acc := rfl
@[simp] theorem State.setPhase_ibuf (p : Phase) : (s.setPhase p).ibuf = s.ibuf := rfl
@[simp] theorem State.setPhase_outq (p : Phase) : (s.setPhase p).outq = s.outq := rfl
@[simp] theorem State.setPhase_resultv (p : Phase) : (s.setPhase p).resultv = s.resultv := rfl
@[simp] theorem State.setPhase_params (p : Phase) : (s.setPhase p).params = s.params := rfl
@[simp] theorem State.setPhase_pending (p : Phase) : (s.setPhase p).pending = s.pending := rfl
@[simp] theorem State.setPhase_replies (p : Phase) : (s.setPhase p).replies = s.replies := rfl

/-! ### `setWord` -/

@[simp] theorem State.setWord_phase (w : Option Symbol) : (s.setWord w).phase = s.phase := rfl
@[simp] theorem State.setWord_call (w : Option Symbol) : (s.setWord w).call = s.call := rfl
@[simp] theorem State.setWord_err (w : Option Symbol) : (s.setWord w).err = s.err := rfl
@[simp] theorem State.setWord_fwd (w : Option Symbol) : (s.setWord w).fwd = s.fwd := rfl
@[simp] theorem State.setWord_rev (w : Option Symbol) : (s.setWord w).rev = s.rev := rfl
@[simp] theorem State.setWord_maxCode (w : Option Symbol) : (s.setWord w).maxCode = s.maxCode := rfl
@[simp] theorem State.setWord_word (w : Option Symbol) : (s.setWord w).word = w := rfl
@[simp] theorem State.setWord_prev (w : Option Symbol) : (s.setWord w).prev = s.prev := rfl
@[simp] theorem State.setWord_dnbits (w : Option Symbol) : (s.setWord w).dnbits = s.dnbits := rfl
@[simp] theorem State.setWord_acc (w : Option Symbol) : (s.setWord w).acc = s.acc := rfl
@[simp] theorem State.setWord_ibuf (w : Option Symbol) : (s.setWord w).ibuf = s.ibuf := rfl
@[simp] theorem State.setWord_outq (w : Option Symbol) : (s.setWord w).outq = s.outq := rfl
@[simp] theorem State.setWord_resultv (w : Option Symbol) : (s.setWord w).resultv = s.resultv := rfl
@[simp] theorem State.setWord_params (w : Option Symbol) : (s.setWord w).params = s.params := rfl
@[simp] theorem State.setWord_pending (w : Option Symbol) : (s.setWord w).pending = s.pending := rfl
@[simp] theorem State.setWord_replies (w : Option Symbol) : (s.setWord w).replies = s.replies := rfl

/-! ### `setPrev` -/

@[simp] theorem State.setPrev_phase (p : Option Symbol) : (s.setPrev p).phase = s.phase := rfl
@[simp] theorem State.setPrev_call (p : Option Symbol) : (s.setPrev p).call = s.call := rfl
@[simp] theorem State.setPrev_err (p : Option Symbol) : (s.setPrev p).err = s.err := rfl
@[simp] theorem State.setPrev_fwd (p : Option Symbol) : (s.setPrev p).fwd = s.fwd := rfl
@[simp] theorem State.setPrev_rev (p : Option Symbol) : (s.setPrev p).rev = s.rev := rfl
@[simp] theorem State.setPrev_maxCode (p : Option Symbol) : (s.setPrev p).maxCode = s.maxCode := rfl
@[simp] theorem State.setPrev_word (p : Option Symbol) : (s.setPrev p).word = s.word := rfl
@[simp] theorem State.setPrev_prev (p : Option Symbol) : (s.setPrev p).prev = p := rfl
@[simp] theorem State.setPrev_dnbits (p : Option Symbol) : (s.setPrev p).dnbits = s.dnbits := rfl
@[simp] theorem State.setPrev_acc (p : Option Symbol) : (s.setPrev p).acc = s.acc := rfl
@[simp] theorem State.setPrev_ibuf (p : Option Symbol) : (s.setPrev p).ibuf = s.ibuf := rfl
@[simp] theorem State.setPrev_outq (p : Option Symbol) : (s.setPrev p).outq = s.outq := rfl
@[simp] theorem State.setPrev_resultv (p : Option Symbol) : (s.setPrev p).resultv = s.resultv := rfl
@[simp] theorem State.setPrev_params (p : Option Symbol) : (s.setPrev p).params = s.params := rfl
@[simp] theorem State.setPrev_pending (p : Option Symbol) : (s.setPrev p).pending = s.pending := rfl
@[simp] theorem State.setPrev_replies (p : Option Symbol) : (s.setPrev p).replies = s.replies := rfl

/-! ### `setDnbits` -/

@[simp] theorem State.setDnbits_phase (n : Nat) : (s.setDnbits n).phase = s.phase := rfl
@[simp] theorem State.setDnbits_call (n : Nat) : (s.setDnbits n).call = s.call := rfl
@[simp] theorem State.setDnbits_err (n : Nat) : (s.setDnbits n).err = s.err := rfl
@[simp] theorem State.setDnbits_fwd (n : Nat) : (s.setDnbits n).fwd = s.fwd := rfl
@[simp] theorem State.setDnbits_rev (n : Nat) : (s.setDnbits n).rev = s.rev := rfl
@[simp] theorem State.setDnbits_maxCode (n : Nat) : (s.setDnbits n).maxCode = s.maxCode := rfl
@[simp] theorem State.setDnbits_word (n : Nat) : (s.setDnbits n).word = s.word := rfl
@[simp] theorem State.setDnbits_prev (n : Nat) : (s.setDnbits n).prev = s.prev := rfl
@[simp] theorem State.setDnbits_dnbits (n : Nat) : (s.setDnbits n).dnbits = n := rfl
@[simp] theorem State.setDnbits_acc (n : Nat) : (s.setDnbits n).acc = s.acc := rfl
@[simp] theorem State.setDnbits_ibuf (n : Nat) : (s.setDnbits n).ibuf = s.ibuf := rfl
@[simp] theorem State.setDnbits_outq (n : Nat) : (s.setDnbits n).outq = s.outq := rfl
@[simp] theorem State.setDnbits_resultv (n : Nat) : (s.setDnbits n).resultv = s.resultv := rfl
@[simp] theorem State.setDnbits_params (n : Nat) : (s.setDnbits n).params = s.params := rfl
@[simp] theorem State.setDnbits_pending (n : Nat) : (s.setDnbits n).pending = s.pending := rfl
@[simp] theorem State.setDnbits_replies (n : Nat) : (s.setDnbits n).replies = s.replies := rfl

/-! ### `setIbuf` -/

@[simp] theorem State.setIbuf_phase (b : List Bool) : (s.setIbuf b).phase = s.phase := rfl
@[simp] theorem State.setIbuf_call (b : List Bool) : (s.setIbuf b).call = s.call := rfl
@[simp] theorem State.setIbuf_err (b : List Bool) : (s.setIbuf b).err = s.err := rfl
@[simp] theorem State.setIbuf_fwd (b : List Bool) : (s.setIbuf b).fwd = s.fwd := rfl
@[simp] theorem State.setIbuf_rev (b : List Bool) : (s.setIbuf b).rev = s.rev := rfl
@[simp] theorem State.setIbuf_maxCode (b : List Bool) : (s.setIbuf b).maxCode = s.maxCode := rfl
@[simp] theorem State.setIbuf_word (b : List Bool) : (s.setIbuf b).word = s.word := rfl
@[simp] theorem State.setIbuf_prev (b : List Bool) : (s.setIbuf b).prev = s.prev := rfl
@[simp] theorem State.setIbuf_dnbits (b : List Bool) : (s.setIbuf b).dnbits = s.dnbits := rfl
@[simp] theorem State.setIbuf_acc (b : List Bool) : (s.setIbuf b).acc = s.acc := rfl
@[simp] theorem State.setIbuf_ibuf (b : List Bool) : (s.setIbuf b).ibuf = b := rfl
@[simp] theorem State.setIbuf_outq (b : List Bool) : (s.setIbuf b).outq = s.outq := rfl
@[simp] theorem State.setIbuf_resultv (b : List Bool) : (s.setIbuf b).resultv = s.resultv := rfl
@[simp] theorem State.setIbuf_params (b : List Bool) : (s.setIbuf b).params = s.params := rfl
@[simp] theorem State.setIbuf_pending (b : List Bool) : (s.setIbuf b).pending = s.pending := rfl
@[simp] theorem State.setIbuf_replies (b : List Bool) : (s.setIbuf b).replies = s.replies := rfl

/-! ### `setResult` -/

@[simp] theorem State.setResult_phase (v : BitVec 23) : (s.setResult v).phase = s.phase := rfl
@[simp] theorem State.setResult_call (v : BitVec 23) : (s.setResult v).call = s.call := rfl
@[simp] theorem State.setResult_err (v : BitVec 23) : (s.setResult v).err = s.err := rfl
@[simp] theorem State.setResult_fwd (v : BitVec 23) : (s.setResult v).fwd = s.fwd := rfl
@[simp] theorem State.setResult_rev (v : BitVec 23) : (s.setResult v).rev = s.rev := rfl
@[simp] theorem State.setResult_maxCode (v : BitVec 23) : (s.setResult v).maxCode = s.maxCode := rfl
@[simp] theorem State.setResult_word (v : BitVec 23) : (s.setResult v).word = s.word := rfl
@[simp] theorem State.setResult_prev (v : BitVec 23) : (s.setResult v).prev = s.prev := rfl
@[simp] theorem State.setResult_dnbits (v : BitVec 23) : (s.setResult v).dnbits = s.dnbits := rfl
@[simp] theorem State.setResult_acc (v : BitVec 23) : (s.setResult v).acc = s.acc := rfl
@[simp] theorem State.setResult_ibuf (v : BitVec 23) : (s.setResult v).ibuf = s.ibuf := rfl
@[simp] theorem State.setResult_outq (v : BitVec 23) : (s.setResult v).outq = s.outq := rfl
@[simp] theorem State.setResult_resultv (v : BitVec 23) : (s.setResult v).resultv = v := rfl
@[simp] theorem State.setResult_params (v : BitVec 23) : (s.setResult v).params = s.params := rfl
@[simp] theorem State.setResult_pending (v : BitVec 23) : (s.setResult v).pending = s.pending := rfl
@[simp] theorem State.setResult_replies (v : BitVec 23) : (s.setResult v).replies = s.replies := rfl

/-! ### `reply` -/

@[simp] theorem State.reply_phase (v : Word) : (s.reply v).phase = s.phase := rfl
@[simp] theorem State.reply_call (v : Word) : (s.reply v).call = s.call := rfl
@[simp] theorem State.reply_err (v : Word) : (s.reply v).err = s.err := rfl
@[simp] theorem State.reply_fwd (v : Word) : (s.reply v).fwd = s.fwd := rfl
@[simp] theorem State.reply_rev (v : Word) : (s.reply v).rev = s.rev := rfl
@[simp] theorem State.reply_maxCode (v : Word) : (s.reply v).maxCode = s.maxCode := rfl
@[simp] theorem State.reply_word (v : Word) : (s.reply v).word = s.word := rfl
@[simp] theorem State.reply_prev (v : Word) : (s.reply v).prev = s.prev := rfl
@[simp] theorem State.reply_dnbits (v : Word) : (s.reply v).dnbits = s.dnbits := rfl
@[simp] theorem State.reply_acc (v : Word) : (s.reply v).acc = s.acc := rfl
@[simp] theorem State.reply_ibuf (v : Word) : (s.reply v).ibuf = s.ibuf := rfl
@[simp] theorem State.reply_outq (v : Word) : (s.reply v).outq = s.outq := rfl
@[simp] theorem State.reply_resultv (v : Word) : (s.reply v).resultv = s.resultv := rfl
@[simp] theorem State.reply_params (v : Word) : (s.reply v).params = s.params := rfl
@[simp] theorem State.reply_pending (v : Word) : (s.reply v).pending = s.pending := rfl
@[simp] theorem State.reply_replies (v : Word) : (s.reply v).replies = s.replies ++ [v] := rfl

/-! ### `faultEntry` -/

@[simp] theorem State.faultEntry_phase (e : Err) : (s.faultEntry e).phase = .fault := rfl
@[simp] theorem State.faultEntry_call (e : Err) : (s.faultEntry e).call = s.call := rfl
@[simp] theorem State.faultEntry_err (e : Err) : (s.faultEntry e).err = e := rfl
@[simp] theorem State.faultEntry_fwd (e : Err) : (s.faultEntry e).fwd = s.fwd := rfl
@[simp] theorem State.faultEntry_rev (e : Err) : (s.faultEntry e).rev = s.rev := rfl
@[simp] theorem State.faultEntry_maxCode (e : Err) : (s.faultEntry e).maxCode = s.maxCode := rfl
@[simp] theorem State.faultEntry_word (e : Err) : (s.faultEntry e).word = s.word := rfl
@[simp] theorem State.faultEntry_prev (e : Err) : (s.faultEntry e).prev = s.prev := rfl
@[simp] theorem State.faultEntry_dnbits (e : Err) : (s.faultEntry e).dnbits = s.dnbits := rfl
@[simp] theorem State.faultEntry_acc (e : Err) : (s.faultEntry e).acc = s.acc := rfl
@[simp] theorem State.faultEntry_ibuf (e : Err) : (s.faultEntry e).ibuf = s.ibuf := rfl
@[simp] theorem State.faultEntry_outq (e : Err) : (s.faultEntry e).outq = s.outq := rfl
@[simp] theorem State.faultEntry_resultv (e : Err) : (s.faultEntry e).resultv = s.resultv := rfl
@[simp] theorem State.faultEntry_params (e : Err) : (s.faultEntry e).params = s.params := rfl
@[simp] theorem State.faultEntry_pending (e : Err) : (s.faultEntry e).pending = s.pending := rfl
@[simp] theorem State.faultEntry_replies (e : Err) : (s.faultEntry e).replies = s.replies := rfl

/-! ### `startCall` -/

@[simp] theorem State.startCall_phase (k : Call) : (s.startCall k).phase = .active := rfl
@[simp] theorem State.startCall_call (k : Call) : (s.startCall k).call = k := rfl
@[simp] theorem State.startCall_err (k : Call) : (s.startCall k).err = .none := rfl
@[simp] theorem State.startCall_fwd (k : Call) : (s.startCall k).fwd = s.fwd := rfl
@[simp] theorem State.startCall_rev (k : Call) : (s.startCall k).rev = s.rev := rfl
@[simp] theorem State.startCall_maxCode (k : Call) : (s.startCall k).maxCode = s.maxCode := rfl
@[simp] theorem State.startCall_word (k : Call) : (s.startCall k).word = s.word := rfl
@[simp] theorem State.startCall_prev (k : Call) : (s.startCall k).prev = s.prev := rfl
@[simp] theorem State.startCall_dnbits (k : Call) : (s.startCall k).dnbits = s.dnbits := rfl
@[simp] theorem State.startCall_acc (k : Call) : (s.startCall k).acc = [] := rfl
@[simp] theorem State.startCall_ibuf (k : Call) : (s.startCall k).ibuf = [] := rfl
@[simp] theorem State.startCall_outq (k : Call) : (s.startCall k).outq = [] := rfl
@[simp] theorem State.startCall_resultv (k : Call) : (s.startCall k).resultv = s.resultv := rfl
@[simp] theorem State.startCall_params (k : Call) : (s.startCall k).params = s.params := rfl
@[simp] theorem State.startCall_pending (k : Call) : (s.startCall k).pending = s.pending := rfl
@[simp] theorem State.startCall_replies (k : Call) : (s.startCall k).replies = s.replies := rfl

/-! ### `push` -/

@[simp] theorem State.push_phase (b : Byte) : (s.push b).phase = s.phase := rfl
@[simp] theorem State.push_call (b : Byte) : (s.push b).call = s.call := rfl
@[simp] theorem State.push_err (b : Byte) : (s.push b).err = s.err := rfl
@[simp] theorem State.push_fwd (b : Byte) : (s.push b).fwd = s.fwd := rfl
@[simp] theorem State.push_rev (b : Byte) : (s.push b).rev = s.rev := rfl
@[simp] theorem State.push_maxCode (b : Byte) : (s.push b).maxCode = s.maxCode := rfl
@[simp] theorem State.push_word (b : Byte) : (s.push b).word = s.word := rfl
@[simp] theorem State.push_prev (b : Byte) : (s.push b).prev = s.prev := rfl
@[simp] theorem State.push_dnbits (b : Byte) : (s.push b).dnbits = s.dnbits := rfl
@[simp] theorem State.push_acc (b : Byte) : (s.push b).acc = s.acc := rfl
@[simp] theorem State.push_ibuf (b : Byte) : (s.push b).ibuf = s.ibuf ++ byteBits b := rfl
@[simp] theorem State.push_outq (b : Byte) : (s.push b).outq = s.outq := rfl
@[simp] theorem State.push_resultv (b : Byte) : (s.push b).resultv = s.resultv := rfl
@[simp] theorem State.push_params (b : Byte) : (s.push b).params = s.params := rfl
@[simp] theorem State.push_pending (b : Byte) : (s.push b).pending = s.pending := rfl
@[simp] theorem State.push_replies (b : Byte) : (s.push b).replies = s.replies := rfl

/-! ### `dictInit` -/

@[simp] theorem State.dictInit_phase : (s.dictInit).phase = s.phase := rfl
@[simp] theorem State.dictInit_call : (s.dictInit).call = s.call := rfl
@[simp] theorem State.dictInit_err : (s.dictInit).err = s.err := rfl
@[simp] theorem State.dictInit_fwd : (s.dictInit).fwd = seedFwd := rfl
@[simp] theorem State.dictInit_rev : (s.dictInit).rev = seedRev := rfl
@[simp] theorem State.dictInit_maxCode : (s.dictInit).maxCode = 256 := rfl
@[simp] theorem State.dictInit_word : (s.dictInit).word = s.word := rfl
@[simp] theorem State.dictInit_prev : (s.dictInit).prev = s.prev := rfl
@[simp] theorem State.dictInit_dnbits : (s.dictInit).dnbits = s.dnbits := rfl
@[simp] theorem State.dictInit_acc : (s.dictInit).acc = s.acc := rfl
@[simp] theorem State.dictInit_ibuf : (s.dictInit).ibuf = s.ibuf := rfl
@[simp] theorem State.dictInit_outq : (s.dictInit).outq = s.outq := rfl
@[simp] theorem State.dictInit_resultv : (s.dictInit).resultv = s.resultv := rfl
@[simp] theorem State.dictInit_params : (s.dictInit).params = s.params := rfl
@[simp] theorem State.dictInit_pending : (s.dictInit).pending = s.pending := rfl
@[simp] theorem State.dictInit_replies : (s.dictInit).replies = s.replies := rfl

/-! ### `addEntry` -/

@[simp] theorem State.addEntry_phase (sym : Symbol) : (s.addEntry sym).phase = s.phase := rfl
@[simp] theorem State.addEntry_call (sym : Symbol) : (s.addEntry sym).call = s.call := rfl
@[simp] theorem State.addEntry_err (sym : Symbol) : (s.addEntry sym).err = s.err := rfl
@[simp] theorem State.addEntry_fwd (sym : Symbol) : (s.addEntry sym).fwd = mapSet s.fwd sym (s.maxCode + 1) := rfl
@[simp] theorem State.addEntry_rev (sym : Symbol) : (s.addEntry sym).rev = mapSet s.rev (s.maxCode + 1) sym := rfl
@[simp] theorem State.addEntry_maxCode (sym : Symbol) : (s.addEntry sym).maxCode = s.maxCode + 1 := rfl
@[simp] theorem State.addEntry_word (sym : Symbol) : (s.addEntry sym).word = s.word := rfl
@[simp] theorem State.addEntry_prev (sym : Symbol) : (s.addEntry sym).prev = s.prev := rfl
@[simp] theorem State.addEntry_dnbits (sym : Symbol) : (s.addEntry sym).dnbits = s.dnbits := rfl
@[simp] theorem State.addEntry_acc (sym : Symbol) : (s.addEntry sym).acc = s.acc := rfl
@[simp] theorem State.addEntry_ibuf (sym : Symbol) : (s.addEntry sym).ibuf = s.ibuf := rfl
@[simp] theorem State.addEntry_outq (sym : Symbol) : (s.addEntry sym).outq = s.outq := rfl
@[simp] theorem State.addEntry_resultv (sym : Symbol) : (s.addEntry sym).resultv = s.resultv := rfl
@[simp] theorem State.addEntry_params (sym : Symbol) : (s.addEntry sym).params = s.params := rfl
@[simp] theorem State.addEntry_pending (sym : Symbol) : (s.addEntry sym).pending = s.pending := rfl
@[simp] theorem State.addEntry_replies (sym : Symbol) : (s.addEntry sym).replies = s.replies := rfl

/-! ### `outSymbol` -/

@[simp] theorem State.outSymbol_phase (sym : Symbol) : (s.outSymbol sym).phase = s.phase := rfl
@[simp] theorem State.outSymbol_call (sym : Symbol) : (s.outSymbol sym).call = s.call := rfl
@[simp] theorem State.outSymbol_err (sym : Symbol) : (s.outSymbol sym).err = s.err := rfl
@[simp] theorem State.outSymbol_fwd (sym : Symbol) : (s.outSymbol sym).fwd = s.fwd := rfl
@[simp] theorem State.outSymbol_rev (sym : Symbol) : (s.outSymbol sym).rev = s.rev := rfl
@[simp] theorem State.outSymbol_maxCode (sym : Symbol) : (s.outSymbol sym).maxCode = s.maxCode := rfl
@[simp] theorem State.outSymbol_word (sym : Symbol) : (s.outSymbol sym).word = s.word := rfl
@[simp] theorem State.outSymbol_prev (sym : Symbol) : (s.outSymbol sym).prev = s.prev := rfl
@[simp] theorem State.outSymbol_dnbits (sym : Symbol) : (s.outSymbol sym).dnbits = s.dnbits := rfl
@[simp] theorem State.outSymbol_acc (sym : Symbol) : (s.outSymbol sym).acc = s.acc := rfl
@[simp] theorem State.outSymbol_ibuf (sym : Symbol) : (s.outSymbol sym).ibuf = s.ibuf := rfl
@[simp] theorem State.outSymbol_outq (sym : Symbol) : (s.outSymbol sym).outq = s.outq ++ sym.bytes := rfl
@[simp] theorem State.outSymbol_resultv (sym : Symbol) : (s.outSymbol sym).resultv = s.resultv := rfl
@[simp] theorem State.outSymbol_params (sym : Symbol) : (s.outSymbol sym).params = s.params := rfl
@[simp] theorem State.outSymbol_pending (sym : Symbol) : (s.outSymbol sym).pending = s.pending := rfl
@[simp] theorem State.outSymbol_replies (sym : Symbol) : (s.outSymbol sym).replies = s.replies := rfl

/-! ### `popOut` -/

@[simp] theorem State.popOut_phase : (s.popOut).phase = s.phase := rfl
@[simp] theorem State.popOut_call : (s.popOut).call = s.call := rfl
@[simp] theorem State.popOut_err : (s.popOut).err = s.err := rfl
@[simp] theorem State.popOut_fwd : (s.popOut).fwd = s.fwd := rfl
@[simp] theorem State.popOut_rev : (s.popOut).rev = s.rev := rfl
@[simp] theorem State.popOut_maxCode : (s.popOut).maxCode = s.maxCode := rfl
@[simp] theorem State.popOut_word : (s.popOut).word = s.word := rfl
@[simp] theorem State.popOut_prev : (s.popOut).prev = s.prev := rfl
@[simp] theorem State.popOut_dnbits : (s.popOut).dnbits = s.dnbits := rfl
@[simp] theorem State.popOut_acc : (s.popOut).acc = s.acc := rfl
@[simp] theorem State.popOut_ibuf : (s.popOut).ibuf = s.ibuf := rfl
@[simp] theorem State.popOut_outq : (s.popOut).outq = s.outq.drop 1 := rfl
@[simp] theorem State.popOut_resultv : (s.popOut).resultv = s.resultv := rfl
@[simp] theorem State.popOut_params : (s.popOut).params = s.params := rfl
@[simp] theorem State.popOut_pending : (s.popOut).pending = s.pending := rfl
@[simp] theorem State.popOut_replies : (s.popOut).replies = s.replies := rfl

/-! ### `appendBits` -/

@[simp] theorem State.appendBits_phase (bits : List Bool) : (s.appendBits bits).phase = s.phase := rfl
@[simp] theorem State.appendBits_call (bits : List Bool) : (s.appendBits bits).call = s.call := rfl
@[simp] theorem State.appendBits_err (bits : List Bool) : (s.appendBits bits).err = s.err := rfl
@[simp] theorem State.appendBits_fwd (bits : List Bool) : (s.appendBits bits).fwd = s.fwd := rfl
@[simp] theorem State.appendBits_rev (bits : List Bool) : (s.appendBits bits).rev = s.rev := rfl
@[simp] theorem State.appendBits_maxCode (bits : List Bool) : (s.appendBits bits).maxCode = s.maxCode := rfl
@[simp] theorem State.appendBits_word (bits : List Bool) : (s.appendBits bits).word = s.word := rfl
@[simp] theorem State.appendBits_prev (bits : List Bool) : (s.appendBits bits).prev = s.prev := rfl
@[simp] theorem State.appendBits_dnbits (bits : List Bool) : (s.appendBits bits).dnbits = s.dnbits := rfl
@[simp] theorem State.appendBits_acc (bits : List Bool) : (s.appendBits bits).acc = (moveBytes (s.acc ++ bits).length (s.acc ++ bits) s.outq).1 := rfl
@[simp] theorem State.appendBits_ibuf (bits : List Bool) : (s.appendBits bits).ibuf = s.ibuf := rfl
@[simp] theorem State.appendBits_outq (bits : List Bool) : (s.appendBits bits).outq = (moveBytes (s.acc ++ bits).length (s.acc ++ bits) s.outq).2 := rfl
@[simp] theorem State.appendBits_resultv (bits : List Bool) : (s.appendBits bits).resultv = s.resultv := rfl
@[simp] theorem State.appendBits_params (bits : List Bool) : (s.appendBits bits).params = s.params := rfl
@[simp] theorem State.appendBits_pending (bits : List Bool) : (s.appendBits bits).pending = s.pending := rfl
@[simp] theorem State.appendBits_replies (bits : List Bool) : (s.appendBits bits).replies = s.replies := rfl

/-! ### `resetBlock` -/

@[simp] theorem State.resetBlock_phase : (s.resetBlock).phase = .idle := rfl
@[simp] theorem State.resetBlock_call : (s.resetBlock).call = .none := rfl
@[simp] theorem State.resetBlock_err : (s.resetBlock).err = .none := rfl
@[simp] theorem State.resetBlock_fwd : (s.resetBlock).fwd = [] := rfl
@[simp] theorem State.resetBlock_rev : (s.resetBlock).rev = [] := rfl
@[simp] theorem State.resetBlock_maxCode : (s.resetBlock).maxCode = 0 := rfl
@[simp] theorem State.resetBlock_word : (s.resetBlock).word = none := rfl
@[simp] theorem State.resetBlock_prev : (s.resetBlock).prev = none := rfl
@[simp] theorem State.resetBlock_dnbits : (s.resetBlock).dnbits = 0 := rfl
@[simp] theorem State.resetBlock_acc : (s.resetBlock).acc = [] := rfl
@[simp] theorem State.resetBlock_ibuf : (s.resetBlock).ibuf = [] := rfl
@[simp] theorem State.resetBlock_outq : (s.resetBlock).outq = [] := rfl
@[simp] theorem State.resetBlock_resultv : (s.resetBlock).resultv = 0 := rfl
@[simp] theorem State.resetBlock_params : (s.resetBlock).params = s.params := rfl
@[simp] theorem State.resetBlock_pending : (s.resetBlock).pending = s.pending := rfl
@[simp] theorem State.resetBlock_replies : (s.resetBlock).replies = s.replies := rfl

/-! ### `takeAccess` -/

@[simp] theorem State.takeAccess_phase : (s.takeAccess).phase = s.phase := rfl
@[simp] theorem State.takeAccess_call : (s.takeAccess).call = s.call := rfl
@[simp] theorem State.takeAccess_err : (s.takeAccess).err = s.err := rfl
@[simp] theorem State.takeAccess_fwd : (s.takeAccess).fwd = s.fwd := rfl
@[simp] theorem State.takeAccess_rev : (s.takeAccess).rev = s.rev := rfl
@[simp] theorem State.takeAccess_maxCode : (s.takeAccess).maxCode = s.maxCode := rfl
@[simp] theorem State.takeAccess_word : (s.takeAccess).word = s.word := rfl
@[simp] theorem State.takeAccess_prev : (s.takeAccess).prev = s.prev := rfl
@[simp] theorem State.takeAccess_dnbits : (s.takeAccess).dnbits = s.dnbits := rfl
@[simp] theorem State.takeAccess_acc : (s.takeAccess).acc = s.acc := rfl
@[simp] theorem State.takeAccess_ibuf : (s.takeAccess).ibuf = s.ibuf := rfl
@[simp] theorem State.takeAccess_outq : (s.takeAccess).outq = s.outq := rfl
@[simp] theorem State.takeAccess_resultv : (s.takeAccess).resultv = s.resultv := rfl
@[simp] theorem State.takeAccess_params : (s.takeAccess).params = s.params := rfl
@[simp] theorem State.takeAccess_pending : (s.takeAccess).pending = s.pending.drop 1 := rfl
@[simp] theorem State.takeAccess_replies : (s.takeAccess).replies = s.replies := rfl

/-! ### `withNextCommand` -/

@[simp] theorem State.withNextCommand_phase (w : Word) : (s.withNextCommand w).phase = s.phase := rfl
@[simp] theorem State.withNextCommand_call (w : Word) : (s.withNextCommand w).call = s.call := rfl
@[simp] theorem State.withNextCommand_err (w : Word) : (s.withNextCommand w).err = s.err := rfl
@[simp] theorem State.withNextCommand_fwd (w : Word) : (s.withNextCommand w).fwd = s.fwd := rfl
@[simp] theorem State.withNextCommand_rev (w : Word) : (s.withNextCommand w).rev = s.rev := rfl
@[simp] theorem State.withNextCommand_maxCode (w : Word) : (s.withNextCommand w).maxCode = s.maxCode := rfl
@[simp] theorem State.withNextCommand_word (w : Word) : (s.withNextCommand w).word = s.word := rfl
@[simp] theorem State.withNextCommand_prev (w : Word) : (s.withNextCommand w).prev = s.prev := rfl
@[simp] theorem State.withNextCommand_dnbits (w : Word) : (s.withNextCommand w).dnbits = s.dnbits := rfl
@[simp] theorem State.withNextCommand_acc (w : Word) : (s.withNextCommand w).acc = s.acc := rfl
@[simp] theorem State.withNextCommand_ibuf (w : Word) : (s.withNextCommand w).ibuf = s.ibuf := rfl
@[simp] theorem State.withNextCommand_outq (w : Word) : (s.withNextCommand w).outq = s.outq := rfl
@[simp] theorem State.withNextCommand_resultv (w : Word) : (s.withNextCommand w).resultv = s.resultv := rfl
@[simp] theorem State.withNextCommand_params (w : Word) : (s.withNextCommand w).params = s.params := rfl
@[simp] theorem State.withNextCommand_pending (w : Word) : (s.withNextCommand w).pending = .write offCmd 4 w :: s.pending := rfl
@[simp] theorem State.withNextCommand_replies (w : Word) : (s.withNextCommand w).replies = s.replies := rfl

/-! ### `flush` -/

@[simp] theorem State.flush_phase : s.flush.phase = s.phase := by unfold State.flush; split <;> rfl
@[simp] theorem State.flush_call : s.flush.call = s.call := by unfold State.flush; split <;> rfl
@[simp] theorem State.flush_err : s.flush.err = s.err := by unfold State.flush; split <;> rfl
@[simp] theorem State.flush_fwd : s.flush.fwd = s.fwd := by unfold State.flush; split <;> rfl
@[simp] theorem State.flush_rev : s.flush.rev = s.rev := by unfold State.flush; split <;> rfl
@[simp] theorem State.flush_maxCode : s.flush.maxCode = s.maxCode := by unfold State.flush; split <;> rfl
@[simp] theorem State.flush_word : s.flush.word = s.word := by unfold State.flush; split <;> rfl
@[simp] theorem State.flush_prev : s.flush.prev = s.prev := by unfold State.flush; split <;> rfl
@[simp] theorem State.flush_dnbits : s.flush.dnbits = s.dnbits := by unfold State.flush; split <;> rfl
@[simp] theorem State.flush_acc : s.flush.acc = [] := by
  unfold State.flush; split <;> simp_all
@[simp] theorem State.flush_ibuf : s.flush.ibuf = s.ibuf := by unfold State.flush; split <;> rfl
theorem State.flush_outq :
    s.flush.outq = if s.acc = [] then s.outq else s.outq ++ [byteOfBits (s.acc ++ zeroBits (8 - s.acc.length))] := by
  unfold State.flush; split <;> rfl
@[simp] theorem State.flush_resultv : s.flush.resultv = s.resultv := by unfold State.flush; split <;> rfl
@[simp] theorem State.flush_params : s.flush.params = s.params := by unfold State.flush; split <;> rfl
@[simp] theorem State.flush_pending : s.flush.pending = s.pending := by unfold State.flush; split <;> rfl
@[simp] theorem State.flush_replies : s.flush.replies = s.replies := by unfold State.flush; split <;> rfl

end Sys2Proof.Machine
end

