-- ==== Sys2Proof/Laws/Dict.lean ====
section
/-! SUPPORT. The finite maps and the dictionary's canonical form: reading after writing, and that Dict_init and insert
keep the form (10_state.md R31, 42_dictionary.md R142, R146). -/

namespace Sys2Proof.Machine

section Maps
variable {κ α : Type} [DecidableEq κ]

/-- Reading a finite map after writing it. -/
theorem mapGet_mapSet (m : List (κ × α)) (k k' : κ) (v : α) :
    mapGet (mapSet m k v) k' = if k = k' then some v else mapGet m k' := by
  induction m with
  | nil => simp [mapSet, mapGet]
  | cons e m ih =>
    by_cases h : e.1 = k
    · rw [mapSet, if_pos h]
      by_cases h' : k = k'
      · simp [mapGet, h']
      · simp [mapGet, h, h']
    · rw [mapSet, if_neg h, mapGet, ih, mapGet]
      by_cases h' : e.1 = k'
      · have : ¬ k = k' := fun hk => h (h'.trans hk.symm)
        simp [h', this]
      · simp [h']

/-- A new key goes to the end. -/
theorem mapSet_of_absent (m : List (κ × α)) (k : κ) (v : α) (h : mapGet m k = none) : mapSet m k v = m ++ [(k, v)] := by
  induction m with
  | nil => rfl
  | cons e m ih =>
    by_cases hk : e.1 = k
    · simp [mapGet, hk] at h
    · rw [mapGet, if_neg hk] at h
      rw [mapSet, if_neg hk, ih h, List.cons_append]

theorem mapGet_eq_none_iff (m : List (κ × α)) (k : κ) : mapGet m k = none ↔ k ∉ m.map Prod.fst := by
  induction m with
  | nil => simp [mapGet]
  | cons e m ih =>
    by_cases h : e.1 = k
    · simp [mapGet, h]
    · have h' : ¬ k = e.1 := fun hk => h hk.symm
      rw [mapGet, if_neg h, ih]; simp [h']

theorem mem_of_mapGet (m : List (κ × α)) (k : κ) (v : α) (h : mapGet m k = some v) : (k, v) ∈ m := by
  induction m with
  | nil => simp [mapGet] at h
  | cons e m ih =>
    by_cases hk : e.1 = k
    · simp only [mapGet, if_pos hk, Option.some.injEq] at h
      subst hk h; simp
    · rw [mapGet, if_neg hk] at h
      exact List.mem_cons_of_mem _ (ih h)

/-- Where no key stands twice, the entries are the lookups. -/
theorem mapGet_eq_some_iff (m : List (κ × α)) (hm : (m.map Prod.fst).Nodup) (k : κ) (v : α) :
    mapGet m k = some v ↔ (k, v) ∈ m := by
  refine ⟨mem_of_mapGet m k v, fun h => ?_⟩
  induction m with
  | nil => simp at h
  | cons e m ih =>
    rw [List.map_cons, List.nodup_cons] at hm
    rcases List.mem_cons.mp h with rfl | h
    · simp [mapGet]
    · have hk : ¬ e.1 = k := fun hk => hm.1 (hk ▸ List.mem_map_of_mem (f := Prod.fst) h)
      rw [mapGet, if_neg hk]; exact ih hm.2 h

end Maps

/-- What `DictCanonical` says depends on the three dictionary elements alone. -/
theorem DictCanonical.congr {s t : State} (h : DictCanonical s) (hf : t.fwd = s.fwd) (hr : t.rev = s.rev)
    (hm : t.maxCode = s.maxCode) : DictCanonical t :=
  ⟨by rw [hr, hm]; exact h.codes, by rw [hf, hr]; exact h.mirror, by rw [hr]; exact h.distinct⟩

theorem DictCanonical.rev_nodup {s : State} (h : DictCanonical s) : (s.rev.map Prod.fst).Nodup := by
  rw [h.codes]; exact List.nodup_range'

theorem DictCanonical.fwd_keys {s : State} (h : DictCanonical s) : s.fwd.map Prod.fst = s.rev.map Prod.snd := by
  rw [h.mirror, List.map_map]; rfl

theorem DictCanonical.fwd_nodup {s : State} (h : DictCanonical s) : (s.fwd.map Prod.fst).Nodup := by
  rw [h.fwd_keys]; exact h.distinct

/-- FWD and REV are exact inverses (10_state.md R31). -/
theorem DictCanonical.inverse {s : State} (h : DictCanonical s) (sym : Symbol) (c : Nat) :
    mapGet s.fwd sym = some c ↔ mapGet s.rev c = some sym := by
  rw [mapGet_eq_some_iff _ h.fwd_nodup, mapGet_eq_some_iff _ h.rev_nodup, h.mirror]
  constructor
  · intro hm
    obtain ⟨e, he, hs⟩ := List.mem_map.mp hm
    simp only [Prod.swap, Prod.mk.injEq] at hs
    obtain ⟨rfl, rfl⟩ := hs; exact he
  · intro hm
    exact List.mem_map.mpr ⟨(c, sym), hm, rfl⟩

/-- REV's keys are exactly 1..MAX_CODE (10_state.md R40 item 1). -/
theorem DictCanonical.rev_isSome {s : State} (h : DictCanonical s) (c : Nat) :
    (mapGet s.rev c).isSome = true ↔ 1 ≤ c ∧ c ≤ s.maxCode := by
  have hn := mapGet_eq_none_iff s.rev c
  rw [h.codes, List.mem_range'_1] at hn
  rcases hg : mapGet s.rev c with _ | v
  · simp only [hg, true_iff] at hn; simp; omega
  · simp only [hg, reduceCtorEq, false_iff, not_not] at hn; simp; omega

/-- A code of FWD lies in 1..MAX_CODE. -/
theorem DictCanonical.code_range {s : State} (h : DictCanonical s) {sym : Symbol} {c : Nat}
    (hc : mapGet s.fwd sym = some c) : 1 ≤ c ∧ c ≤ s.maxCode := by
  have hr := (h.inverse sym c).mp hc
  exact (h.rev_isSome c).mp (by rw [hr]; rfl)

/-- Every code in 1..MAX_CODE is the code of a Symbol. -/
theorem DictCanonical.symbol_of_code {s : State} (h : DictCanonical s) {c : Nat} (h1 : 1 ≤ c) (h2 : c ≤ s.maxCode) :
    ∃ sym, mapGet s.rev c = some sym ∧ mapGet s.fwd sym = some c := by
  obtain ⟨sym, hs⟩ := Option.isSome_iff_exists.mp ((h.rev_isSome c).mpr ⟨h1, h2⟩)
  exact ⟨sym, hs, (h.inverse sym c).mpr hs⟩

/-- An insertion of a new Symbol keeps the canonical form. -/
theorem DictCanonical.addEntry {s : State} (h : DictCanonical s) (sym : Symbol) (hn : mapGet s.fwd sym = none) :
    DictCanonical (s.addEntry sym) := by
  have hr : mapGet s.rev (s.maxCode + 1) = none := by
    rw [mapGet_eq_none_iff, h.codes, List.mem_range'_1]; omega
  have hsym : sym ∉ s.rev.map Prod.snd := by
    rw [← h.fwd_keys]; exact (mapGet_eq_none_iff _ _).mp hn
  refine ⟨?_, ?_, ?_⟩
  · rw [State.addEntry_rev, State.addEntry_maxCode, mapSet_of_absent _ _ _ hr, List.map_append, h.codes,
      List.range'_concat]
    simp [Nat.add_comm]
  · rw [State.addEntry_fwd, State.addEntry_rev, mapSet_of_absent _ _ _ hr, mapSet_of_absent _ _ _ hn, List.map_append,
      ← h.mirror]
    rfl
  · rw [State.addEntry_rev, mapSet_of_absent _ _ _ hr, List.map_append]
    exact List.nodup_append.mpr ⟨h.distinct, by simp, by
      intro a ha b hb; simp at hb; subst hb; intro hab; subst hab; exact hsym ha⟩

theorem Symbol.single_injective {a b : Byte} (h : Symbol.single a = Symbol.single b) : a = b :=
  congrArg Symbol.first h

/-- Dict_init leaves the canonical form. -/
theorem DictCanonical.dictInit (s : State) : DictCanonical s.dictInit := by
  refine ⟨?_, ?_, ?_⟩
  · rw [State.dictInit_rev, State.dictInit_maxCode, seedRev, List.map_map, List.range'_eq_map_range]
    exact List.map_congr_left fun b _ => Nat.add_comm b 1
  · rw [State.dictInit_fwd, State.dictInit_rev, seedRev, seedFwd, List.map_map]; rfl
  · rw [State.dictInit_rev, seedRev, List.map_map]
    refine List.Nodup.map_on (fun a ha b hb h => ?_) List.nodup_range
    have hf := congrArg BitVec.toNat (Symbol.single_injective h)
    rw [List.mem_range] at ha hb
    simpa [Nat.mod_eq_of_lt ha, Nat.mod_eq_of_lt hb] using hf

/-- The seeded dictionary holds exactly the 256 single bytes (42_dictionary.md R142). -/
theorem mapGet_seedFwd_single (b : Byte) : mapGet seedFwd (Symbol.single b) = some (b.toNat + 1) := by
  have hc := DictCanonical.dictInit State.reset
  refine (mapGet_eq_some_iff seedFwd hc.fwd_nodup _ _).mpr (List.mem_map.mpr ⟨b.toNat, ?_, ?_⟩)
  · exact List.mem_range.mpr b.isLt
  · simp

/-- Every Symbol of the seeded dictionary is a single byte. -/
theorem eq_single_of_mapGet_seedFwd {sym : Symbol} {c : Nat} (h : mapGet seedFwd sym = some c) :
    ∃ b : Byte, sym = Symbol.single b ∧ c = b.toNat + 1 := by
  obtain ⟨n, hn, he⟩ := List.mem_map.mp (mem_of_mapGet _ _ _ h)
  have hn' : n < 256 := List.mem_range.mp hn
  simp only [Prod.mk.injEq] at he
  refine ⟨BitVec.ofNat 8 n, he.1.symm, ?_⟩
  rw [BitVec.toNat_ofNat, Nat.mod_eq_of_lt hn']; exact he.2.symm

/-- Membership after an insertion. -/
theorem State.knows_addEntry (s : State) (sym sym' : Symbol) :
    (s.addEntry sym).knows sym' ↔ sym = sym' ∨ s.knows sym' := by
  unfold State.knows
  rw [State.addEntry_fwd, mapGet_mapSet]
  by_cases h : sym = sym' <;> simp [h]

theorem State.knows_iff_exists (s : State) (sym : Symbol) : s.knows sym ↔ ∃ c, mapGet s.fwd sym = some c :=
  Option.isSome_iff_exists

end Sys2Proof.Machine
end

