-- ==== Sys2Proof/Laws/Encoding.lean ====
section
/-! SUPPORT. The fields of a command word as numbers, and a word put together from its three fields (30_encoding.md R85,
R88). -/

namespace Sys2Proof

theorem opField_toNat (w : Word) : (opField w).toNat = w.toNat / 2 ^ 28 := by
  have := w.isLt
  simp only [opField, BitVec.extractLsb'_toNat, Nat.shiftRight_eq_div_pow]
  omega

theorem wField_toNat (w : Word) : (wField w).toNat = w.toNat / 2 ^ 23 % 32 := by
  simp [wField, BitVec.extractLsb'_toNat, Nat.shiftRight_eq_div_pow]

theorem vField_toNat (w : Word) : (vField w).toNat = w.toNat % 2 ^ 23 := by
  simp [vField, BitVec.extractLsb'_toNat]

theorem bField_toNat (w : Word) : (bField w).toNat = w.toNat % 256 := by
  simp [bField, BitVec.extractLsb'_toNat]

theorem vHighField_toNat (w : Word) : (vHighField w).toNat = w.toNat / 2 ^ 8 % 2 ^ 15 := by
  simp [vHighField, BitVec.extractLsb'_toNat, Nat.shiftRight_eq_div_pow]

/-- Three fields side by side, as a number. -/
theorem fields_toNat (a : BitVec 4) (b : BitVec 5) (c : BitVec 23) :
    (a ++ b ++ c : BitVec (4 + 5 + 23)).toNat = (a.toNat * 32 + b.toNat) * 2 ^ 23 + c.toNat := by
  have hb := b.isLt
  have hc := c.isLt
  rw [BitVec.toNat_append, BitVec.toNat_append, ← Nat.shiftLeft_add_eq_or_of_lt hc, ← Nat.shiftLeft_add_eq_or_of_lt hb,
    Nat.shiftLeft_eq, Nat.shiftLeft_eq]

/-- The number of an instruction's word. -/
theorem encode_toNat (i : Instr) :
    (encode i).toNat = (i.opcode.toNat * 32 + i.wOperand.toNat) * 2 ^ 23 + i.vOperand.toNat :=
  fields_toNat _ _ _

/-- A word is determined by its three fields. -/
theorem word_ext {w x : Word} (ho : opField w = opField x) (hw : wField w = wField x) (hv : vField w = vField x) :
    w = x := by
  have h1 := congrArg BitVec.toNat ho
  have h2 := congrArg BitVec.toNat hw
  have h3 := congrArg BitVec.toNat hv
  rw [opField_toNat, opField_toNat] at h1
  rw [wField_toNat, wField_toNat] at h2
  rw [vField_toNat, vField_toNat] at h3
  apply BitVec.eq_of_toNat_eq
  omega

end Sys2Proof
end

