-- ==== Sys2Proof/Laws/Ops.lean ====
section
/-! SUPPORT. One lemma per shared operation that says everything it can do, for the proofs to cite instead of unfolding
it: the end of a command, admission, the BitPacker's and the Dictionary's operations, the host's accesses. -/

namespace Sys2Proof.Machine

/-! ### Outcomes -/

@[simp] theorem next_inj (s t : State) :
    (Host.Outcome.next s : Host.Outcome State Fault Refusal) = .next t ↔ s = t :=
  ⟨fun h => by injection h, fun h => by rw [h]⟩

/-- A command that answers a next state either took effect whole or faulted and changed PHASE and ERR alone
(40_dispatch.md R103). -/
theorem commit_next {s t : State} {r : Except Abort State} (h : commit s r = .next t) :
    r = .ok t ∨ ∃ e, r = .error (.raise e) ∧ t = s.faultEntry e := by
  match r, h with
  | .ok u, h => exact .inl (by simp [commit] at h; rw [h])
  | .error (.raise e), h => exact .inr ⟨e, rfl, by simp [commit] at h; exact h.symm⟩
  | .error (.stop f), h => simp [commit] at h

@[simp] theorem commit_ok (s t : State) : commit s (.ok t) = .next t := rfl

@[simp] theorem commit_raise (s : State) (e : Err) : commit s (.error (.raise e)) = .next (s.faultEntry e) := rfl

theorem commit_not_refused (s : State) (r : Except Abort State) (x : Refusal) : commit s r ≠ .refused x := by
  unfold commit; split <;> simp

/-! ### Admission -/

/-- Everything an *_INIT command can do (40_dispatch.md R100, R101). -/
theorem runInit_next {kind : Call} {rule : State → Except Abort State} {s t : State}
    (h : runInit kind rule s = .next t) :
    (s.phase = .active ∧ t = s.faultEntry .sequence) ∨
      (s.phase ≠ .active ∧ commit s (rule (s.startCall kind)) = .next t) := by
  unfold runInit admitInit runAdmitted at h
  rcases hp : s.phase <;> simp [hp] at h ⊢ <;> first | exact h | exact h.symm

theorem runInit_of_inactive {kind : Call} {rule : State → Except Abort State} {s : State} (h : s.phase ≠ .active) :
    runInit kind rule s = commit s (rule (s.startCall kind)) := by
  unfold runInit admitInit runAdmitted
  rcases hp : s.phase <;> simp_all

theorem runInit_of_active {kind : Call} {rule : State → Except Abort State} {s : State} (h : s.phase = .active) :
    runInit kind rule s = .next (s.faultEntry .sequence) := by
  simp [runInit, admitInit, runAdmitted, h]

/-- Everything a data command can do (40_dispatch.md R100, R102). -/
theorem runData_next {pipeline : Call} {legal : Bool} {rule : State → Except Abort State} {s t : State}
    (h : runData pipeline legal rule s = .next t) :
    (s.phase = .fault ∧ t = s) ∨
    (s.phase ≠ .fault ∧ legal = false ∧ t = s.faultEntry .illegalCommand) ∨
    (s.phase = .done ∧ s.call = .dec ∧ pipeline = .dec ∧ legal = true ∧ t = s) ∨
    (s.phase ≠ .fault ∧ legal = true ∧ (s.call ≠ pipeline ∨ s.phase ≠ .active) ∧
      ¬ (s.phase = .done ∧ s.call = .dec ∧ pipeline = .dec) ∧ t = s.faultEntry .sequence) ∨
    (s.phase = .active ∧ s.call = pipeline ∧ legal = true ∧ commit s (rule s) = .next t) := by
  unfold runData admitData runAdmitted at h
  by_cases hf : s.phase = .fault
  · simp [hf] at h; exact .inl ⟨hf, h.symm⟩
  cases legal
  · simp [hf] at h; exact .inr (.inl ⟨hf, rfl, h.symm⟩)
  by_cases hc : s.call = pipeline
  · by_cases hd : s.call = .dec ∧ s.phase = .done
    · have hp : pipeline = .dec := hc ▸ hd.1
      simp [hc, hp, hd.2] at h
      exact .inr (.inr (.inl ⟨hd.2, hd.1, hp, rfl, h.symm⟩))
    · by_cases ha : s.phase = .active
      · simp [hc, ha] at h
        exact .inr (.inr (.inr (.inr ⟨ha, hc, rfl, h⟩)))
      · have hd' : ¬ (pipeline = .dec ∧ s.phase = .done) := fun x => hd ⟨hc.trans x.1, x.2⟩
        simp [hf, hc, ha, hd'] at h
        exact .inr (.inr (.inr (.inl ⟨hf, rfl, .inr ha, fun x => hd ⟨x.2.1, x.1⟩, h.symm⟩)))
  · simp [hf, hc] at h
    exact .inr (.inr (.inr (.inl ⟨hf, rfl, .inl hc, fun x => hc (x.2.1.trans x.2.2.symm), h.symm⟩)))

theorem runData_of_fault {pipeline : Call} {legal : Bool} {rule : State → Except Abort State} {s : State}
    (h : s.phase = .fault) : runData pipeline legal rule s = .next s := by
  simp [runData, h]

/-- An admitted data command runs its own rule. -/
theorem runData_of_active {pipeline : Call} {rule : State → Except Abort State} {s : State} (h : s.phase = .active)
    (hc : s.call = pipeline) : runData pipeline true rule s = commit s (rule s) := by
  simp [runData, admitData, runAdmitted, h, hc]

/-- A data command outside an active call of its pipeline is a SEQUENCE fault, but after DONE in a DEC call. -/
theorem runData_not_admitted {pipeline : Call} {rule : State → Except Abort State} {s : State} (hf : s.phase ≠ .fault)
    (hn : s.call ≠ pipeline ∨ s.phase ≠ .active) (hd : ¬ (s.phase = .done ∧ s.call = .dec ∧ pipeline = .dec)) :
    runData pipeline true rule s = .next (s.faultEntry .sequence) := by
  unfold runData admitData runAdmitted
  by_cases hc : s.call = pipeline
  · have ha : s.phase ≠ .active := hn.resolve_left (fun x => x hc)
    have hd' : ¬ (pipeline = .dec ∧ s.phase = .done) := fun x => hd ⟨x.2, hc.trans x.1, x.1⟩
    simp [hf, hc, ha, hd']
  · simp [hf, hc]

theorem runData_dec_done {rule : State → Except Abort State} {s : State} (h : s.phase = .done) (hc : s.call = .dec) :
    runData .dec true rule s = .next s := by
  simp [runData, admitData, runAdmitted, h, hc]

/-! ### BitPacker -/

/-- Everything emit can do (41_bitpacker.md R111). -/
theorem emit_cases (v w : Nat) (s : State) :
    (2 ^ w ≤ v ∧ emit v w s = .error (.raise .precondition)) ∨
      (v < 2 ^ w ∧ emit v w s = .ok (s.appendBits (bitsOf w v))) := by
  unfold emit
  by_cases h : 2 ^ w ≤ v
  · exact .inl ⟨h, if_pos h⟩
  · exact .inr ⟨by omega, if_neg h⟩

theorem emit_of_lt {v w : Nat} (s : State) (h : v < 2 ^ w) : emit v w s = .ok (s.appendBits (bitsOf w v)) := by
  unfold emit; rw [if_neg (by omega)]

/-- Appending bits moves whole bytes to OUTQ and keeps fewer than 8 bits; nothing is lost and the order is kept. -/
theorem appendBits_spec (bits : List Bool) (s : State) :
    ∃ bs, (s.appendBits bits).outq = s.outq ++ bs ∧
      bs.flatMap byteBits ++ (s.appendBits bits).acc = s.acc ++ bits ∧ (s.appendBits bits).acc.length < 8 := by
  simpa using moveBytes_spec _ (s.acc ++ bits) s.outq (Nat.le_refl _)

/-- Everything read can do (41_bitpacker.md R114). -/
theorem readBits_cases (n : Nat) (s : State) :
    (s.ibuf.length < n ∧ readBits n s = .error (.raise .corruptTruncated)) ∨
      (n ≤ s.ibuf.length ∧ readBits n s = .ok (bitsVal (s.ibuf.take n), s.setIbuf (s.ibuf.drop n))) := by
  unfold readBits
  by_cases h : s.ibuf.length < n
  · exact .inl ⟨h, if_pos h⟩
  · exact .inr ⟨by omega, if_neg h⟩

theorem readBits_of_le {n : Nat} (s : State) (h : n ≤ s.ibuf.length) :
    readBits n s = .ok (bitsVal (s.ibuf.take n), s.setIbuf (s.ibuf.drop n)) := by
  unfold readBits; rw [if_neg (by omega)]

/-! ### Dictionary -/

/-- Everything insert can do (42_dictionary.md R146). -/
theorem insertSymbol_cases (sym : Symbol) (s : State) :
    ((mapGet s.fwd sym).isSome = true ∧ insertSymbol sym s = .error (.raise .corruptDuplicate)) ∨
    (mapGet s.fwd sym = none ∧ codeLimit s.params ≤ s.maxCode ∧ insertSymbol sym s = .error (.raise .capacity)) ∨
    (mapGet s.fwd sym = none ∧ s.maxCode < codeLimit s.params ∧ insertSymbol sym s = .ok (s.addEntry sym)) := by
  unfold insertSymbol
  rcases hg : mapGet s.fwd sym with _ | c
  · by_cases hl : codeLimit s.params ≤ s.maxCode
    · exact .inr (.inl ⟨rfl, hl, by simp [hl]⟩)
    · exact .inr (.inr ⟨rfl, by omega, by simp [hl]⟩)
  · exact .inl ⟨rfl, by simp⟩

/-- Everything the encoder's FWD[WORD] can do. -/
theorem codeOf_cases (s : State) (sym : Symbol) :
    (∃ c, mapGet s.fwd sym = some c ∧ codeOf s sym = .ok c) ∨
      (mapGet s.fwd sym = none ∧ codeOf s sym = .error (.stop .wordNotInDictionary)) := by
  unfold codeOf
  rcases mapGet s.fwd sym with _ | c
  · exact .inr ⟨rfl, rfl⟩
  · exact .inl ⟨c, rfl, rfl⟩

/-- Everything the decode step's lookup can do (44_decoder.md R192 step 4). -/
theorem decodedSymbol_cases (c : Nat) (s : State) :
    (∃ sym, mapGet s.rev c = some sym ∧ decodedSymbol c s = .ok sym) ∨
    (∃ p, mapGet s.rev c = none ∧ c = s.maxCode + 1 ∧ s.prev = some p ∧ decodedSymbol c s = .ok (p.snoc p.first)) ∨
    (mapGet s.rev c = none ∧ (c = s.maxCode + 1 → s.prev = none) ∧
      decodedSymbol c s = .error (.raise .corruptBadCode)) := by
  unfold decodedSymbol lookupSymbol
  rcases hg : mapGet s.rev c with _ | sym
  · by_cases hc : c = s.maxCode + 1
    · rcases hp : s.prev with _ | p
      · exact .inr (.inr ⟨rfl, fun _ => rfl, by simp [hc]⟩)
      · exact .inr (.inl ⟨p, rfl, hc, rfl, by simp [hc]⟩)
    · exact .inr (.inr ⟨rfl, fun h => absurd h hc, by simp [hc]⟩)
  · exact .inl ⟨sym, rfl, rfl⟩

/-! ### Steps -/

/-- While the host waits nothing changes. -/
theorem step_of_idle {s : State} (h : s.pending = []) : step s = .next s := by simp [step, h]

/-- A step performs the oldest access. -/
theorem step_of_access {s : State} {a : HostAccess} {rest : List HostAccess} (h : s.pending = a :: rest) :
    step s = performAccess a s.takeAccess := by simp [step, h]

/-- The command of the oldest access, a write of CMD, is decoded and run. -/
theorem step_of_command {s : State} {w : Word} {rest : List HostAccess} (h : s.pending = .write offCmd 4 w :: rest) :
    step s = runWord w s.takeAccess := by
  rw [step_of_access h]; rfl

theorem runWord_of_ok {w : Word} {i : Instr} (s : State) (h : decodeCmd w = .ok i) : runWord w s = exec i s := by
  simp [runWord, h]

theorem runWord_of_error {w : Word} {e : IllegalWord} (s : State) (h : decodeCmd w = .error e) :
    runWord w s = runIllegal s := by
  simp [runWord, h]

end Sys2Proof.Machine
end

