-- ==== Sys2Proof/Laws/Pipelines.lean ====
section
/-! SUPPORT. One lemma per own rule of a data command that says everything it can do, and the shape all data commands and
all *_INIT commands share. -/

namespace Sys2Proof.Machine

/-! ### Encoder -/

/-- Everything the miss of ENC_BYTE can do (43_encoder.md R172). -/
theorem encMiss_cases (w : Symbol) (b : Byte) (s : State) :
    (mapGet s.fwd w = none ∧ encMiss w b s = .error (.stop .wordNotInDictionary)) ∨
    ∃ k, mapGet s.fwd w = some k ∧
      ((2 ^ nbits s ≤ k ∧ encMiss w b s = .error (.raise .precondition)) ∨
      (k < 2 ^ nbits s ∧ (mapGet s.fwd (w.snoc b)).isSome = true ∧
        encMiss w b s = .error (.raise .corruptDuplicate)) ∨
      (k < 2 ^ nbits s ∧ mapGet s.fwd (w.snoc b) = none ∧ codeLimit s.params ≤ s.maxCode ∧
        encMiss w b s = .error (.raise .capacity)) ∨
      (k < 2 ^ nbits s ∧ mapGet s.fwd (w.snoc b) = none ∧ s.maxCode < codeLimit s.params ∧
        encMiss w b s =
          .ok (((s.appendBits (bitsOf (nbits s) k)).addEntry (w.snoc b)).setWord (some (Symbol.single b))))) := by
  rcases codeOf_cases s w with ⟨k, hk, hc⟩ | ⟨hk, hc⟩
  · refine .inr ⟨k, hk, ?_⟩
    rcases emit_cases k (nbits s) s with ⟨hv, he⟩ | ⟨hv, he⟩
    · exact .inl ⟨hv, by simp only [encMiss, hc, he, bind, Except.bind]⟩
    · rcases insertSymbol_cases (w.snoc b) (s.appendBits (bitsOf (nbits s) k)) with ⟨h1, hi⟩ | ⟨h1, h2, hi⟩ | ⟨h1, h2, hi⟩
      · exact .inr (.inl ⟨hv, h1, by simp only [encMiss, hc, he, hi, bind, Except.bind]⟩)
      · exact .inr (.inr (.inl ⟨hv, h1, h2, by simp only [encMiss, hc, he, hi, bind, Except.bind]⟩))
      · exact .inr (.inr (.inr ⟨hv, h1, h2, by simp only [encMiss, hc, he, hi, bind, Except.bind]⟩))
  · exact .inl ⟨hk, by simp only [encMiss, hc, bind, Except.bind]⟩

/-- Everything the own rule of ENC_BYTE can do (43_encoder.md R172). -/
theorem encByteRule_cases (b : Byte) (s : State) :
    (s.word = none ∧ encByteRule b s = .ok (s.setWord (some (Symbol.single b)))) ∨
    (∃ w c, s.word = some w ∧ mapGet s.fwd (w.snoc b) = some c ∧
      encByteRule b s = .ok (s.setWord (some (w.snoc b)))) ∨
    (∃ w, s.word = some w ∧ mapGet s.fwd (w.snoc b) = none ∧ encByteRule b s = encMiss w b s) := by
  unfold encByteRule lookupCode
  rcases hw : s.word with _ | w
  · exact .inl ⟨rfl, rfl⟩
  · rcases hg : mapGet s.fwd (w.snoc b) with _ | c
    · exact .inr (.inr ⟨w, rfl, hg, by simp [hg]⟩)
    · exact .inr (.inl ⟨w, c, rfl, hg, by simp [hg]⟩)

theorem emit_zero (w : Nat) (s : State) : emit 0 w s = .ok (s.appendBits (bitsOf w 0)) :=
  emit_of_lt s (Nat.two_pow_pos w)

/-- Everything the own rule of ENC_END can do (43_encoder.md R174). -/
theorem encEndRule_cases (s : State) :
    (s.word = none ∧ encEndRule s =
      .ok (((s.appendBits (bitsOf (nbits s) 0)).flush.setWord none).setPhase .done)) ∨
    (∃ w, s.word = some w ∧ mapGet s.fwd w = none ∧ encEndRule s = .error (.stop .wordNotInDictionary)) ∨
    (∃ w k, s.word = some w ∧ mapGet s.fwd w = some k ∧ 2 ^ nbits s ≤ k ∧
      encEndRule s = .error (.raise .precondition)) ∨
    (∃ w k, s.word = some w ∧ mapGet s.fwd w = some k ∧ k < 2 ^ nbits s ∧ encEndRule s =
      .ok ((((s.appendBits (bitsOf (nbits s) k)).appendBits (bitsOf (nbits s) 0)).flush.setWord none).setPhase
        .done)) := by
  rcases hw : s.word with _ | w
  · refine .inl ⟨rfl, ?_⟩
    simp only [encEndRule, emitWord, hw, bind, Except.bind, emit_zero]
  · rcases codeOf_cases s w with ⟨k, hk, hc⟩ | ⟨hk, hc⟩
    · rcases emit_cases k (nbits s) s with ⟨hv, he⟩ | ⟨hv, he⟩
      · refine .inr (.inr (.inl ⟨w, k, rfl, hk, hv, ?_⟩))
        simp only [encEndRule, emitWord, hw, hc, he, bind, Except.bind]
      · refine .inr (.inr (.inr ⟨w, k, rfl, hk, hv, ?_⟩))
        simp only [encEndRule, emitWord, hw, hc, he, bind, Except.bind, emit_zero]
        rfl
    · refine .inr (.inl ⟨w, rfl, hk, ?_⟩)
      simp only [encEndRule, emitWord, hw, hc, bind, Except.bind]

/-! ### Decoder -/

/-- What is left of a DEC_BYTE once the codeword c is read: the state with the remaining input. -/
def afterRead (b : Byte) (s : State) : State := (s.push b).setIbuf ((s.ibuf ++ byteBits b).drop s.dnbits)

/-- The codeword a DEC_BYTE reads. -/
def codeRead (b : Byte) (s : State) : Nat := bitsVal ((s.ibuf ++ byteBits b).take s.dnbits)

/-- The state a successful insertion of the decoder leaves, with its output and the Symbol as PREV. -/
def afterInsert (b : Byte) (p sym : Symbol) (s : State) : State :=
  (((((afterRead b s).outSymbol sym).addEntry (p.snoc sym.first)).setDnbits (bitLength (s.maxCode + 1 + 1))).setPrev
    (some sym))

@[simp] theorem afterRead_phase (b : Byte) (s : State) : (afterRead b s).phase = s.phase := rfl
@[simp] theorem afterRead_call (b : Byte) (s : State) : (afterRead b s).call = s.call := rfl
@[simp] theorem afterRead_err (b : Byte) (s : State) : (afterRead b s).err = s.err := rfl
@[simp] theorem afterRead_fwd (b : Byte) (s : State) : (afterRead b s).fwd = s.fwd := rfl
@[simp] theorem afterRead_rev (b : Byte) (s : State) : (afterRead b s).rev = s.rev := rfl
@[simp] theorem afterRead_maxCode (b : Byte) (s : State) : (afterRead b s).maxCode = s.maxCode := rfl
@[simp] theorem afterRead_word (b : Byte) (s : State) : (afterRead b s).word = s.word := rfl
@[simp] theorem afterRead_prev (b : Byte) (s : State) : (afterRead b s).prev = s.prev := rfl
@[simp] theorem afterRead_dnbits (b : Byte) (s : State) : (afterRead b s).dnbits = s.dnbits := rfl
@[simp] theorem afterRead_acc (b : Byte) (s : State) : (afterRead b s).acc = s.acc := rfl
@[simp] theorem afterRead_ibuf (b : Byte) (s : State) :
    (afterRead b s).ibuf = (s.ibuf ++ byteBits b).drop s.dnbits := rfl
@[simp] theorem afterRead_outq (b : Byte) (s : State) : (afterRead b s).outq = s.outq := rfl
@[simp] theorem afterRead_resultv (b : Byte) (s : State) : (afterRead b s).resultv = s.resultv := rfl
@[simp] theorem afterRead_params (b : Byte) (s : State) : (afterRead b s).params = s.params := rfl
@[simp] theorem afterRead_pending (b : Byte) (s : State) : (afterRead b s).pending = s.pending := rfl
@[simp] theorem afterRead_replies (b : Byte) (s : State) : (afterRead b s).replies = s.replies := rfl

@[simp] theorem afterInsert_phase (b : Byte) (p sym : Symbol) (s : State) :
    (afterInsert b p sym s).phase = s.phase := rfl
@[simp] theorem afterInsert_call (b : Byte) (p sym : Symbol) (s : State) :
    (afterInsert b p sym s).call = s.call := rfl
@[simp] theorem afterInsert_err (b : Byte) (p sym : Symbol) (s : State) : (afterInsert b p sym s).err = s.err := rfl
@[simp] theorem afterInsert_fwd (b : Byte) (p sym : Symbol) (s : State) :
    (afterInsert b p sym s).fwd = mapSet s.fwd (p.snoc sym.first) (s.maxCode + 1) := rfl
@[simp] theorem afterInsert_rev (b : Byte) (p sym : Symbol) (s : State) :
    (afterInsert b p sym s).rev = mapSet s.rev (s.maxCode + 1) (p.snoc sym.first) := rfl
@[simp] theorem afterInsert_maxCode (b : Byte) (p sym : Symbol) (s : State) :
    (afterInsert b p sym s).maxCode = s.maxCode + 1 := rfl
@[simp] theorem afterInsert_word (b : Byte) (p sym : Symbol) (s : State) :
    (afterInsert b p sym s).word = s.word := rfl
@[simp] theorem afterInsert_prev (b : Byte) (p sym : Symbol) (s : State) :
    (afterInsert b p sym s).prev = some sym := rfl
@[simp] theorem afterInsert_dnbits (b : Byte) (p sym : Symbol) (s : State) :
    (afterInsert b p sym s).dnbits = bitLength (s.maxCode + 1 + 1) := rfl
@[simp] theorem afterInsert_acc (b : Byte) (p sym : Symbol) (s : State) : (afterInsert b p sym s).acc = s.acc := rfl
@[simp] theorem afterInsert_ibuf (b : Byte) (p sym : Symbol) (s : State) :
    (afterInsert b p sym s).ibuf = (s.ibuf ++ byteBits b).drop s.dnbits := rfl
@[simp] theorem afterInsert_outq (b : Byte) (p sym : Symbol) (s : State) :
    (afterInsert b p sym s).outq = s.outq ++ sym.bytes := rfl
@[simp] theorem afterInsert_resultv (b : Byte) (p sym : Symbol) (s : State) :
    (afterInsert b p sym s).resultv = s.resultv := rfl
@[simp] theorem afterInsert_params (b : Byte) (p sym : Symbol) (s : State) :
    (afterInsert b p sym s).params = s.params := rfl
@[simp] theorem afterInsert_pending (b : Byte) (p sym : Symbol) (s : State) :
    (afterInsert b p sym s).pending = s.pending := rfl
@[simp] theorem afterInsert_replies (b : Byte) (p sym : Symbol) (s : State) :
    (afterInsert b p sym s).replies = s.replies := rfl

/-- Everything the own rule of DEC_BYTE can do (44_decoder.md R192, R194). -/
theorem decByteRule_cases (b : Byte) (s : State) :
    ((s.ibuf ++ byteBits b).length < s.dnbits ∧ decByteRule b s = .ok (s.push b)) ∨
    (s.dnbits ≤ (s.ibuf ++ byteBits b).length ∧
      ((codeRead b s = 0 ∧ decByteRule b s = .ok ((afterRead b s).setPhase .done)) ∨
      (codeRead b s ≠ 0 ∧ (∀ sym, ¬ DecodesTo s (codeRead b s) sym) ∧
        decByteRule b s = .error (.raise .corruptBadCode)) ∨
      (∃ sym, codeRead b s ≠ 0 ∧ DecodesTo s (codeRead b s) sym ∧
        ((s.prev = none ∧ decByteRule b s = .ok (((afterRead b s).outSymbol sym).setPrev (some sym))) ∨
        (∃ p, s.prev = some p ∧ (mapGet s.fwd (p.snoc sym.first)).isSome = true ∧
          decByteRule b s = .error (.raise .corruptDuplicate)) ∨
        (∃ p, s.prev = some p ∧ mapGet s.fwd (p.snoc sym.first) = none ∧ codeLimit s.params ≤ s.maxCode ∧
          decByteRule b s = .error (.raise .capacity)) ∨
        (∃ p, s.prev = some p ∧ mapGet s.fwd (p.snoc sym.first) = none ∧ s.maxCode < codeLimit s.params ∧
          decByteRule b s = .ok (afterInsert b p sym s)))))) := by
  by_cases hl : (s.ibuf ++ byteBits b).length < s.dnbits
  · refine .inl ⟨hl, ?_⟩
    unfold decByteRule
    rw [State.push_ibuf, if_neg (by omega)]
  have hl' : s.dnbits ≤ (s.ibuf ++ byteBits b).length := by omega
  refine .inr ⟨hl', ?_⟩
  have hr : readBits s.dnbits (s.push b) = .ok (codeRead b s, afterRead b s) :=
    readBits_of_le (s.push b) (by rw [State.push_ibuf]; exact hl')
  have hrule : decByteRule b s = decodeStep (s.push b) := by
    unfold decByteRule
    rw [State.push_ibuf, if_pos hl']
  rw [hrule]
  by_cases hc : codeRead b s = 0
  · refine .inl ⟨hc, ?_⟩
    simp only [decodeStep, State.push_dnbits, hr, bind, Except.bind, hc, if_true]
  have hgrow : ∀ sym, decodedSymbol (codeRead b s) (afterRead b s) = .ok sym →
      ((s.prev = none ∧ decodeStep (s.push b) = .ok (((afterRead b s).outSymbol sym).setPrev (some sym))) ∨
        (∃ p, s.prev = some p ∧ (mapGet s.fwd (p.snoc sym.first)).isSome = true ∧
          decodeStep (s.push b) = .error (.raise .corruptDuplicate)) ∨
        (∃ p, s.prev = some p ∧ mapGet s.fwd (p.snoc sym.first) = none ∧ codeLimit s.params ≤ s.maxCode ∧
          decodeStep (s.push b) = .error (.raise .capacity)) ∨
        (∃ p, s.prev = some p ∧ mapGet s.fwd (p.snoc sym.first) = none ∧ s.maxCode < codeLimit s.params ∧
          decodeStep (s.push b) = .ok (afterInsert b p sym s))) := by
    intro sym hsym
    have hstep : decodeStep (s.push b) =
        (growDecoder sym ((afterRead b s).outSymbol sym)).bind fun t => .ok (t.setPrev (some sym)) := by
      simp only [decodeStep, State.push_dnbits, hr, bind, Except.bind, if_neg hc, hsym]
    have hp' : ((afterRead b s).outSymbol sym).prev = s.prev := rfl
    rw [hstep]
    unfold growDecoder
    rw [hp']
    rcases hp : s.prev with _ | p
    · exact .inl ⟨rfl, rfl⟩
    · refine .inr ?_
      rcases insertSymbol_cases (p.snoc sym.first) ((afterRead b s).outSymbol sym) with
        ⟨h1, hi⟩ | ⟨h1, h2, hi⟩ | ⟨h1, h2, hi⟩
      · exact .inl ⟨p, rfl, h1, by simp only [hi, bind, Except.bind]⟩
      · exact .inr (.inl ⟨p, rfl, h1, h2, by simp only [hi, bind, Except.bind]⟩)
      · exact .inr (.inr ⟨p, rfl, h1, h2, by simp only [hi, bind, Except.bind]; rfl⟩)
  refine .inr ?_
  rcases decodedSymbol_cases (codeRead b s) (afterRead b s) with ⟨sym, hg, hd⟩ | ⟨p, hg, hm, hp, hd⟩ | ⟨hg, hm, hd⟩
  · exact .inr ⟨sym, hc, .inl hg, hgrow sym hd⟩
  · exact .inr ⟨p.snoc p.first, hc, .inr ⟨hg, hm, p, hp, rfl⟩, hgrow _ hd⟩
  · refine .inl ⟨hc, ?_, ?_⟩
    · rintro sym (h | ⟨_, h, p, hp, _⟩)
      · have hg' : mapGet s.rev (codeRead b s) = none := hg
        rw [hg'] at h; cases h
      · have hm' : s.prev = none := hm h
        rw [hm'] at hp; cases hp
    · simp only [decodeStep, State.push_dnbits, hr, bind, Except.bind, if_neg hc, hd]

/-- The Symbol of a code is determined. -/
theorem DecodesTo.unique {s : State} {c : Nat} {x y : Symbol} (hx : DecodesTo s c x) (hy : DecodesTo s c y) : x = y := by
  rcases hx with hx | ⟨hx, _, p, hp, rfl⟩ <;> rcases hy with hy | ⟨hy, _, q, hq, rfl⟩
  · rw [hx] at hy; exact Option.some.inj hy
  · rw [hx] at hy; cases hy
  · rw [hx] at hy; cases hy
  · rw [hp] at hq; rw [Option.some.inj hq]

/-! ### Unpacker -/

/-- Everything the own rule of UPK_READ can do (41_bitpacker.md R126). -/
theorem upkReadRule_cases (w : Nat) (s : State) :
    (s.ibuf.length < w ∧ upkReadRule w s = .error (.raise .corruptTruncated)) ∨
      (w ≤ s.ibuf.length ∧ upkReadRule w s =
        .ok ((s.setIbuf (s.ibuf.drop w)).setResult (BitVec.ofNat 23 (bitsVal (s.ibuf.take w))))) := by
  rcases readBits_cases w s with ⟨h, hr⟩ | ⟨h, hr⟩
  · exact .inl ⟨h, by simp only [upkReadRule, hr, bind, Except.bind]⟩
  · exact .inr ⟨h, by simp only [upkReadRule, hr, bind, Except.bind]⟩

/-! ### The shape of every command -/

/-- What the own rule of a data command leaves alone, and the phases it can leave. -/
structure KeepsCall (s t : State) : Prop where
  call : t.call = s.call
  err : t.err = s.err
  params : t.params = s.params
  pending : t.pending = s.pending
  replies : t.replies = s.replies
  phase : t.phase = s.phase ∨ t.phase = .done

/-- What the own rule of a data command does: it keeps the call, or raises a code of its own. -/
structure RuleSound (rule : State → Except Abort State) : Prop where
  ok : ∀ s t, rule s = .ok t → KeepsCall s t
  raise : ∀ s e, rule s = .error (.raise e) → e ≠ .none ∧ e ≠ .illegalCommand ∧ e ≠ .sequence

theorem RuleSound.encByte (b : Byte) : RuleSound (encByteRule b) := by
  constructor
  · intro s t h
    rcases encByteRule_cases b s with ⟨_, he⟩ | ⟨w, c, _, _, he⟩ | ⟨w, _, _, he⟩
    · rw [he] at h; cases h; exact ⟨rfl, rfl, rfl, rfl, rfl, .inl rfl⟩
    · rw [he] at h; cases h; exact ⟨rfl, rfl, rfl, rfl, rfl, .inl rfl⟩
    · rw [he] at h
      rcases encMiss_cases w b s with ⟨_, h'⟩ | ⟨k, _, ⟨_, h'⟩ | ⟨_, _, h'⟩ | ⟨_, _, _, h'⟩ | ⟨_, _, _, h'⟩⟩ <;>
        rw [h'] at h <;> cases h
      exact ⟨rfl, rfl, rfl, rfl, rfl, .inl rfl⟩
  · intro s e h
    rcases encByteRule_cases b s with ⟨_, he⟩ | ⟨w, c, _, _, he⟩ | ⟨w, _, _, he⟩ <;> rw [he] at h
    · cases h
    · cases h
    · rcases encMiss_cases w b s with ⟨_, h'⟩ | ⟨k, _, ⟨_, h'⟩ | ⟨_, _, h'⟩ | ⟨_, _, _, h'⟩ | ⟨_, _, _, h'⟩⟩ <;>
        rw [h'] at h <;> cases h <;> decide

theorem RuleSound.encEnd : RuleSound encEndRule := by
  constructor
  · intro s t h
    rcases encEndRule_cases s with ⟨_, he⟩ | ⟨w, _, _, he⟩ | ⟨w, k, _, _, _, he⟩ | ⟨w, k, _, _, _, he⟩ <;>
      rw [he] at h <;> cases h <;> exact ⟨by simp, by simp, by simp, by simp, by simp, .inr rfl⟩
  · intro s e h
    rcases encEndRule_cases s with ⟨_, he⟩ | ⟨w, _, _, he⟩ | ⟨w, k, _, _, _, he⟩ | ⟨w, k, _, _, _, he⟩ <;>
      rw [he] at h <;> cases h
    decide

theorem RuleSound.decByte (b : Byte) : RuleSound (decByteRule b) := by
  constructor
  · intro s t h
    rcases decByteRule_cases b s with ⟨_, he⟩ | ⟨_, ⟨_, he⟩ | ⟨_, _, he⟩ | ⟨sym, _, _, ⟨_, he⟩ | ⟨p, _, _, he⟩ |
      ⟨p, _, _, _, he⟩ | ⟨p, _, _, _, he⟩⟩⟩ <;> rw [he] at h <;> cases h
    all_goals constructor <;> simp [afterInsert, afterRead]
  · intro s e h
    rcases decByteRule_cases b s with ⟨_, he⟩ | ⟨_, ⟨_, he⟩ | ⟨_, _, he⟩ | ⟨sym, _, _, ⟨_, he⟩ | ⟨p, _, _, he⟩ |
      ⟨p, _, _, _, he⟩ | ⟨p, _, _, _, he⟩⟩⟩ <;> rw [he] at h <;> cases h <;> decide

theorem RuleSound.decEnd : RuleSound decEndRule := by
  constructor <;> intro s t h <;> unfold decEndRule at h <;> split at h <;> cases h
  · exact ⟨rfl, rfl, rfl, rfl, rfl, .inr rfl⟩
  · decide

theorem RuleSound.pkAppend (v w : Nat) : RuleSound (emit v w) := by
  constructor
  · intro s t h
    rcases emit_cases v w s with ⟨_, he⟩ | ⟨_, he⟩ <;> rw [he] at h <;> cases h
    exact ⟨rfl, rfl, rfl, rfl, rfl, .inl rfl⟩
  · intro s e h
    rcases emit_cases v w s with ⟨_, he⟩ | ⟨_, he⟩ <;> rw [he] at h <;> cases h
    decide

theorem RuleSound.pkEnd : RuleSound fun s => .ok (s.flush.setPhase .done) := by
  constructor
  · intro s t h
    cases h
    exact ⟨by simp, by simp, by simp, by simp, by simp, .inr rfl⟩
  · intro s e h; cases h

theorem RuleSound.upkByte (b : Byte) : RuleSound (upkByteRule b) := by
  constructor <;> intro s t h <;> unfold upkByteRule at h <;> split at h <;> cases h
  · exact ⟨rfl, rfl, rfl, rfl, rfl, .inl rfl⟩
  · decide

theorem RuleSound.upkRead (w : Nat) : RuleSound (upkReadRule w) := by
  constructor
  · intro s t h
    rcases upkReadRule_cases w s with ⟨_, he⟩ | ⟨_, he⟩ <;> rw [he] at h <;> cases h
    exact ⟨rfl, rfl, rfl, rfl, rfl, .inl rfl⟩
  · intro s e h
    rcases upkReadRule_cases w s with ⟨_, he⟩ | ⟨_, he⟩ <;> rw [he] at h <;> cases h
    decide

theorem RuleSound.upkEnd : RuleSound fun s => .ok ((s.setIbuf []).setPhase .done) := by
  constructor
  · intro s t h; cases h; exact ⟨rfl, rfl, rfl, rfl, rfl, .inr rfl⟩
  · intro s e h; cases h

/-- Every data command is admission followed by a sound rule of its own. -/
theorem exec_data {i : Instr} {p : Call} (h : pipelineOf i = some p) :
    ∃ rule, RuleSound rule ∧ ∀ s, exec i s = runData p i.wellFormed rule s := by
  cases i <;> simp only [pipelineOf, Option.some.injEq, reduceCtorEq] at h <;> subst h
  · exact ⟨_, RuleSound.encByte _, fun _ => rfl⟩
  · exact ⟨_, RuleSound.encEnd, fun _ => rfl⟩
  · exact ⟨_, RuleSound.decByte _, fun _ => rfl⟩
  · exact ⟨_, RuleSound.decEnd, fun _ => rfl⟩
  · exact ⟨_, RuleSound.pkAppend _ _, fun _ => rfl⟩
  · exact ⟨_, RuleSound.pkEnd, fun _ => rfl⟩
  · exact ⟨_, RuleSound.upkByte _, fun _ => rfl⟩
  · exact ⟨_, RuleSound.upkRead _, fun _ => rfl⟩
  · exact ⟨_, RuleSound.upkEnd, fun _ => rfl⟩

/-- Every *_INIT command is admission, the start of a call, and a total rule of its own that starts from it. -/
theorem exec_init {i : Instr} (h : pipelineOf i = none) :
    ∃ (kind : Call) (rule : State → State), kind ≠ .none ∧
      (∀ s : State, KeepsCall (s.startCall kind) (rule (s.startCall kind)) ∧
        (rule (s.startCall kind)).phase = .active ∧ (rule (s.startCall kind)).acc = [] ∧
        (rule (s.startCall kind)).ibuf = [] ∧ (rule (s.startCall kind)).outq = []) ∧
      ∀ s, exec i s = runInit kind (fun s => .ok (rule s)) s := by
  cases i <;> simp only [pipelineOf, reduceCtorEq] at h
  · exact ⟨.enc, fun s => s.dictInit.setWord none, by decide,
      fun s => ⟨⟨rfl, rfl, rfl, rfl, rfl, .inl rfl⟩, rfl, rfl, rfl, rfl⟩, fun _ => rfl⟩
  · exact ⟨.dec, fun s => (s.dictInit.setDnbits (nbits s.dictInit)).setPrev none, by decide,
      fun s => ⟨⟨rfl, rfl, rfl, rfl, rfl, .inl rfl⟩, rfl, rfl, rfl, rfl⟩, fun _ => rfl⟩
  · exact ⟨.pk, fun s => s, by decide, fun s => ⟨⟨rfl, rfl, rfl, rfl, rfl, .inl rfl⟩, rfl, rfl, rfl, rfl⟩, fun _ => rfl⟩
  · exact ⟨.upk, fun s => s.setResult 0, by decide,
      fun s => ⟨⟨rfl, rfl, rfl, rfl, rfl, .inl rfl⟩, rfl, rfl, rfl, rfl⟩, fun _ => rfl⟩

/-- An *_INIT in a running call faults SEQUENCE (40_dispatch.md R101). -/
theorem exec_init_active {i : Instr} {s : State} (h : pipelineOf i = none) (ha : s.phase = .active) :
    exec i s = .next (s.faultEntry .sequence) := by
  obtain ⟨_, _, _, _, he⟩ := exec_init h
  rw [he, runInit_of_active ha]

theorem exec_encInit {s : State} (h : s.phase ≠ .active) :
    exec .encInit s = .next ((s.startCall .enc).dictInit.setWord none) :=
  (runInit_of_inactive h : execEncInit s = _)

theorem exec_decInit {s : State} (h : s.phase ≠ .active) :
    exec .decInit s = .next (((s.startCall .dec).dictInit.setDnbits 9).setPrev none) := by
  have h9 : nbits (s.startCall .dec).dictInit = 9 := by show bitLength 256 = 9; decide
  show execDecInit s = _
  rw [execDecInit, runInit_of_inactive h, h9]
  rfl

theorem exec_pkInit {s : State} (h : s.phase ≠ .active) : exec .pkInit s = .next (s.startCall .pk) :=
  (runInit_of_inactive h : execPkInit s = _)

theorem exec_upkInit {s : State} (h : s.phase ≠ .active) :
    exec .upkInit s = .next ((s.startCall .upk).setResult 0) :=
  (runInit_of_inactive h : execUpkInit s = _)

/-- Everything a data command can do to the state, in one list. -/
theorem runData_cases {p : Call} {legal : Bool} {rule : State → Except Abort State} {s t : State}
    (h : runData p legal rule s = .next t) :
    t = s ∨ (∃ e, (e = .illegalCommand ∨ e = .sequence) ∧ t = s.faultEntry e) ∨
      (s.phase = .active ∧ s.call = p ∧ rule s = .ok t) ∨
      (s.phase = .active ∧ s.call = p ∧ ∃ e, rule s = .error (.raise e) ∧ t = s.faultEntry e) := by
  rcases runData_next h with ⟨_, h⟩ | ⟨_, _, h⟩ | ⟨_, _, _, _, h⟩ | ⟨_, _, _, _, h⟩ | ⟨ha, hc, _, h⟩
  · exact .inl h
  · exact .inr (.inl ⟨_, .inl rfl, h⟩)
  · exact .inl h
  · exact .inr (.inl ⟨_, .inr rfl, h⟩)
  · rcases commit_next h with h | h
    · exact .inr (.inr (.inl ⟨ha, hc, h⟩))
    · exact .inr (.inr (.inr ⟨ha, hc, h⟩))

end Sys2Proof.Machine
end

