-- ==== Sys2Proof/Laws/Host.lean ====
section
/-! SUPPORT. No command reads or writes the host's queues: what exec answers commutes with replacing them. -/

namespace Sys2Proof.Machine

/-- The state with the host's queues replaced. -/
def State.withHost (p : List HostAccess) (r : List Word) (s : State) : State := { s with pending := p, replies := r }

/-- An outcome with its next state mapped. -/
def mapNext (f : State → State) : Host.Outcome State Fault Refusal → Host.Outcome State Fault Refusal
  | .next t => .next (f t)
  | .fault x => .fault x
  | .refused x => .refused x

section
variable (p : List HostAccess) (r : List Word)

theorem commit_withHost {s : State} {a b : Except Abort State} (h : b = a.map (State.withHost p r)) :
    commit (s.withHost p r) b = mapNext (State.withHost p r) (commit s a) := by
  subst h
  match a with
  | .ok t => rfl
  | .error (.raise e) => rfl
  | .error (.stop f) => rfl

theorem emit_withHost (v w : Nat) (s : State) :
    emit v w (s.withHost p r) = (emit v w s).map (State.withHost p r) := by
  unfold emit; split <;> rfl

theorem insertSymbol_withHost (s : State) (w : Symbol) :
    insertSymbol w (s.withHost p r) = (insertSymbol w s).map (State.withHost p r) := by
  show (if (mapGet s.fwd w).isSome then Except.error (Abort.raise .corruptDuplicate)
    else if codeLimit s.params ≤ s.maxCode then .error (.raise .capacity) else .ok ((s.withHost p r).addEntry w)) = _
  unfold insertSymbol
  split
  · rfl
  split <;> rfl

theorem readBits_withHost (n : Nat) (s : State) :
    readBits n (s.withHost p r) = (readBits n s).map fun x => (x.1, x.2.withHost p r) := by
  unfold readBits State.withHost; split <;> rfl

theorem flush_withHost (s : State) : (s.withHost p r).flush = s.flush.withHost p r := by
  unfold State.flush State.withHost; simp only; split <;> rfl

theorem encByteRule_withHost (b : Byte) (s : State) :
    encByteRule b (s.withHost p r) = (encByteRule b s).map (State.withHost p r) := by
  unfold encByteRule
  rw [show (s.withHost p r).word = s.word from rfl]
  rcases s.word with _ | w
  · rfl
  simp only [show lookupCode (s.withHost p r) (w.snoc b) = lookupCode s (w.snoc b) from rfl]
  rcases lookupCode s (w.snoc b) with c | _
  · rfl
  show encMiss w b _ = (encMiss w b _).map _
  unfold encMiss
  rw [show codeOf (s.withHost p r) w = codeOf s w from rfl]
  rcases codeOf s w with e | k
  · rfl
  simp only [bind, Except.bind]
  rw [show nbits (s.withHost p r) = nbits s from rfl, emit_withHost]
  rcases emit k (nbits s) s with e | u
  · rfl
  simp only [Except.map]
  rw [insertSymbol_withHost]
  rcases insertSymbol (w.snoc b) u with e | v <;> rfl

theorem emitWord_withHost (s : State) : emitWord (s.withHost p r) = (emitWord s).map (State.withHost p r) := by
  unfold emitWord
  rw [show (s.withHost p r).word = s.word from rfl]
  rcases s.word with _ | w
  · rfl
  simp only [show codeOf (s.withHost p r) w = codeOf s w from rfl]
  rcases codeOf s w with e | k
  · rfl
  exact emit_withHost p r _ _ _

theorem encEndRule_withHost (s : State) : encEndRule (s.withHost p r) = (encEndRule s).map (State.withHost p r) := by
  unfold encEndRule
  rw [emitWord_withHost]
  rcases emitWord s with e | u
  · rfl
  simp only [bind, Except.bind, Except.map]
  rw [show nbits (u.withHost p r) = nbits u from rfl, emit_withHost]
  rcases emit 0 (nbits u) u with e | v
  · rfl
  simp only [Except.map, flush_withHost]; rfl

theorem growDecoder_withHost (sym : Symbol) (s : State) :
    growDecoder sym (s.withHost p r) = (growDecoder sym s).map (State.withHost p r) := by
  unfold growDecoder
  rw [show (s.withHost p r).prev = s.prev from rfl]
  rcases s.prev with _ | q
  · rfl
  simp only [bind, Except.bind]
  rw [insertSymbol_withHost]
  rcases insertSymbol (q.snoc sym.first) s with e | v <;> rfl

theorem decodeStep_withHost (s : State) : decodeStep (s.withHost p r) = (decodeStep s).map (State.withHost p r) := by
  unfold decodeStep
  rw [show (s.withHost p r).dnbits = s.dnbits from rfl, readBits_withHost]
  rcases readBits s.dnbits s with e | ⟨c, u⟩
  · rfl
  simp only [bind, Except.bind, Except.map]
  split
  · rfl
  rw [show decodedSymbol c (u.withHost p r) = decodedSymbol c u from rfl]
  rcases decodedSymbol c u with e | sym
  · rfl
  simp only
  rw [show State.outSymbol sym (u.withHost p r) = (u.outSymbol sym).withHost p r from rfl, growDecoder_withHost]
  rcases growDecoder sym (u.outSymbol sym) with e | v <;> rfl

theorem decByteRule_withHost (b : Byte) (s : State) :
    decByteRule b (s.withHost p r) = (decByteRule b s).map (State.withHost p r) := by
  unfold decByteRule
  rw [show (s.withHost p r).push b = (s.push b).withHost p r from rfl, decodeStep_withHost]
  by_cases h : s.dnbits ≤ (s.push b).ibuf.length
  · rw [if_pos h, if_pos (by exact h)]
  · rw [if_neg h, if_neg (by exact h)]; rfl

theorem runAdmitted_withHost {a : Admission} {rule : State → Except Abort State}
    (h : ∀ s, rule (s.withHost p r) = (rule s).map (State.withHost p r)) (s : State) :
    runAdmitted a rule (s.withHost p r) = mapNext (State.withHost p r) (runAdmitted a rule s) := by
  cases a
  · exact commit_withHost p r (h s)
  · rfl
  · rfl

theorem runData_withHost {k : Call} {legal : Bool} {rule : State → Except Abort State}
    (h : ∀ s, rule (s.withHost p r) = (rule s).map (State.withHost p r)) (s : State) :
    runData k legal rule (s.withHost p r) = mapNext (State.withHost p r) (runData k legal rule s) := by
  unfold runData
  rw [show (s.withHost p r).phase = s.phase from rfl, show admitData k (s.withHost p r) = admitData k s from rfl,
    runAdmitted_withHost p r h]
  split
  · rfl
  split <;> rfl

theorem runInit_withHost {k : Call} {rule : State → Except Abort State}
    (h : ∀ s, rule (s.withHost p r) = (rule s).map (State.withHost p r)) (s : State) :
    runInit k rule (s.withHost p r) = mapNext (State.withHost p r) (runInit k rule s) := by
  unfold runInit
  rw [show admitInit (s.withHost p r) = admitInit s from rfl]
  exact runAdmitted_withHost p r (rule := fun s => rule (s.startCall k)) (fun s => h (s.startCall k)) s

/-- No command reads or writes the host's queues. -/
theorem exec_withHost (i : Instr) (s : State) :
    exec i (s.withHost p r) = mapNext (State.withHost p r) (exec i s) := by
  cases i
  · exact runInit_withHost p r (rule := fun s => .ok (s.dictInit.setWord none)) (fun _ => rfl) s
  · exact runData_withHost p r (encByteRule_withHost p r _) s
  · exact runData_withHost p r (encEndRule_withHost p r) s
  · exact runInit_withHost p r (rule := fun s => .ok ((s.dictInit.setDnbits (nbits s.dictInit)).setPrev none))
      (fun _ => rfl) s
  · exact runData_withHost p r (decByteRule_withHost p r _) s
  · refine runData_withHost p r (fun s => ?_) s
    unfold decEndRule
    rw [show shortStop (s.withHost p r) = shortStop s from rfl]
    split <;> rfl
  · exact runInit_withHost p r (rule := fun s => .ok s) (fun _ => rfl) s
  · exact runData_withHost p r (emit_withHost p r _ _) s
  · refine runData_withHost p r (fun s => ?_) s
    rw [flush_withHost]; rfl
  · exact runInit_withHost p r (rule := fun s => .ok (s.setResult 0)) (fun _ => rfl) s
  · refine runData_withHost p r (fun s => ?_) s
    unfold upkByteRule State.withHost; simp only; split <;> rfl
  · refine runData_withHost p r (fun s => ?_) s
    unfold upkReadRule
    rw [readBits_withHost]
    rcases readBits _ s with e | v <;> rfl
  · exact runData_withHost p r (rule := fun s => .ok ((s.setIbuf []).setPhase .done)) (fun _ => rfl) s

end

end Sys2Proof.Machine
end

