-- ==== Sys2Proof/Laws/Invariants.lean ====
section
/-! SUPPORT. The dictionary's part of the invariant of 10_state.md R40: what Dict_init and insert do to it, and that it
depends on the dictionary elements alone; and the bounds the parameters give (00_scope.md R5). -/

namespace Sys2Proof.Machine

/-- The items of `Invariant` about the dictionary. -/
structure DictSound (s : State) : Prop where
  canonical : DictCanonical s
  capacity : s.maxCode = 0 ∨ (Seeded s ∧ s.maxCode ≤ codeLimit s.params)
  closed : ParentClosed s
  lengths : LengthsBounded s

theorem Invariant.dict {s : State} (h : Invariant s) : DictSound s := ⟨h.canonical, h.capacity, h.closed, h.lengths⟩

theorem DictSound.congr {s t : State} (h : DictSound s) (hf : t.fwd = s.fwd) (hr : t.rev = s.rev)
    (hm : t.maxCode = s.maxCode) (hp : t.params = s.params) : DictSound t := by
  obtain ⟨a, b, c, d⟩ := h
  refine ⟨a.congr hf hr hm, ?_, ?_, ?_⟩
  · unfold Seeded at *; rw [hm, hf, hp]; exact b
  · unfold ParentClosed State.knows at *; rw [hf]; exact c
  · unfold LengthsBounded at *; rw [hf]; exact d

/-- The bounds of R5. -/
theorem wellFormed_bounds {p : Params} (h : p.wellFormed = true) :
    9 ≤ p.wMax ∧ p.wMax ≤ 30 ∧ p.wMax + 8 ≤ p.ibufBits := by
  simpa [Params.wellFormed, and_assoc] using h

theorem codeLimit_ge {p : Params} (h : p.wellFormed = true) : 511 ≤ codeLimit p := by
  have h2 : 2 ^ 9 ≤ 2 ^ p.wMax := Nat.pow_le_pow_right (by decide) (wellFormed_bounds h).1
  unfold codeLimit; omega

theorem DictSound.dictInit (s : State) (h : s.params.wellFormed = true) : DictSound s.dictInit := by
  have hl := codeLimit_ge h
  refine ⟨DictCanonical.dictInit s, .inr ⟨⟨by simp, fun b => mapGet_seedFwd_single b⟩, by simp; omega⟩, ?_, ?_⟩
  · intro sym hs hr
    obtain ⟨c, hc⟩ := (State.knows_iff_exists _ _).mp hs
    obtain ⟨b, rfl, _⟩ := eq_single_of_mapGet_seedFwd hc
    exact absurd rfl hr
  · intro sym k hg
    obtain ⟨b, rfl, _⟩ := eq_single_of_mapGet_seedFwd hg
    simp [Symbol.length, Symbol.bytes, Symbol.single]

theorem snoc_ne_single (p : Symbol) (x y : Byte) : p.snoc x ≠ Symbol.single y := by
  intro h
  have := congrArg Symbol.rest h
  simp [Symbol.snoc, Symbol.single] at this

/-- An insertion of a known Symbol with one more byte, below the capacity, keeps the dictionary sound
(42_dictionary.md R149). -/
theorem DictSound.addEntry {s : State} (h : DictSound s) (hc : s.maxCode ≠ 0) {p : Symbol} {x : Byte} (hk : s.knows p)
    (hn : mapGet s.fwd (p.snoc x) = none) (hl : s.maxCode < codeLimit s.params) :
    DictSound (s.addEntry (p.snoc x)) := by
  obtain ⟨a, b, c, d⟩ := h
  obtain ⟨⟨b1, b2⟩, b3⟩ := b.resolve_left hc
  refine ⟨a.addEntry _ hn, .inr ⟨⟨by simp; omega, fun y => ?_⟩, by simp; omega⟩, ?_, ?_⟩
  · rw [State.addEntry_fwd, mapGet_mapSet, if_neg (snoc_ne_single p x y)]; exact b2 y
  · intro sym hs hr
    rw [State.knows_addEntry] at hs
    rcases hs with rfl | hs
    · exact ⟨p, x, (State.knows_addEntry _ _ _).mpr (.inr hk), rfl⟩
    · obtain ⟨t, y, ht, rfl⟩ := c sym hs hr
      exact ⟨t, y, (State.knows_addEntry _ _ _).mpr (.inr ht), rfl⟩
  · intro sym k hg
    rw [State.addEntry_fwd, mapGet_mapSet] at hg
    split at hg
    · rename_i e; subst e; cases hg
      obtain ⟨kp, hkp⟩ := (State.knows_iff_exists _ _).mp hk
      have h1 := d p kp hkp
      have h2 := a.code_range hkp
      simp only [Symbol.length, Symbol.bytes, Symbol.snoc, List.length_cons, List.length_append,
        List.length_nil] at h1 ⊢
      omega
    · exact d sym k hg

theorem DictSound.knows_single {s : State} (h : DictSound s) (hc : s.maxCode ≠ 0) (b : Byte) :
    s.knows (Symbol.single b) := by
  obtain ⟨⟨_, h2⟩, _⟩ := h.capacity.resolve_left hc
  unfold State.knows; rw [h2]; rfl

theorem knows_of_mapGet {s : State} {w : Symbol} {c : Nat} (h : mapGet s.fwd w = some c) : s.knows w := by
  unfold State.knows; rw [h]; rfl

/-- A code the dictionary has assigned fits the current width (42_dictionary.md R143). -/
theorem DictCanonical.code_lt {s : State} (h : DictCanonical s) {w : Symbol} {k : Nat} (hk : mapGet s.fwd w = some k) :
    k < 2 ^ nbits s :=
  Nat.lt_of_le_of_lt (h.code_range hk).2 (lt_two_pow_bitLength _)

/-- One more code makes the width at most one bit larger (42_dictionary.md R148). -/
theorem bitLength_succ_le (x : Nat) : bitLength (x + 1) ≤ bitLength x + 1 := by
  rw [bitLength_le_iff, Nat.pow_succ]
  have := lt_two_pow_bitLength x
  omega

end Sys2Proof.Machine
end

