-- ==== Sys2Proof/Laws/PerInstr.lean ====
section
/-! SUPPORT. One lemma per instruction: the three fields of its command word hold its opcode and its operands, each in
its own bits (30_encoding.md R85, R86, R87). -/

namespace Sys2Proof.Laws.EncodedFields

/-- The fields of the word of `i` are the opcode, the width operand and the value operand of `i`. -/
def Statement (i : Instr) : Prop :=
  opField (encode i) = i.opcode ∧ wField (encode i) = i.wOperand ∧ vField (encode i) = i.vOperand

/-- The same for any three fields. -/
theorem of_fields (i : Instr) : Statement i := by
  have h := encode_toNat i
  have ho := i.opcode.isLt
  have hw := i.wOperand.isLt
  have hv := i.vOperand.isLt
  refine ⟨BitVec.eq_of_toNat_eq ?_, BitVec.eq_of_toNat_eq ?_, BitVec.eq_of_toNat_eq ?_⟩
  · rw [opField_toNat]; omega
  · rw [wField_toNat]; omega
  · rw [vField_toNat]; omega

theorem encInit : Statement .encInit := of_fields _
theorem encByte (b : Byte) : Statement (.encByte b) := of_fields _
theorem encEnd : Statement .encEnd := of_fields _
theorem decInit : Statement .decInit := of_fields _
theorem decByte (b : Byte) : Statement (.decByte b) := of_fields _
theorem decEnd : Statement .decEnd := of_fields _
theorem pkInit : Statement .pkInit := of_fields _
theorem pkAppend (w : BitVec 5) (v : BitVec 23) : Statement (.pkAppend w v) := of_fields _
theorem pkEnd : Statement .pkEnd := of_fields _
theorem upkInit : Statement .upkInit := of_fields _
theorem upkByte (b : Byte) : Statement (.upkByte b) := of_fields _
theorem upkRead (w : BitVec 5) : Statement (.upkRead w) := of_fields _
theorem upkEnd : Statement .upkEnd := of_fields _

end Sys2Proof.Laws.EncodedFields
end

