-- ==== Sys2Proof/Laws/Registers.lean ====
section
/-! SUPPORT. The host's accesses: what each read returns, the words of STATUS and OUT as numbers, and everything a step
can do (10_state.md R23, R25, 20_memory.md R61, R62). -/

namespace Sys2Proof.Machine

/-- STATUS as a number: each field at its weight (10_state.md R23). -/
theorem statusWord_toNat (s : State) :
    (statusWord s).toNat = statusNbits s % 32 * 2 ^ 16 + (outNe s).toNat * 2 ^ 12 + (errBits s.err).toNat * 2 ^ 8 +
      (callBits s.call).toNat * 2 ^ 2 + (phaseBits s.phase).toNat := by
  have app : ∀ {n m : Nat} (x : BitVec n) (y : BitVec m), (x ++ y).toNat = x.toNat * 2 ^ m + y.toNat := by
    intro n m x y
    rw [BitVec.toNat_append, ← Nat.shiftLeft_add_eq_or_of_lt y.isLt, Nat.shiftLeft_eq]
  unfold statusWord
  rw [app, app, app, app, app, app, app, BitVec.toNat_ofNat]
  simp
  omega

/-- OUT with a byte waiting: VALID and the byte (10_state.md R25). -/
theorem outWord_toNat {s : State} {b : Byte} {q : List Byte} (h : s.outq = b :: q) :
    (outWord s).toNat = 256 + b.toNat := by
  have hb := b.isLt
  have hor : (0x100#32 ||| b.setWidth 32) = 0x100#32 + b.setWidth 32 := by
    rw [BitVec.add_eq_or_of_and_eq_zero]
    apply BitVec.eq_of_getLsbD_eq
    intro i hi
    interval_cases i <;> simp
  have hw : outWord s = 0x100#32 ||| b.setWidth 32 := by simp only [outWord, h]; rfl
  rw [hw, hor, BitVec.toNat_add, BitVec.toNat_setWidth]
  simp; omega

theorem takeAccess_of_pending {s : State} {a : HostAccess} {rest : List HostAccess} (h : s.pending = a :: rest) :
    s.takeAccess = { s with pending := rest } := by
  unfold State.takeAccess; rw [h]; rfl

theorem step_read_status {s : State} {rest : List HostAccess} (h : s.pending = .read 0x04#5 4 :: rest) :
    step s = .next { s with pending := rest, replies := s.replies ++ [statusWord s] } := by
  rw [step_of_access h, takeAccess_of_pending h]; rfl

theorem step_read_out {s : State} {rest : List HostAccess} (h : s.pending = .read 0x08#5 4 :: rest) :
    step s = .next { s with pending := rest, outq := s.outq.drop 1, replies := s.replies ++ [outWord s] } := by
  rw [step_of_access h, takeAccess_of_pending h]; rfl

theorem step_read_result {s : State} {rest : List HostAccess} (h : s.pending = .read 0x0C#5 4 :: rest) :
    step s = .next { s with pending := rest, replies := s.replies ++ [resultWord s] } := by
  rw [step_of_access h, takeAccess_of_pending h]; rfl

theorem step_read_maxcode {s : State} {rest : List HostAccess} (h : s.pending = .read 0x10#5 4 :: rest) :
    step s = .next { s with pending := rest, replies := s.replies ++ [maxcodeWord s] } := by
  rw [step_of_access h, takeAccess_of_pending h]; rfl

theorem step_reset {s : State} {rest : List HostAccess} (h : s.pending = .reset :: rest) :
    step s = .next { s with pending := rest }.resetBlock := by
  rw [step_of_access h, takeAccess_of_pending h]; rfl

/-- A host write is refused or runs a command word. -/
theorem hostWrite_cases (o : BitVec 5) (n : Nat) (x : Word) (s : State) :
    (∃ r, hostWrite o n x s = .refused r) ∨ (o = 0 ∧ n = 4 ∧ hostWrite o n x s = runWord x s) := by
  unfold hostWrite
  rcases ha : accessProblem o n with _ | r
  · by_cases ho : o = offCmd
    · right
      unfold accessProblem at ha
      split at ha
      · cases ha
      · rename_i hn
        exact ⟨ho, by simpa using hn, by simp [ho]⟩
    · left; simp [ho]
  · left; exact ⟨r, rfl⟩

/-- A host read that is not refused returns one word and takes at most the oldest byte of OUTQ. -/
theorem hostRead_next {o : BitVec 5} {n : Nat} {s t : State} (h : hostRead o n s = .next t) :
    ∃ v q, t = { s with replies := s.replies ++ [v], outq := q } ∧
      (q = s.outq ∨ (o = 0x08#5 ∧ q = s.outq.drop 1)) := by
  unfold hostRead at h
  split at h
  · cases h
  · split_ifs at h <;> cases h
    · exact ⟨_, _, rfl, .inl rfl⟩
    · exact ⟨_, _, rfl, .inr ⟨by assumption, rfl⟩⟩
    · exact ⟨_, _, rfl, .inl rfl⟩
    · exact ⟨_, _, rfl, .inl rfl⟩

/-- Everything a step can do: nothing, a reset, a command word, or a read. -/
theorem step_cases {s t : State} (h : step s = .next t) :
    (s.pending = [] ∧ t = s) ∨
    (∃ rest, s.pending = .reset :: rest ∧ t = { s with pending := rest }.resetBlock) ∨
    (∃ w rest, s.pending = .write 0x00#5 4 w :: rest ∧ runWord w { s with pending := rest } = .next t) ∨
    (∃ o rest v q, s.pending = .read o 4 :: rest ∧
      t = { s with pending := rest, replies := s.replies ++ [v], outq := q } ∧
      (q = s.outq ∨ (o = 0x08#5 ∧ q = s.outq.drop 1))) := by
  rcases hp : s.pending with _ | ⟨a, rest⟩
  · rw [step_of_idle hp] at h; cases h; exact .inl ⟨rfl, rfl⟩
  rw [step_of_access hp, takeAccess_of_pending hp] at h
  rcases a with ⟨o, n, x⟩ | ⟨o, n⟩ | _
  · rcases hostWrite_cases o n x { s with pending := rest } with ⟨r, hr⟩ | ⟨rfl, rfl, hr⟩
    · rw [performAccess, hr] at h; cases h
    · rw [performAccess, hr] at h
      exact .inr (.inr (.inl ⟨x, rest, rfl, h⟩))
  · have hn : n = 4 := by
      by_contra hn
      simp [performAccess, hostRead, accessProblem, hn] at h
    subst hn
    obtain ⟨v, q, rfl, hq⟩ := hostRead_next (h : hostRead o 4 _ = _)
    exact .inr (.inr (.inr ⟨o, rest, v, q, rfl, rfl, hq⟩))
  · cases h; exact .inr (.inl ⟨rest, rfl, rfl⟩)

end Sys2Proof.Machine
end

