-- ==== Sys2Proof/Tests/Slice0.lean ====
section
/-! SUPPORT. The model's own tests, each on one step or one word with the expected result taken from the spec
(95_test_vectors.md unless the comment says otherwise), and a named witness for the hypotheses of every statement of
Certificates/Slice0/Obligations.lean that has some. -/

namespace Sys2Proof.Machine.Tests

/-! ## WellFormed: an ill-formed term for each check -/

/-- A PK_APPEND of width 24 is refused (30_encoding.md R86, R89). -/
theorem test_wellFormed_append : (Instr.pkAppend 24 0).wellFormed = false ∧ (Instr.pkAppend 23 0).wellFormed = true := by
  decide

/-- An UPK_READ of width 24 is refused (30_encoding.md R86, R89). -/
theorem test_wellFormed_read : (Instr.upkRead 24).wellFormed = false ∧ (Instr.upkRead 23).wellFormed = true := by
  decide

/-- Parameters R5 forbids: W_MAX below 9, above 30, an IBUF that cannot hold W_MAX + 8 bits. -/
theorem test_params_bounds :
    (Params.mk 8 24 true).wellFormed = false ∧ (Params.mk 31 64 true).wellFormed = false ∧
      (Params.mk 16 23 true).wellFormed = false ∧ Params.reference.wellFormed = true ∧
      (Params.mk 9 17 false).wellFormed = true ∧ (Params.mk 30 38 false).wellFormed = true := by
  decide

/-! ## Decode: every constructor's word, bit by bit (OP, W, V of 30_encoding.md R85 to R87) -/

theorem test_decode_encInit : decodeCmd 0b0001_00000_00000000000000000000000 = .ok .encInit := by decide
theorem test_decode_encByte : decodeCmd 0b0010_00000_00000000000000001100001 = .ok (.encByte 0x61) := by decide
theorem test_decode_encEnd : decodeCmd 0b0011_00000_00000000000000000000000 = .ok .encEnd := by decide
theorem test_decode_decInit : decodeCmd 0b0100_00000_00000000000000000000000 = .ok .decInit := by decide
theorem test_decode_decByte : decodeCmd 0b0101_00000_00000000000000001000000 = .ok (.decByte 0x40) := by decide
theorem test_decode_decEnd : decodeCmd 0b0110_00000_00000000000000000000000 = .ok .decEnd := by decide
theorem test_decode_pkInit : decodeCmd 0b0111_00000_00000000000000000000000 = .ok .pkInit := by decide
/-- P3: `0x84800101 = OP 0x8, W 9 (bits [27:23] = 01001), V 257`. -/
theorem test_decode_pkAppend : decodeCmd 0b1000_01001_00000000000000100000001 = .ok (.pkAppend 9 257) := by decide
theorem test_decode_pkEnd : decodeCmd 0b1001_00000_00000000000000000000000 = .ok .pkEnd := by decide
theorem test_decode_upkInit : decodeCmd 0b1010_00000_00000000000000000000000 = .ok .upkInit := by decide
theorem test_decode_upkByte : decodeCmd 0b1011_00000_00000000000000010100101 = .ok (.upkByte 0xA5) := by decide
/-- V-UPK-05: UPK_READ 23 is 0xCB800000. -/
theorem test_decode_upkRead : decodeCmd 0b1100_10111_00000000000000000000000 = .ok (.upkRead 23) := by decide
theorem test_decode_upkEnd : decodeCmd 0b1101_00000_00000000000000000000000 = .ok .upkEnd := by decide

/-- V-CMD-08 to V-CMD-16: the illegal words. -/
theorem test_decode_illegal :
    [0x00000000, 0xE0000000, 0xF0000000, 0xFFFFFFFF].map decodeCmd = List.replicate 4 (.error .reservedOpcode) ∧
    [0x10000001, 0x30800000, 0x20000100, 0xC1800001].map decodeCmd = List.replicate 4 (.error .nonzeroField) ∧
    decodeCmd 0x8C000000 = .error .widthAbove23 := by
  decide

/-- The words of P3, P4 and section 3.2, as the encoder writes them. -/
theorem test_encode :
    encode (.pkAppend 9 98) = 0x84800062 ∧ encode (.pkAppend 23 0x400000) = 0x8BC00000 ∧
      encode (.upkRead 9) = 0xC4800000 ∧ encode (.encByte 0x78) = 0x20000078 := by
  decide

/-- The table's numbering: one 32-bit word, its bit 0 the least significant. -/
theorem test_tableWord : decodeTableWord 32 0xB00000A5 = some (.upkByte 0xA5) ∧ decodeTableWord 32 0 = none := by decide

/-! ## States -/

/-- The reset state in a given phase of a given call. -/
def blk (p : Phase) (c : Call) : State := { State.reset with phase := p, call := c }

/-- A running encode call with a seeded dictionary. -/
def encState (word : Option Symbol) (acc : List Bool) : State :=
  { (blk .active .enc).dictInit with word := word, acc := acc }

/-- A running decode call with a seeded dictionary. -/
def decState (prev : Option Symbol) (ibuf : List Bool) : State :=
  { (blk .active .dec).dictInit with prev := prev, ibuf := ibuf, dnbits := 9 }

/-- The one-byte Symbol "a". -/
def symA : Symbol := ⟨0x61, []⟩

/-- What a test looks at: STATUS after one step of the machine that runs the command word. -/
def statusAfter (w : Word) (s : State) : Option Word := (nextState (step (s.withNextCommand w))).map statusWord

/-! ## One step of each command -/

/-- V-CMD-01. -/
theorem test_encInit :
    (nextState (execEncInit State.reset)).map (fun t => (statusWord t, maxcodeWord t)) = some (0x00090005, 256) := by
  decide +kernel

/-- P5 command 3: an ENC_INIT in a running call. -/
theorem test_encInit_active : statusAfter 0x10000000 (encState (some ⟨0x78, []⟩) []) = some 0x00090207 := by decide +kernel

/-- P1 step 3: "aa" misses; 98/9 is written, "aa" becomes 257. -/
theorem test_encByte_miss :
    (nextState (execEncByte 0x61 (encState (some symA) []))).map
      (fun t => (t.word, t.outq, t.acc, mapGet t.fwd ⟨0x61, [0x61]⟩)) =
        some (some symA, [0x31], [false], some 257) := by
  decide +kernel

/-- V-ENC-15: at CODE_LIMIT the miss faults CAPACITY and writes nothing (W_MAX = 9, the code of WORD at hand). -/
theorem test_encByte_capacity :
    (nextState (execEncByte 0x00 { blk .active .enc with
        params := ⟨9, 17, true⟩, fwd := [(symA, 98)], maxCode := 511, word := some symA })).map
      (fun t => (t.phase, t.err, t.maxCode, t.outq, t.acc)) = some (.fault, .capacity, 511, [], []) := by
  decide

/-- P1 step 6: 98/9 and 0/9, then the padding. -/
theorem test_encEnd :
    (nextState (execEncEnd { encState (some symA) [false, true] with outq := [0x31, 0x40] })).map
      (fun t => (t.word, t.outq, t.acc, t.phase)) = some (none, [0x31, 0x40, 0x4C, 0x40, 0x00], [], .done) := by
  decide +kernel

/-- V-ENC-01: the empty input gives two zero bytes. -/
theorem test_encEnd_empty :
    (nextState (execEncEnd (encState none []))).map (fun t => (t.outq, statusWord t)) =
      some ([0x00, 0x00], 0x00091006) := by
  decide +kernel

/-- V-CMD-03. -/
theorem test_decInit : statusAfter 0x40000000 State.reset = some 0x00090009 := by decide +kernel

/-- P2 step 4: code 257 while MAX_CODE is 256 and PREV is "a". -/
theorem test_decByte_pendingInsert :
    (nextState (execDecByte 0x4C { decState (some symA) [true, false, false, false, false, false, false] with
        outq := [0x61] })).map
      (fun t => (t.prev, t.maxCode, t.dnbits, t.outq, t.ibuf)) =
        some (some ⟨0x61, [0x61]⟩, 257, 9, [0x61, 0x61, 0x61], [false, false, true, true, false, false]) := by
  decide +kernel

/-- V-DEC-10: the first code is 257 with PREV = NONE. -/
theorem test_decByte_badCode :
    statusAfter 0x50000080 (decState none (byteBits 0x80)) = some 0x0009050B := by
  decide +kernel

/-- V-DEC-08: DEC_END after one byte. -/
theorem test_decEnd_truncated : statusAfter 0x60000000 (decState none (byteBits 0x00)) = some 0x0009040B := by
  decide +kernel

/-- 44_decoder.md R195, the case of V-DEC-15 at 9 bits: MAX_CODE 511, DNBITS 10, nine zero bits left. -/
theorem test_decEnd_shortStop :
    (nextState (execDecEnd { blk .active .dec with
        maxCode := 511, dnbits := 10, prev := some symA, ibuf := zeroBits 9 })).map
      (fun t => (statusWord t, t.ibuf)) = some (0x000A000A, []) := by
  decide

/-- V-CMD-04. -/
theorem test_pkInit : statusAfter 0x70000000 State.reset = some 0x0000000D := by decide

/-- P3 line 3: 257/9 after one bit in ACC. -/
theorem test_pkAppend :
    (nextState (execPkAppend 9 257 { blk .active .pk with acc := [false], outq := [0x31] })).map
      (fun t => (t.outq, t.acc)) = some ([0x31, 0x40], [false, true]) := by
  decide

/-- V-PK-03: 1 >= 2^0. -/
theorem test_pkAppend_precondition : statusAfter 0x80000001 (blk .active .pk) = some 0x0000030F := by decide

/-- V-PK-01: 101 and five pad bits. -/
theorem test_pkEnd :
    (nextState (execPkEnd { blk .active .pk with acc := [true, false, true] })).map
      (fun t => (t.outq, t.acc, statusWord t)) = some ([0xA0], [], 0x0000100E) := by
  decide

/-- V-PK-10: the second PK_END. -/
theorem test_pkEnd_done : statusAfter 0x90000000 (blk .done .pk) = some 0x0000020F := by decide

/-- V-CMD-05, with RESULT cleared (41_bitpacker.md R124). -/
theorem test_upkInit :
    (nextState (execUpkInit { State.reset with resultv := 5 })).map (fun t => (statusWord t, resultWord t)) =
      some (0x00000011, 0) := by
  decide

/-- V-UPK-01: a byte enters MSB first. -/
theorem test_upkByte :
    (nextState (execUpkByte 0xA5 (blk .active .upk))).map (fun t => t.ibuf) =
      some [true, false, true, false, false, true, false, true] := by
  decide

/-- V-UPK-04: 23 + 8 > 24. -/
theorem test_upkByte_overflow : statusAfter 0xB0000004 { blk .active .upk with ibuf := zeroBits 23 } = some 0x00000813 := by
  decide

/-- V-UPK-05: the widest read. -/
theorem test_upkRead :
    (nextState (execUpkRead 23 { blk .active .upk with ibuf := bitsOf 24 0x123456 })).map
      (fun t => (t.resultv, t.ibuf)) = some (596523, [false]) := by
  decide

/-- P4: 7 bits left, 9 needed; RESULT and IBUF stay. -/
theorem test_upkRead_truncated :
    (nextState (execUpkRead 9 { blk .active .upk with ibuf := bitsOf 7 64, resultv := 98 })).map
      (fun t => (statusWord t, t.resultv, t.ibuf)) = some (0x00000413, 98, bitsOf 7 64) := by
  decide

/-- V-UPK-07: leftover bits are discarded. -/
theorem test_upkEnd :
    (nextState (execUpkEnd { blk .active .upk with ibuf := [true, true, true, true, true], resultv := 7 })).map
      (fun t => (statusWord t, t.resultv, t.ibuf)) = some (0x00000012, 7, []) := by
  decide

/-! ## The host's accesses -/

/-- V-ENC-20: a read of OUT returns 0x131 and removes the byte. -/
theorem test_read_out :
    (nextState (step { blk .done .enc with outq := [0x31, 0x00], pending := [.read offOut 4] })).map
      (fun t => (t.replies, t.outq)) = some ([0x131], [0x00]) := by
  decide

/-- An illegal word inside a PK call keeps CALL (V-PK-08), and in FAULT it is ignored (V-FLT-01). -/
theorem test_illegal_word :
    statusAfter 0x8C000000 (blk .active .pk) = some 0x0000010F ∧
      statusAfter 0xF0000000 { blk .fault .none with err := .illegalCommand } = some 0x00000103 := by
  decide

/-- 20_memory.md R62: the five kinds of access outside the protocol. -/
theorem test_refused_accesses :
    [HostAccess.read 0x04 2, .read 0x06 4, .read 0x14 4, .write 0x10 4 0, .read 0x00 4].map
      (fun a => performAccess a State.reset) =
    [.refused .accessNotWord, .refused .accessMisaligned, .refused .accessUnmapped, .refused .writeToReadOnly,
      .refused .readOfCmd] :=
  rfl

/-- P5's DRAIN as a host reads it (70_reset_and_hazards.md R253). -/
theorem test_drainedBytes : drainedBytes [0x13D, 0x100, 0x100, 0x000] = [0x3D, 0x00, 0x00] := by decide

/-- P3's assembler lines (30_encoding.md R91). -/
theorem test_assembly : assembly (.pkAppend 9 98) = "PK_APPEND 9, 98" ∧ assembly .pkEnd = "PK_END" := by decide

/-- The core runs a word placed by withFetchWord as its first step after reset (V-CMD-05). -/
theorem test_core_runs_word :
    (nextState (core.step (core.reset.withFetchWord 32 0xA0000000))).map statusWord = some 0x00000011 := by
  decide

/-! ## Witnesses: for every statement with hypotheses, states and operands that meet them, clause by clause -/

theorem exists_next {o : Host.Outcome State Fault Refusal} (h : (nextState o).isSome = true) : ∃ t, o = .next t := by
  cases o <;> simp_all [nextState]

/-- A clause's conclusion at a next state, from a test that evaluates. -/
theorem exists_next_of {o : Host.Outcome State Fault Refusal} {p : State → Bool}
    (h : (nextState o).any p = true) : ∃ t, o = .next t ∧ p t = true := by
  cases o <;> simp_all [nextState]

/-! ### States that meet the invariant -/

theorem seeded_dict : DictSound (blk .active .enc).dictInit := DictSound.dictInit _ (by decide)

/-- Running encode calls on the seeded dictionary, WORD empty or one byte, up to 7 bits in ACC. -/
theorem encState_invariant (w : Option Symbol) (acc : List Bool) (hw : ∀ x, w = some x → ∃ b, x = Symbol.single b)
    (ha : acc.length ≤ 7) : Invariant (encState w acc) := by
  have hd : DictSound (encState w acc) := seeded_dict.congr rfl rfl rfl rfl
  exact
    { params := by show Params.reference.wellFormed = true; decide
      canonical := hd.canonical, capacity := hd.capacity, closed := hd.closed, lengths := hd.lengths, acc := ha
      ibuf := by show ([] : List Bool).length ≤ 24; decide
      dnbits := by show 0 ≤ 17; decide
      err := ⟨fun _ h => (by cases h), fun _ => rfl⟩
      idle := fun h => by cases h
      noCall := fun h => by cases h
      seeded := fun _ h => by cases h
      decWidth := fun h => by cases h
      encWord := fun _ _ x hx => by obtain ⟨b, rfl⟩ := hw x hx; exact hd.knows_single (by show 256 ≠ 0; decide) b
      decBits := fun h => by cases h
      decNext := fun h => by cases h
      decFirst := fun h => by cases h
      decPrev := fun h => by cases h }

/-- Running decode calls on the seeded dictionary, PREV empty or one byte, up to 8 bits in IBUF. -/
theorem decState_invariant (p : Option Symbol) (ibuf : List Bool) (hp : ∀ x, p = some x → ∃ b, x = Symbol.single b)
    (hi : ibuf.length ≤ 8) : Invariant (decState p ibuf) := by
  have hd : DictSound (decState p ibuf) := seeded_dict.congr rfl rfl rfl rfl
  exact
    { params := by show Params.reference.wellFormed = true; decide
      canonical := hd.canonical, capacity := hd.capacity, closed := hd.closed, lengths := hd.lengths
      acc := by show ([] : List Bool).length ≤ 7; decide
      ibuf := by show ibuf.length ≤ 24; omega
      dnbits := by show 9 ≤ 17; decide
      err := ⟨fun _ h => (by cases h), fun _ => rfl⟩
      idle := fun h => by cases h
      noCall := fun h => by cases h
      seeded := fun _ h => by cases h
      decWidth := fun _ => by show 9 ≤ 9; decide
      encWord := fun h => by cases h
      decBits := fun _ _ => by show ibuf.length < 9; omega
      decNext := fun _ _ => by show 9 = bitLength 257; decide
      decFirst := fun _ _ _ => rfl
      decPrev := fun _ _ x hx => by obtain ⟨b, rfl⟩ := hp x hx; exact hd.knows_single (by show 256 ≠ 0; decide) b }

/-- A running raw-pack call after reset: the dictionary is empty. -/
theorem pkState_invariant : Invariant (blk .active .pk) where
  params := by decide
  canonical := ⟨rfl, rfl, List.nodup_nil⟩
  capacity := .inl rfl
  closed := fun sym h => by cases h
  lengths := fun sym k h => by cases h
  acc := by decide
  ibuf := by decide
  dnbits := by decide
  err := ⟨fun _ h => (by cases h), fun _ => rfl⟩
  idle := fun h => by cases h
  noCall := fun h => by cases h
  seeded := fun h => by rcases h with h | h <;> cases h
  decWidth := fun h => by cases h
  encWord := fun h => by cases h
  decBits := fun h => by cases h
  decNext := fun h => by cases h
  decFirst := fun h => by cases h
  decPrev := fun h => by cases h

/-- The invariant does not look at the host's queues. -/
theorem invariant_pending {s : State} (h : Invariant s) (a : List HostAccess) : Invariant { s with pending := a } :=
  { h with
    canonical := h.canonical.congr rfl rfl rfl
    capacity := h.capacity
    closed := h.closed
    lengths := h.lengths }

/-- A running decode call after n insertions, of ever longer runs of "a". -/
theorem exists_grown (n : Nat) (hn : n ≤ 255) :
    ∃ s : State, DictSound s ∧ s.maxCode = 256 + n ∧ s.params = Params.reference ∧ s.call = .dec ∧ s.phase = .active ∧
      s.err = .none ∧ s.acc = [] ∧ s.knows ⟨0x61, List.replicate n 0x61⟩ ∧
      ∀ sym c, mapGet s.fwd sym = some c → sym.rest.length ≤ n := by
  induction n with
  | zero =>
    have hd : DictSound (blk .active .dec).dictInit := DictSound.dictInit _ (by decide)
    refine ⟨_, hd, rfl, rfl, rfl, rfl, rfl, rfl, hd.knows_single (by show 256 ≠ 0; decide) 0x61, fun sym c h => ?_⟩
    obtain ⟨b, rfl, _⟩ := eq_single_of_mapGet_seedFwd h
    exact Nat.le_refl 0
  | succ n ih =>
    obtain ⟨s, hd, hm, hp, hc, ha, he, hacc, hk, hl⟩ := ih (by omega)
    have hnone : mapGet s.fwd (Symbol.snoc ⟨0x61, List.replicate n 0x61⟩ 0x61) = none := by
      rcases hg : mapGet s.fwd (Symbol.snoc ⟨0x61, List.replicate n 0x61⟩ 0x61) with _ | c
      · rfl
      · have := hl _ _ hg
        simp [Symbol.snoc] at this
    have hlim : codeLimit s.params = 65535 := by rw [hp]; decide
    have hrep : (⟨0x61, List.replicate (n + 1) 0x61⟩ : Symbol) = Symbol.snoc ⟨0x61, List.replicate n 0x61⟩ 0x61 := by
      rw [Symbol.snoc, List.replicate_succ']
    refine ⟨s.addEntry (Symbol.snoc ⟨0x61, List.replicate n 0x61⟩ 0x61), hd.addEntry (by omega) hk hnone (by omega), ?_,
      hp, hc, ha, he, hacc, ?_, ?_⟩
    · rw [State.addEntry_maxCode, hm]; omega
    · rw [hrep]; exact (State.knows_addEntry _ _ _).mpr (.inl rfl)
    · intro sym c h
      rw [State.addEntry_fwd, mapGet_mapSet] at h
      split at h
      · rename_i e; subst e; simp [Symbol.snoc]
      · have := hl sym c h; omega

/-- Nine zero bits left and DNBITS 10. -/
def withShortStop (s : State) : State := { s with prev := some symA, dnbits := 10, ibuf := zeroBits 9 }

theorem withShortStop_invariant {s : State} (hd : DictSound s) (hm : s.maxCode = 511) (hp : s.params = Params.reference)
    (hc : s.call = .dec) (ha : s.phase = .active) (he : s.err = .none) (hacc : s.acc = []) :
    Invariant (withShortStop s) := by
  have hd' : DictSound (withShortStop s) := hd.congr rfl rfl rfl rfl
  exact
    { params := by show s.params.wellFormed = true; rw [hp]; decide
      canonical := hd'.canonical, capacity := hd'.capacity, closed := hd'.closed, lengths := hd'.lengths
      acc := by show s.acc.length ≤ 7; rw [hacc]; decide
      ibuf := by show (zeroBits 9).length ≤ s.params.ibufBits; rw [hp]; decide
      dnbits := by show 10 ≤ s.params.wMax + 1; rw [hp]; decide
      err := by show s.err = .none ↔ s.phase ≠ .fault; rw [he, ha]; decide
      idle := fun h => by rw [show (withShortStop s).phase = .active from ha] at h; cases h
      noCall := fun h => by rw [show (withShortStop s).call = .dec from hc] at h; cases h
      seeded := fun _ => by show s.maxCode ≠ 0; omega
      decWidth := fun _ => by show 9 ≤ 10; decide
      encWord := fun h => by rw [show (withShortStop s).call = .dec from hc] at h; cases h
      decBits := fun _ _ => by show (zeroBits 9).length < 10; decide
      decNext := fun _ _ => by show 10 = bitLength (s.maxCode + 1); rw [hm]; decide
      decFirst := fun _ _ h => by cases h
      decPrev := fun _ _ p h => by cases h; exact hd'.knows_single (by show s.maxCode ≠ 0; omega) 0x61 }

theorem withShortStop_ends {s : State} (hm : s.maxCode = 511) (hp : s.params = Params.reference) (hc : s.call = .dec)
    (ha : s.phase = .active) : ∃ t, exec .decEnd (withShortStop s) = .next t ∧ t.phase = .done := by
  have hs : shortStop (withShortStop s) = true := by
    show (s.params.shortStopOk && true && decide ((zeroBits 9).length = bitLength s.maxCode) &&
      decide ((zeroBits 9).length < 10) && decide (zeroBits 9 = zeroBits (zeroBits 9).length)) = true
    rw [hm, hp]; decide
  refine ⟨((withShortStop s).setIbuf []).setPhase .done, ?_, rfl⟩
  show runData .dec true decEndRule (withShortStop s) = _
  rw [runData_of_active (s := withShortStop s) ha hc, decEndRule, if_pos hs]
  rfl

/-- The hypotheses of the last clause of DecEndAcceptsOnlyShortStop: MAX_CODE 511 after 255 insertions. -/
theorem witness_DecEndAcceptsOnlyShortStop_reachable :
    ∃ s t : State, Invariant s ∧ s.call = .dec ∧ s.phase = .active ∧ exec .decEnd s = .next t ∧ t.phase = .done := by
  obtain ⟨s, hd, hm, hp, hc, ha, he, hacc, _⟩ := exists_grown 255 (Nat.le_refl 255)
  obtain ⟨t, h1, h2⟩ := withShortStop_ends hm hp hc ha
  exact ⟨_, t, withShortStop_invariant hd hm hp hc ha he hacc, hc, ha, h1, h2⟩

/-! ### Encoding -/

theorem witness_DecodeInvertsEncode : (Instr.pkAppend 23 0x7FFFFF).wellFormed = true ∧ (Instr.upkRead 0).wellFormed = true := by
  decide

theorem witness_LegalWordIsItsEncoding : decodeCmd 0x8BFFFFFF = .ok (.pkAppend 23 0x7FFFFF) := by decide

theorem witness_OperandsTakenFromTheirFields :
    (decodeCmd 0x200000FF = .ok (.encByte 0xFF)) ∧ (decodeCmd 0x50000000 = .ok (.decByte 0)) ∧
    (decodeCmd 0xB00000A5 = .ok (.upkByte 0xA5)) ∧ (decodeCmd 0x8BFFFFFF = .ok (.pkAppend 23 0x7FFFFF)) ∧
    (decodeCmd 0xCB800000 = .ok (.upkRead 23)) ∧
    ((23 : BitVec 5).toNat ≤ 23 ∧ 2 ^ (0 : BitVec 5).toNat ≤ (1 : BitVec 23).toNat ∧ (blk .active .pk).call = .pk ∧
      (blk .active .pk).phase = .active) := by
  decide

theorem witness_IllegalWordsRaiseIllegalCommand :
    decodeCmd 0x8C000000 = .error .widthAbove23 ∧ (blk .idle .none).phase ≠ .fault ∧ (blk .fault .enc).phase = .fault := by
  decide

/-! ### Steps and the host's registers -/

theorem witness_StepRunsDecodedCommand :
    ({ blk .active .pk with pending := [.write 0x00#5 4 0x81800005, .read 0x08#5 4] }).pending =
        .write 0x00#5 4 0x81800005 :: [.read 0x08#5 4] ∧
      decodeCmd 0x81800005 = .ok (.pkAppend 3 5) ∧ decodeTableWord 32 0x81800005 = some (.pkAppend 3 5) := by
  decide

theorem witness_WaitingHoldsState : (blk .active .dec).pending = [] := rfl

theorem witness_StatusReadReportsFields :
    ({ blk .done .enc with pending := [.read 0x04#5 4] }).pending = .read 0x04#5 4 :: [] ∧
      ({ blk .done .enc with pending := [.write 0x04#5 4 0] }).pending = .write 0x04#5 4 0 :: [] := by
  decide

theorem witness_StatusNbitsIsNextWidth :
    (∃ s, Invariant s ∧ s.pending = .read 0x04#5 4 :: [] ∧ s.call = .enc) ∧
    (∃ s, Invariant s ∧ s.pending = .read 0x04#5 4 :: [] ∧ s.call = .dec) ∧
    (∃ s, Invariant s ∧ s.pending = .read 0x04#5 4 :: [] ∧ s.call ≠ .enc ∧ s.call ≠ .dec) :=
  ⟨⟨_, invariant_pending (encState_invariant none [] (fun _ h => by cases h) (by decide)) _, rfl, rfl⟩,
    ⟨_, invariant_pending (decState_invariant none [] (fun _ h => by cases h) (by decide)) _, rfl, rfl⟩,
    ⟨_, invariant_pending pkState_invariant _, rfl, by decide, by decide⟩⟩

theorem witness_OutReadPopsOldestByte :
    (∃ s : State, s.pending = .read 0x08#5 4 :: [] ∧ s.outq = []) ∧
      ∃ s : State, s.pending = .read 0x08#5 4 :: [] ∧ s.outq = 0x31 :: [] :=
  ⟨⟨{ blk .active .enc with pending := [.read 0x08#5 4] }, rfl, rfl⟩,
    ⟨{ blk .done .enc with pending := [.read 0x08#5 4], outq := [0x31] }, rfl, rfl⟩⟩

theorem witness_ResultRegisterHoldsLastRead :
    (∃ s : State, s.pending = .read 0x0C#5 4 :: []) ∧
      ∃ t, exec (.upkRead 3) { blk .active .upk with ibuf := byteBits 0xA5 } = .next t ∧
        t.resultv ≠ ({ blk .active .upk with ibuf := byteBits 0xA5 }).resultv := by
  refine ⟨⟨{ blk .done .upk with pending := [.read 0x0C#5 4] }, rfl⟩, ?_⟩
  obtain ⟨t, h1, h2⟩ := exists_next_of (o := exec (.upkRead 3) { blk .active .upk with ibuf := byteBits 0xA5 })
    (p := fun t => decide (t.resultv = 5)) (by decide)
  exact ⟨t, h1, by rw [of_decide_eq_true h2]; decide⟩

theorem witness_MaxcodeRegisterReadsMaxCode :
    (∃ s, Invariant s ∧ s.pending = .read 0x10#5 4 :: []) ∧ (blk .done .enc).phase ≠ .active ∧
      (∃ t, exec (.encByte 0x61) (encState (some symA) []) = .next t ∧ t.maxCode = 257) ∧
      Instr.encByte 0x61 ≠ .encInit ∧ Instr.encByte 0x61 ≠ .decInit := by
  refine ⟨⟨_, invariant_pending (encState_invariant none [] (fun _ h => by cases h) (by decide)) _, rfl⟩, by decide, ?_,
    by decide, by decide⟩
  obtain ⟨t, h1, h2⟩ := exists_next_of (o := exec (.encByte 0x61) (encState (some symA) []))
    (p := fun t => decide (t.maxCode = 257)) (by decide +kernel)
  exact ⟨t, h1, of_decide_eq_true h2⟩

theorem witness_OtherAccessesAreRefused :
    ({ State.reset with pending := [.read 0x14#5 4] }).pending = .read 0x14#5 4 :: [] ∧
      ({ State.reset with pending := [.reset] }).pending = .reset :: [] := by
  decide

theorem witness_ResetSetsEveryElement :
    ({ blk .active .enc with pending := [.reset] }).pending = .reset :: [] ∧ (blk .active .enc).phase ≠ .idle ∧
      ∃ t, step { blk .active .enc with pending := [.reset] } = .next t ∧ t.phase = .idle :=
  ⟨rfl, by decide, _, rfl, rfl⟩

theorem witness_ResetStateHoldsTableValues : (blk .fault .none).phase ≠ .active := by decide

theorem witness_HostWritesRunInOrder :
    (∀ i ∈ [Instr.pkInit, .pkAppend 3 5], i.wellFormed = true) ∧
      ({ State.reset with pending := [commandAccess .pkInit, commandAccess (.pkAppend 3 5), .read 0x04 4] }).pending =
        [Instr.pkInit, .pkAppend 3 5].map commandAccess ++ [.read 0x04 4] := by
  decide

theorem witness_DrainReturnsOutputInOrder :
    ({ blk .done .enc with outq := [0x3D, 0x00], pending := drainAccesses 2 }).pending =
      drainAccesses ({ blk .done .enc with outq := [0x3D, 0x00], pending := drainAccesses 2 }).outq.length ++ [] := by
  decide

/-! ### Dispatch and faults -/

theorem witness_InitStartsCallUnlessActive :
    (Instr.decInit, Call.dec) ∈ [(Instr.encInit, Call.enc), (.decInit, .dec), (.pkInit, .pk), (.upkInit, .upk)] ∧
      (blk .active .pk).phase = .active ∧ (blk .fault .pk).phase ≠ .active := by
  decide

theorem witness_DataCommandAdmission :
    pipelineOf (.decByte 0) = some .dec ∧ (Instr.decByte 0).wellFormed = true ∧ (blk .fault .dec).phase = .fault ∧
    ((blk .active .enc).phase ≠ .fault ∧ (blk .active .enc).call ≠ .dec) ∧
    ((blk .done .dec).call = .dec ∧ (blk .done .dec).phase = .done) ∧
    (pipelineOf .pkEnd = some .pk ∧ (blk .done .pk).call = .pk ∧ (blk .done .pk).phase ≠ .fault ∧
      (blk .done .pk).phase ≠ .active ∧ ¬ (Call.pk = .dec ∧ (blk .done .pk).phase = .done)) ∧
    ((blk .active .dec).call = .dec ∧ (blk .active .dec).phase = .active) := by
  decide

theorem witness_FaultCommitsOnlyPhaseAndErr :
    ∃ t, runWord 0x80000001 (blk .active .pk) = .next t ∧ (blk .active .pk).phase ≠ .fault ∧ t.phase = .fault := by
  obtain ⟨t, h1, h2⟩ := exists_next_of (o := runWord 0x80000001 (blk .active .pk))
    (p := fun t => decide (t.phase = .fault)) (by decide)
  exact ⟨t, h1, by decide, of_decide_eq_true h2⟩

theorem witness_FaultIgnoresAllButInit :
    (blk .fault .upk).phase = .fault ∧
      (∀ w ∈ [(0xC3800000 : Word), 0xF0000000], ∀ i, decodeCmd w = .ok i → pipelineOf i ≠ none) ∧
      (0x08#5 ∈ [0x04#5, 0x08#5, 0x0C#5, 0x10#5]) ∧
      ({ blk .fault .upk with pending := [.read 0x08#5 4] }).pending = .read 0x08#5 4 :: [] := by
  refine ⟨rfl, fun w hw i h => ?_, by decide, rfl⟩
  simp only [List.mem_cons, List.not_mem_nil, or_false] at hw
  rcases hw with rfl | rfl
  · rw [show decodeCmd 0xC3800000 = .ok (.upkRead 7) by decide] at h; cases h; decide
  · rw [show decodeCmd 0xF0000000 = .error .reservedOpcode by decide] at h; cases h

theorem witness_FaultIsLeftOnlyByInitOrReset :
    (blk .fault .enc).phase = .fault ∧ pipelineOf .pkInit = none ∧
      (∃ t, step { blk .fault .enc with pending := [.reset] } = .next t) ∧
      (∃ t, step ((blk .fault .enc).withNextCommand 0x70000000) = .next t) ∧
      ∃ t, step ((blk .fault .enc).withNextCommand 0x30000000) = .next t :=
  ⟨rfl, rfl, exists_next (by decide), exists_next (by decide), exists_next (by decide)⟩

theorem witness_FaultCodesAndTheirCommands :
    (∃ s t, Invariant s ∧ s.phase ≠ .fault ∧ runWord 0x60000000 s = .next t ∧ t.phase = .fault ∧
      decodeCmd 0x60000000 = .ok .decEnd) ∧
    ∃ s t, Invariant s ∧ s.phase ≠ .fault ∧ runWord 0x00000000 s = .next t ∧ t.phase = .fault := by
  refine ⟨?_, ?_⟩
  · obtain ⟨t, h1, h2⟩ := exists_next_of (o := runWord 0x60000000 (decState none []))
      (p := fun t => decide (t.phase = .fault)) (by decide +kernel)
    exact ⟨_, t, decState_invariant none [] (fun _ h => by cases h) (by decide), by decide, h1, of_decide_eq_true h2,
      by decide⟩
  · obtain ⟨t, h1, h2⟩ := exists_next_of (o := runWord 0x00000000 (blk .active .pk))
      (p := fun t => decide (t.phase = .fault)) (by decide)
    exact ⟨_, t, pkState_invariant, by decide, h1, of_decide_eq_true h2⟩

/-! ### Raw packer and unpacker -/

theorem witness_PkInitStartsRawPack : (blk .done .enc).phase ≠ .active ∧ (blk .active .enc).phase = .active := by decide

theorem witness_PkAppendAppendsBits :
    ((blk .active .pk).call = .pk ∧ (blk .active .pk).phase = .active ∧ (23 : BitVec 5).toNat ≤ 23 ∧
      (0x7FFFFF : BitVec 23).toNat < 2 ^ (23 : BitVec 5).toNat ∧
      ({ blk .active .pk with acc := List.replicate 7 true }).acc.length ≤ 7 ∧
      8 ≤ ({ blk .active .pk with acc := List.replicate 7 true }).acc.length + (1 : BitVec 5).toNat) ∧
    ((0 : BitVec 5).toNat ≤ 23 ∧ 2 ^ (0 : BitVec 5).toNat ≤ (1 : BitVec 23).toNat) ∧
    ((blk .idle .none).phase ≠ .fault ∧ ((blk .idle .none).call ≠ .pk ∨ (blk .idle .none).phase ≠ .active)) ∧
    23 < (24 : BitVec 5).toNat := by
  decide

theorem witness_PkEndPadsLastByte :
    ((blk .active .pk).call = .pk ∧ (blk .active .pk).phase = .active ∧ (blk .active .pk).acc = []) ∧
    (({ blk .active .pk with acc := List.replicate 7 true }).acc ≠ [] ∧
      ({ blk .active .pk with acc := List.replicate 7 true }).acc.length ≤ 7) ∧
    ((blk .done .pk).phase ≠ .fault ∧ ((blk .done .pk).call ≠ .pk ∨ (blk .done .pk).phase ≠ .active)) := by
  decide

theorem witness_RawPackCallGivesPack :
    State.reset.phase ≠ .active ∧ ∀ p ∈ [((9 : BitVec 5), (98 : BitVec 23)), (0, 0), (23, 0x7FFFFF)],
      p.1.toNat ≤ 23 ∧ p.2.toNat < 2 ^ p.1.toNat := by
  refine ⟨by decide, fun p hp => ?_⟩
  simp only [List.mem_cons, List.not_mem_nil, or_false] at hp
  rcases hp with rfl | rfl | rfl <;> decide

theorem witness_UpkInitStartsRawUnpack : (blk .idle .none).phase ≠ .active ∧ (blk .active .upk).phase = .active := by
  decide

theorem witness_UpkBytePushesWithinBound :
    ((blk .active .upk).call = .upk ∧ (blk .active .upk).phase = .active) ∧
    ({ blk .active .upk with ibuf := zeroBits 16 }).ibuf.length + 8 ≤ (blk .active .upk).params.ibufBits ∧
    (blk .active .upk).params.ibufBits < ({ blk .active .upk with ibuf := zeroBits 17 }).ibuf.length + 8 ∧
    ((blk .active .pk).phase ≠ .fault ∧ ((blk .active .pk).call ≠ .upk ∨ (blk .active .pk).phase ≠ .active)) := by
  decide

theorem witness_UpkReadTakesNextBits :
    ((blk .active .upk).call = .upk ∧ (blk .active .upk).phase = .active ∧ (23 : BitVec 5).toNat ≤ 23) ∧
    (23 : BitVec 5).toNat ≤ ({ blk .active .upk with ibuf := zeroBits 23 }).ibuf.length ∧
    ({ blk .active .upk with ibuf := zeroBits 22 }).ibuf.length < (23 : BitVec 5).toNat ∧
    ((blk .done .upk).phase ≠ .fault ∧ ((blk .done .upk).call ≠ .upk ∨ (blk .done .upk).phase ≠ .active)) ∧
    ((0xCC000000 : Word).toNat / 2 ^ 28 = 0xC ∧ 23 < (0xCC000000 : Word).toNat / 2 ^ 23 % 32) ∧
    ((0xC1800001 : Word).toNat / 2 ^ 28 = 0xC ∧ (0xC1800001 : Word).toNat % 2 ^ 23 ≠ 0) := by
  decide

theorem witness_UpkEndDiscardsUnreadBits :
    ((blk .active .upk).call = .upk ∧ (blk .active .upk).phase = .active) ∧
    ((blk .idle .none).phase ≠ .fault ∧ ((blk .idle .none).call ≠ .upk ∨ (blk .idle .none).phase ≠ .active)) := by
  decide

/-- V-ENC-02's stream: 98/9, 0/9. -/
theorem witness_UnpackerInvertsPacker :
    (∀ p ∈ [(98, 9), (0, 9)], p.1 < 2 ^ p.2) ∧ (blk .active .upk).ibuf = [] ∧
      IsCutOf [0x31, 0x00, 0x00] (packBits [(98, 9), (0, 9)]) :=
  ⟨by decide, rfl, 6, by decide, by decide⟩

/-! ### Dictionary -/

theorem witness_DictInitSeedsSingleBytes :
    ∃ t, exec (.encByte 0x61) (encState (some symA) []) = .next t ∧ t.maxCode = 257 ∧ Instr.encByte 0x61 ≠ .encInit ∧
      Instr.encByte 0x61 ≠ .decInit := by
  obtain ⟨t, h1, h2⟩ := exists_next_of (o := exec (.encByte 0x61) (encState (some symA) []))
    (p := fun t => decide (t.maxCode = 257)) (by decide +kernel)
  exact ⟨t, h1, of_decide_eq_true h2, by decide, by decide⟩

theorem witness_WidthCalculatorTable :
    1 ≤ 9 ∧ ({ State.reset with maxCode := 510 }).maxCode ≤ 510 ∧ 256 ≤ ({ State.reset with maxCode := 256 }).maxCode ∧
      ({ State.reset with maxCode := 511 }).maxCode = 511 ∧ 512 ≤ ({ State.reset with maxCode := 512 }).maxCode ∧
      ({ State.reset with maxCode := 1022 }).maxCode ≤ 1022 ∧ ({ State.reset with maxCode := 1023 }).maxCode = 1023 ∧
      nbitsNext { State.reset with maxCode := 511 } ≠ nbits { State.reset with maxCode := 511 } := by
  decide

theorem witness_InsertAssignsNextCode :
    mapGet ({ State.reset with fwd := [(symA, 98)] }).fwd symA = some 98 ∧
    (mapGet State.reset.fwd symA = none ∧ 2 ^ State.reset.params.wMax - 1 ≤ ({ State.reset with maxCode := 65535 }).maxCode) ∧
    ({ State.reset with maxCode := 65534 }).maxCode < 2 ^ State.reset.params.wMax - 1 := by
  decide

theorem witness_LookupsAnswerTaggedOutcomes : DictCanonical State.reset ∧ DictCanonical State.reset.dictInit :=
  ⟨⟨rfl, rfl, List.nodup_nil⟩, DictCanonical.dictInit _⟩

theorem witness_DictionaryOnlyGrowsInCall :
    ∃ t, DictCanonical (encState (some symA) []) ∧ pipelineOf (.encByte 0x61) ≠ none ∧
      exec (.encByte 0x61) (encState (some symA) []) = .next t ∧ t.maxCode = 257 := by
  obtain ⟨t, h1, h2⟩ := exists_next_of (o := exec (.encByte 0x61) (encState (some symA) []))
    (p := fun t => decide (t.maxCode = 257)) (by decide +kernel)
  exact ⟨t, (DictCanonical.dictInit State.reset).congr rfl rfl rfl, by decide, h1, of_decide_eq_true h2⟩

theorem witness_DictionaryIsPrefixClosed :
    ∃ s sym k, Invariant s ∧ s.knows sym ∧ mapGet s.rev k = some sym := by
  have h := encState_invariant none [] (fun _ h => by cases h) (by decide)
  have hg : mapGet (encState none []).fwd (Symbol.single 0xFF) = some 256 := mapGet_seedFwd_single 0xFF
  exact ⟨_, _, 256, h, knows_of_mapGet hg, (h.canonical.inverse _ _).mp hg⟩

/-! ### Encoder -/

theorem witness_EncInitStartsEncodeCall : (blk .fault .dec).phase ≠ .active ∧ (blk .active .dec).phase = .active := by decide

/-- The four ways of ENC_BYTE, and the two where it is not admitted. -/
theorem witness_EncByteExtendsOrEmits :
    ((encState none []).call = .enc ∧ (encState none []).phase = .active ∧ (encState none []).word = none) ∧
    (∃ s : State, s.call = .enc ∧ s.phase = .active ∧ s.word = some symA ∧ mapGet s.fwd (symA.snoc 0x61) = some 257) ∧
    (∃ s : State, s.call = .enc ∧ s.phase = .active ∧ s.word = some symA ∧ mapGet s.fwd (symA.snoc 0x61) = none ∧
      mapGet s.fwd symA = some 98 ∧ 98 ≤ s.maxCode ∧ s.maxCode + 1 = codeLimit s.params) ∧
    (∃ s : State, s.call = .enc ∧ s.phase = .active ∧ s.word = some symA ∧ mapGet s.fwd (symA.snoc 0x61) = none ∧
      mapGet s.fwd symA = some 98 ∧ 98 ≤ s.maxCode ∧ codeLimit s.params = s.maxCode) ∧
    ((blk .active .dec).phase ≠ .fault ∧ (blk .active .dec).call ≠ .enc) ∧
    ((blk .done .enc).phase ≠ .fault ∧ (blk .done .enc).phase ≠ .active) :=
  ⟨⟨rfl, rfl, rfl⟩,
    ⟨{ blk .active .enc with word := some symA, fwd := [(symA, 98), (symA.snoc 0x61, 257)] }, rfl, rfl, rfl, by decide⟩,
    ⟨{ blk .active .enc with word := some symA, fwd := [(symA, 98)], maxCode := 65534 }, rfl, rfl, rfl, by decide,
      by decide, by decide, by decide⟩,
    ⟨{ blk .active .enc with word := some symA, fwd := [(symA, 98)], maxCode := 65535 }, rfl, rfl, rfl, by decide,
      by decide, by decide, by decide⟩, by decide, by decide⟩

theorem witness_EncEndWritesStopCode :
    ((encState none []).call = .enc ∧ (encState none []).phase = .active ∧ (encState none []).word = none ∧
      (encState none []).maxCode ≠ 0) ∧
    (∃ s : State, s.call = .enc ∧ s.phase = .active ∧ s.word = some symA ∧ mapGet s.fwd symA = some 98 ∧
      98 ≤ s.maxCode) ∧
    ((blk .done .enc).phase ≠ .fault ∧ ((blk .done .enc).call ≠ .enc ∨ (blk .done .enc).phase ≠ .active)) :=
  ⟨⟨rfl, rfl, rfl, by decide⟩, ⟨encState (some symA) [], rfl, rfl, rfl, mapGet_seedFwd_single 0x61, by decide⟩, by decide⟩

theorem witness_EncoderRaisesOnlyCapacity :
    Invariant (encState (some symA) (List.replicate 7 true)) ∧ (encState (some symA) (List.replicate 7 true)).call = .enc ∧
      (encState (some symA) (List.replicate 7 true)).phase = .active ∧ pipelineOf (.encByte 0x61) = some .enc ∧
      pipelineOf .encEnd = some .enc :=
  ⟨encState_invariant _ _ (fun _ h => ⟨0x61, by cases h; rfl⟩) (by decide), rfl, rfl, rfl, rfl⟩

/-- The longest input of the bound at W_MAX = 9: 256 bytes, as in V-ENC-14. -/
theorem witness_InputsWithinCapacityEncode :
    ({ State.reset with params := ⟨9, 17, true⟩ }).params.wellFormed = true ∧ State.reset.phase ≠ .active ∧
      (List.replicate 256 (0 : Byte)).length ≤ codeLimit ⟨9, 17, true⟩ - 255 := by
  refine ⟨by decide, by decide, ?_⟩
  rw [List.length_replicate]; decide

/-! ### Decoder -/

theorem witness_DecInitStartsDecodeCall : (blk .done .enc).phase ≠ .active ∧ (blk .active .upk).phase = .active := by decide

theorem witness_DecByteBuffersBits :
    ((decState none []).call = .dec ∧ (decState none []).phase = .active ∧
      (decState none []).ibuf.length + 8 < (decState none []).dnbits) ∧
    ((blk .done .dec).call = .dec ∧ (blk .done .dec).phase = .done ∧
      ∀ i ∈ [Instr.decByte 0x55, .decEnd], pipelineOf i = some .dec) ∧
    ((blk .idle .none).phase ≠ .fault ∧ (blk .idle .none).call ≠ .dec) := by
  decide

/-- Each way a decode step ends: the codes 0, 300 (V-DEC-11), 98 first, 257 pending (P2), a duplicate, at CODE_LIMIT. -/
theorem witness_DecByteRunsDecodeStep :
    (∃ left, bitsOf 9 0 ++ left = (decState none (byteBits 0x00)).ibuf ++ byteBits 0x00 ∧
      (bitsOf 9 0).length = (decState none (byteBits 0x00)).dnbits ∧ bitsVal (bitsOf 9 0) = 0) ∧
    (∃ left, bitsOf 9 257 ++ left = (decState none (byteBits 0x80)).ibuf ++ byteBits 0x80 ∧
      bitsVal (bitsOf 9 257) ≠ 0 ∧ ∀ sym, ¬ DecodesTo (decState none (byteBits 0x80)) (bitsVal (bitsOf 9 257)) sym) ∧
    (∃ left, bitsOf 9 98 ++ left = (decState none (byteBits 0x31)).ibuf ++ byteBits 0x40 ∧
      bitsVal (bitsOf 9 98) ≠ 0 ∧ DecodesTo (decState none (byteBits 0x31)) (bitsVal (bitsOf 9 98)) symA ∧
      (decState none (byteBits 0x31)).prev = none) ∧
    (∃ left, bitsOf 9 257 ++ left = (decState (some symA) (byteBits 0x80)).ibuf ++ byteBits 0x80 ∧
      DecodesTo (decState (some symA) (byteBits 0x80)) (bitsVal (bitsOf 9 257)) (symA.snoc 0x61) ∧
      (decState (some symA) (byteBits 0x80)).prev = some symA ∧
      mapGet (decState (some symA) (byteBits 0x80)).fwd (symA.snoc 0x61) = none ∧
      (decState (some symA) (byteBits 0x80)).maxCode < codeLimit (decState (some symA) (byteBits 0x80)).params) ∧
    (∃ s : State, s.call = .dec ∧ s.phase = .active ∧ s.dnbits = 9 ∧ s.ibuf = byteBits 0x31 ∧ DecodesTo s 98 symA ∧
      s.prev = some symA ∧ mapGet s.fwd (symA.snoc symA.first) = some 257) ∧
    (∃ s : State, s.call = .dec ∧ s.phase = .active ∧ s.dnbits = 9 ∧ s.ibuf = byteBits 0x31 ∧ DecodesTo s 98 symA ∧
      s.prev = some symA ∧ mapGet s.fwd (symA.snoc symA.first) = none ∧ codeLimit s.params = s.maxCode) := by
  refine ⟨⟨zeroBits 7, by decide, by decide, by decide⟩, ⟨[false, false, false, false, false, false, false], by decide,
    by decide, ?_⟩, ⟨[true, false, false, false, false, false, false], by decide, by decide, .inl (by decide +kernel),
    rfl⟩, ⟨[false, false, false, false, false, false, false], by decide, .inr ⟨by decide +kernel, rfl, symA, rfl, rfl⟩, rfl,
    by decide +kernel, by decide⟩, ?_, ?_⟩
  · rintro sym (h | ⟨_, _, p, hp, _⟩)
    · rw [show mapGet (decState none (byteBits 0x80)).rev (bitsVal (bitsOf 9 257)) = none by decide +kernel] at h
      cases h
    · cases hp
  · exact ⟨{ blk .active .dec with
        dnbits := 9, ibuf := byteBits 0x31, prev := some symA, rev := [(98, symA)], fwd := [(symA.snoc 0x61, 257)] },
      rfl, rfl, rfl, rfl, .inl (by decide), rfl, by decide⟩
  · exact ⟨{ blk .active .dec with
        dnbits := 9, ibuf := byteBits 0x31, prev := some symA, rev := [(98, symA)], maxCode := 65535 },
      rfl, rfl, rfl, rfl, .inl (by decide), rfl, by decide, by decide⟩

theorem witness_DecEndAcceptsOnlyShortStop :
    (∃ s : State, s.call = .dec ∧ s.phase = .active ∧ s.params.shortStopOk = true ∧ s.prev ≠ none ∧
      s.ibuf.length = bitLength s.maxCode ∧ s.ibuf.length < s.dnbits ∧ ∀ x ∈ s.ibuf, x = false) ∧
    (∃ s : State, s.call = .dec ∧ s.phase = .active ∧ ¬ (s.params.shortStopOk = true ∧ s.prev ≠ none ∧
      s.ibuf.length = bitLength s.maxCode ∧ s.ibuf.length < s.dnbits ∧ ∀ x ∈ s.ibuf, x = false)) ∧
    ((blk .done .dec).call = .dec ∧ (blk .done .dec).phase = .done) ∧
    ((blk .active .pk).phase ≠ .fault ∧ (blk .active .pk).call ≠ .dec) :=
  ⟨⟨{ blk .active .dec with maxCode := 511, dnbits := 10, prev := some symA, ibuf := zeroBits 9 }, rfl, rfl, rfl,
      by decide, by decide, by decide, by decide⟩,
    ⟨decState none [], rfl, rfl, fun h => h.2.1 rfl⟩, by decide, by decide⟩

/-- The first codeword of P2, and its code 257 as the second codeword. -/
theorem witness_DecodeStepBindsReadCode :
    (∃ t, Invariant (decState none (byteBits 0x31)) ∧
      bitsOf 9 98 ++ [true, false, false, false, false, false, false] =
        (decState none (byteBits 0x31)).ibuf ++ byteBits 0x40 ∧
      (bitsOf 9 98).length = (decState none (byteBits 0x31)).dnbits ∧
      exec (.decByte 0x40) (decState none (byteBits 0x31)) = .next t ∧ t.phase = .active) ∧
    ∃ t, Invariant (decState (some symA) (byteBits 0x80)) ∧
      bitsOf 9 257 ++ zeroBits 7 = (decState (some symA) (byteBits 0x80)).ibuf ++ byteBits 0x80 ∧
      exec (.decByte 0x80) (decState (some symA) (byteBits 0x80)) = .next t ∧ t.phase = .active ∧
      bitsVal (bitsOf 9 257) = (decState (some symA) (byteBits 0x80)).maxCode + 1 := by
  refine ⟨?_, ?_⟩
  · obtain ⟨t, h1, h2⟩ := exists_next_of (o := exec (.decByte 0x40) (decState none (byteBits 0x31)))
      (p := fun t => decide (t.phase = .active)) (by decide +kernel)
    exact ⟨t, decState_invariant _ _ (fun _ h => by cases h) (by decide), by decide, by decide, h1, of_decide_eq_true h2⟩
  · obtain ⟨t, h1, h2⟩ := exists_next_of (o := exec (.decByte 0x80) (decState (some symA) (byteBits 0x80)))
      (p := fun t => decide (t.phase = .active)) (by decide +kernel)
    exact ⟨t, decState_invariant _ _ (fun _ h => ⟨0x61, by cases h; rfl⟩) (by decide), by decide, h1,
      of_decide_eq_true h2, by decide⟩

theorem witness_AtMostOneStepPerByte :
    ∃ t, Invariant (decState none (byteBits 0x31)) ∧ (decState none (byteBits 0x31)).call = .dec ∧
      (decState none (byteBits 0x31)).phase = .active ∧
      exec (.decByte 0x40) (decState none (byteBits 0x31)) = .next t ∧ t.phase = .active ∧
      (decState none (byteBits 0x31)).dnbits ≤ (decState none (byteBits 0x31)).ibuf.length + 8 := by
  obtain ⟨t, h1, h2⟩ := exists_next_of (o := exec (.decByte 0x40) (decState none (byteBits 0x31)))
    (p := fun t => decide (t.phase = .active)) (by decide +kernel)
  exact ⟨t, decState_invariant _ _ (fun _ h => by cases h) (by decide), rfl, rfl, h1, of_decide_eq_true h2, by decide⟩

theorem witness_DecodeOfEncodeGivesInput :
    ({ State.reset with params := ⟨9, 17, true⟩ }).params.wellFormed = true ∧
      ({ State.reset with params := ⟨9, 17, true⟩ }).params.shortStopOk = true ∧ State.reset.phase ≠ .active ∧
      (List.replicate 256 (0xFF : Byte)).length ≤ codeLimit ⟨9, 17, true⟩ - 255 := by
  refine ⟨by decide, by decide, by decide, ?_⟩
  rw [List.length_replicate]; decide

/-! ### Frames -/

/-- Each command's frame holds of a command that takes effect and of one that faults. -/
theorem witness_PackerFrame :
    (∃ t, exec .pkInit State.reset = .next t) ∧ (∃ t, exec (.pkAppend 3 5) (blk .active .pk) = .next t ∧ t.phase ≠ .fault) ∧
      (∃ t, exec (.pkAppend 0 1) (blk .active .pk) = .next t ∧ t.phase = .fault) ∧
      ∃ t, exec .pkEnd (blk .active .pk) = .next t ∧ t.phase ≠ .fault := by
  refine ⟨exists_next (by decide), ?_, ?_, ?_⟩
  · obtain ⟨t, h1, h2⟩ := exists_next_of (o := exec (.pkAppend 3 5) (blk .active .pk))
      (p := fun t => decide (t.phase ≠ .fault)) (by decide)
    exact ⟨t, h1, of_decide_eq_true h2⟩
  · obtain ⟨t, h1, h2⟩ := exists_next_of (o := exec (.pkAppend 0 1) (blk .active .pk))
      (p := fun t => decide (t.phase = .fault)) (by decide)
    exact ⟨t, h1, of_decide_eq_true h2⟩
  · obtain ⟨t, h1, h2⟩ := exists_next_of (o := exec .pkEnd (blk .active .pk))
      (p := fun t => decide (t.phase ≠ .fault)) (by decide)
    exact ⟨t, h1, of_decide_eq_true h2⟩

theorem witness_UnpackerFrame :
    (∃ t, exec .upkInit State.reset = .next t) ∧
      (∃ t, exec (.upkByte 0xA5) (blk .active .upk) = .next t ∧ t.phase ≠ .fault) ∧
      (∃ t, exec (.upkRead 1) (blk .active .upk) = .next t ∧ t.phase = .fault) ∧
      ∃ t, exec .upkEnd (blk .active .upk) = .next t ∧ t.phase ≠ .fault := by
  refine ⟨exists_next (by decide), ?_, ?_, ?_⟩
  · obtain ⟨t, h1, h2⟩ := exists_next_of (o := exec (.upkByte 0xA5) (blk .active .upk))
      (p := fun t => decide (t.phase ≠ .fault)) (by decide)
    exact ⟨t, h1, of_decide_eq_true h2⟩
  · obtain ⟨t, h1, h2⟩ := exists_next_of (o := exec (.upkRead 1) (blk .active .upk))
      (p := fun t => decide (t.phase = .fault)) (by decide)
    exact ⟨t, h1, of_decide_eq_true h2⟩
  · obtain ⟨t, h1, h2⟩ := exists_next_of (o := exec .upkEnd (blk .active .upk))
      (p := fun t => decide (t.phase ≠ .fault)) (by decide)
    exact ⟨t, h1, of_decide_eq_true h2⟩

theorem witness_EncoderFrame :
    (∃ t, exec .encInit State.reset = .next t) ∧
      (∃ t, exec (.encByte 0x61) (encState (some symA) []) = .next t ∧ t.phase ≠ .fault) ∧
      (∃ t, exec (.encByte 0x61) (blk .done .enc) = .next t ∧ t.phase = .fault) ∧
      ∃ t, exec .encEnd (encState none []) = .next t ∧ t.phase ≠ .fault := by
  refine ⟨exists_next (by decide +kernel), ?_, ?_, ?_⟩
  · obtain ⟨t, h1, h2⟩ := exists_next_of (o := exec (.encByte 0x61) (encState (some symA) []))
      (p := fun t => decide (t.phase ≠ .fault)) (by decide +kernel)
    exact ⟨t, h1, of_decide_eq_true h2⟩
  · obtain ⟨t, h1, h2⟩ := exists_next_of (o := exec (.encByte 0x61) (blk .done .enc))
      (p := fun t => decide (t.phase = .fault)) (by decide)
    exact ⟨t, h1, of_decide_eq_true h2⟩
  · obtain ⟨t, h1, h2⟩ := exists_next_of (o := exec .encEnd (encState none []))
      (p := fun t => decide (t.phase ≠ .fault)) (by decide +kernel)
    exact ⟨t, h1, of_decide_eq_true h2⟩

theorem witness_DecoderFrame :
    (∃ t, exec .decInit State.reset = .next t) ∧
      (∃ t, exec (.decByte 0x40) (decState none (byteBits 0x31)) = .next t ∧ t.phase ≠ .fault) ∧
      (∃ t, exec (.decByte 0x80) (decState none (byteBits 0x80)) = .next t ∧ t.phase = .fault) ∧
      ∃ t, exec .decEnd (decState none []) = .next t ∧ t.phase = .fault := by
  refine ⟨exists_next (by decide +kernel), ?_, ?_, ?_⟩
  · obtain ⟨t, h1, h2⟩ := exists_next_of (o := exec (.decByte 0x40) (decState none (byteBits 0x31)))
      (p := fun t => decide (t.phase ≠ .fault)) (by decide +kernel)
    exact ⟨t, h1, of_decide_eq_true h2⟩
  · obtain ⟨t, h1, h2⟩ := exists_next_of (o := exec (.decByte 0x80) (decState none (byteBits 0x80)))
      (p := fun t => decide (t.phase = .fault)) (by decide +kernel)
    exact ⟨t, h1, of_decide_eq_true h2⟩
  · obtain ⟨t, h1, h2⟩ := exists_next_of (o := exec .decEnd (decState none []))
      (p := fun t => decide (t.phase = .fault)) (by decide +kernel)
    exact ⟨t, h1, of_decide_eq_true h2⟩

/-! ### Invariants and the whole machine -/

theorem witness_ResetMeetsInvariant : (Params.mk 30 38 false).wellFormed = true ∧ (Params.mk 9 17 true).wellFormed = true := by
  decide

theorem witness_StepKeepsInvariant :
    ∃ s t, Invariant s ∧ step s = .next t ∧ s.phase = .active ∧ t.maxCode = 257 := by
  obtain ⟨t, h1, h2⟩ := exists_next_of
    (o := step { encState (some symA) [] with pending := [.write offCmd 4 0x20000061] })
    (p := fun t => decide (t.maxCode = 257)) (by decide +kernel)
  exact ⟨_, t, invariant_pending (encState_invariant _ _ (fun _ h => ⟨0x61, by cases h; rfl⟩) (by decide)) _, h1, rfl,
    of_decide_eq_true h2⟩

theorem witness_InvariantGivesSpecItems :
    Invariant (encState (some symA) (List.replicate 7 true)) ∧ Invariant (decState (some symA) (byteBits 0xFF)) ∧
      Invariant (decState none []) :=
  ⟨encState_invariant _ _ (fun _ h => ⟨0x61, by cases h; rfl⟩) (by decide),
    decState_invariant _ _ (fun _ h => ⟨0x61, by cases h; rfl⟩) (by decide),
    decState_invariant _ _ (fun _ h => by cases h) (by decide)⟩

theorem witness_EveryCommandCompletes :
    ∃ s a, Invariant s ∧ s.pending = a :: [] ∧ a = .read 0x08#5 4 :=
  ⟨_, _, invariant_pending (decState_invariant none [] (fun _ h => by cases h) (by decide)) _, rfl, rfl⟩

/-- A block after reset and one that a faulted decode call has left dirty. -/
theorem witness_CallForgetsThePast :
    (Instr.encInit, Call.enc) ∈ [(Instr.encInit, Call.enc), (.decInit, .dec)] ∧
      (∀ d ∈ [Instr.encByte 0x79, .encEnd], pipelineOf d = some .enc) ∧ State.reset.phase ≠ .active ∧
      ({ blk .fault .dec with err := .capacity, maxCode := 300, outq := [1] }).phase ≠ .active ∧
      State.reset.params = ({ blk .fault .dec with err := .capacity, maxCode := 300, outq := [1] }).params ∧
      ∃ t, runCommands [.encInit, .encByte 0x79, .encEnd] State.reset = .next t :=
  ⟨by decide, by decide, by decide, by decide, rfl, exists_next (by decide +kernel)⟩

end Sys2Proof.Machine.Tests
end

/-! PROOFS. The statements of 10_state.md: the invariant of R40 and its steps, the frames of R41, the readable registers
(R23 to R27), and the reset state (R39). -/

namespace Sys2Proof.Machine

/-! ### The parts of the invariant -/

/-- The bounds of the invariant on what the pipelines hold: R5, R34, R36 and R40 item 4. -/
structure BoundsSound (s : State) : Prop where
  params : s.params.wellFormed = true
  acc : s.acc.length ≤ 7
  ibuf : s.ibuf.length ≤ s.params.ibufBits
  dnbits : s.dnbits ≤ s.params.wMax + 1

/-- The items of the invariant that tie PHASE, CALL and ERR to each other and to what a call has set up. -/
structure CallSound (s : State) : Prop where
  err : s.err = .none ↔ s.phase ≠ .fault
  idle : s.phase = .idle → s.call = .none
  noCall : s.call = .none → s.phase = .idle ∨ s.phase = .fault
  seeded : s.call = .enc ∨ s.call = .dec → s.maxCode ≠ 0
  decWidth : s.call = .dec → 9 ≤ s.dnbits

/-- What the invariant asks of a running call (R40 items 5 to 8). -/
structure RunSound (s : State) : Prop where
  encWord : s.call = .enc → ∀ w, s.word = some w → s.knows w
  decBits : s.call = .dec → s.ibuf.length < s.dnbits
  decNext : s.call = .dec → s.dnbits = bitLength (s.maxCode + 1)
  decFirst : s.call = .dec → s.prev = none → s.maxCode = 256
  decPrev : s.call = .dec → ∀ p, s.prev = some p → s.knows p

theorem Invariant.bounds {s : State} (h : Invariant s) : BoundsSound s := ⟨h.params, h.acc, h.ibuf, h.dnbits⟩

theorem Invariant.callSound {s : State} (h : Invariant s) : CallSound s :=
  ⟨h.err, h.idle, h.noCall, h.seeded, h.decWidth⟩

theorem Invariant.runSound {s : State} (h : Invariant s) (ha : s.phase = .active) : RunSound s :=
  ⟨fun hc => h.encWord hc ha, fun hc => h.decBits hc ha, fun hc => h.decNext hc ha, fun hc => h.decFirst hc ha,
    fun hc => h.decPrev hc ha⟩

/-- The invariant is its four parts: each operation is checked against the parts it touches. -/
theorem invariant_iff (s : State) :
    Invariant s ↔ DictSound s ∧ BoundsSound s ∧ CallSound s ∧ (s.phase = .active → RunSound s) := by
  refine ⟨fun h => ⟨h.dict, h.bounds, h.callSound, h.runSound⟩, ?_⟩
  rintro ⟨d, b, c, r⟩
  exact
    { d, b, c with
      encWord := fun hc ha => (r ha).encWord hc
      decBits := fun hc ha => (r ha).decBits hc
      decNext := fun hc ha => (r ha).decNext hc
      decFirst := fun hc ha => (r ha).decFirst hc
      decPrev := fun hc ha => (r ha).decPrev hc }

/-- A running call that keeps CALL and ERR, and shrinks neither the dictionary nor DNBITS, stays sound. -/
theorem CallSound.of_keepsCall {s t : State} (h : CallSound s) (ha : s.phase = .active) (hk : KeepsCall s t)
    (hm : s.maxCode ≤ t.maxCode) (hd : s.dnbits ≤ t.dnbits) : CallSound t := by
  have hph : t.phase = .active ∨ t.phase = .done := ha ▸ hk.phase
  have hcall : s.call ≠ .none := fun hc => by simpa [ha] using h.noCall hc
  have herr : t.err = .none := hk.err.trans (h.err.mpr (by simp [ha]))
  constructor
  · rcases hph with hp | hp <;> simp [herr, hp]
  · intro hi; rcases hph with hp | hp <;> simp [hp] at hi
  · intro hc; exact absurd (hk.call ▸ hc) hcall
  · intro hc; have := h.seeded (hk.call ▸ hc); omega
  · intro hc; have := h.decWidth (hk.call ▸ hc); omega

/-! ### What keeps the invariant whole: the host's side, faults, the start of a call -/

/-- The invariant looks at neither OUTQ nor RESULTV nor the host's queues. -/
theorem Invariant.congr_output {s : State} (h : Invariant s) (q : List Byte) (v : BitVec 23) (a : List HostAccess)
    (r : List Word) : Invariant { s with outq := q, resultv := v, pending := a, replies := r } :=
  (invariant_iff _).mpr ⟨h.dict.congr rfl rfl rfl rfl, { h.bounds with }, { h.callSound with },
    fun ha => { h.runSound ha with }⟩

/-- The fault entry keeps the invariant: outside FAULT nothing is left running. -/
theorem Invariant.faultEntry {s : State} (h : Invariant s) {e : Err} (he : e ≠ .none) : Invariant (s.faultEntry e) := by
  refine (invariant_iff _).mpr ⟨h.dict.congr rfl rfl rfl rfl, { h.bounds with }, ?_, fun ha => by cases ha⟩
  exact ⟨by simp [he], by simp, by simp, h.seeded, h.decWidth⟩

/-- Reset gives the invariant whatever was before it, under parameters R5 allows. -/
theorem invariant_resetBlock {s : State} (hp : s.params.wellFormed = true) : Invariant s.resetBlock := by
  refine (invariant_iff _).mpr ⟨⟨⟨rfl, rfl, List.nodup_nil⟩, .inl rfl, ?_, ?_⟩, ⟨hp, by simp, by simp, by simp⟩, ?_, ?_⟩
  · intro sym hk; cases hk
  · intro sym k hk; cases hk
  · constructor <;> simp
  · intro ha; cases ha

/-- The start of a raw call keeps the invariant: no item asks anything of a running raw call. -/
theorem Invariant.startCall {s : State} (h : Invariant s) {k : Call} (hk : k = .pk ∨ k = .upk) :
    Invariant (s.startCall k) := by
  refine (invariant_iff _).mpr ⟨h.dict.congr rfl rfl rfl rfl, ⟨h.params, by simp, by simp, h.dnbits⟩, ?_, fun _ => ?_⟩ <;>
    rcases hk with rfl | rfl <;> constructor <;> simp

/-- The state ENC_INIT leaves. -/
theorem Invariant.encInit {s : State} (h : Invariant s) : Invariant ((s.startCall .enc).dictInit.setWord none) := by
  refine (invariant_iff _).mpr ⟨(DictSound.dictInit (s.startCall .enc) h.params).congr rfl rfl rfl rfl,
    ⟨h.params, by simp, by simp, h.dnbits⟩, ?_, fun _ => ?_⟩ <;> constructor <;> simp

/-- The state DEC_INIT leaves: the first codeword is 9 bits wide, as the seeded dictionary has 256 codes. -/
theorem Invariant.decInit {s : State} (h : Invariant s) :
    Invariant (((s.startCall .dec).dictInit.setDnbits 9).setPrev none) := by
  have h9 : 9 = bitLength (256 + 1) := by decide
  have hw := (wellFormed_bounds h.params).1
  refine (invariant_iff _).mpr ⟨(DictSound.dictInit (s.startCall .dec) h.params).congr rfl rfl rfl rfl,
    ⟨h.params, by simp, by simp, by simp; omega⟩, ?_, fun _ => ?_⟩ <;> constructor <;> simp [← h9]

/-! ### The data commands' own rules -/

/-- The own rule of a data command keeps the invariant of a running call of its pipeline. -/
def RuleKeepsInvariant (p : Call) (rule : State → Except Abort State) : Prop :=
  ∀ s t, Invariant s → s.phase = .active → s.call = p → rule s = .ok t → Invariant t

/-- A rule keeps the invariant if it leaves the dictionary sound and no smaller, DNBITS no smaller and in its bound, ACC
and IBUF in their bounds, and a call that goes on sound. -/
theorem Invariant.of_keepsCall {s t : State} (h : Invariant s) (ha : s.phase = .active) (hk : KeepsCall s t)
    (hdict : DictSound t) (hm : s.maxCode ≤ t.maxCode) (hd : s.dnbits ≤ t.dnbits)
    (hb : t.acc.length ≤ 7 ∧ t.ibuf.length ≤ s.params.ibufBits ∧ t.dnbits ≤ s.params.wMax + 1)
    (hrun : t.phase = .active → RunSound t) : Invariant t := by
  obtain ⟨hacc, hib, hdn⟩ := hb
  have hp := hk.params
  exact (invariant_iff t).mpr ⟨hdict, ⟨hp ▸ h.params, hacc, hp ▸ hib, hp ▸ hdn⟩, h.callSound.of_keepsCall ha hk hm hd, hrun⟩

/-- The case in which the rule leaves the dictionary and DNBITS alone. -/
theorem Invariant.of_buffers {s t : State} (h : Invariant s) (ha : s.phase = .active) (hk : KeepsCall s t)
    (hf : t.fwd = s.fwd) (hr : t.rev = s.rev) (hm : t.maxCode = s.maxCode) (hd : t.dnbits = s.dnbits)
    (hacc : t.acc.length ≤ 7) (hib : t.ibuf.length ≤ s.params.ibufBits)
    (hrun : t.phase = .active → RunSound t) : Invariant t :=
  h.of_keepsCall ha hk (h.dict.congr hf hr hm hk.params) hm.ge hd.ge ⟨hacc, hib, hd ▸ h.dnbits⟩ hrun

theorem appendBits_acc_le (bits : List Bool) (s : State) : (s.appendBits bits).acc.length ≤ 7 := by
  obtain ⟨_, _, _, h⟩ := appendBits_spec bits s
  omega

theorem encByteRule_keepsInvariant (b : Byte) : RuleKeepsInvariant .enc (encByteRule b) := by
  intro s t h ha hc hok
  have hk := (RuleSound.encByte b).ok s t hok
  have hm := h.seeded (.inl hc)
  rcases encByteRule_cases b s with ⟨_, he⟩ | ⟨w, c, _, hg, he⟩ | ⟨w, hw, hg, he⟩
  · cases he.symm.trans hok
    refine h.of_buffers ha hk rfl rfl rfl rfl h.acc h.ibuf fun _ => ⟨fun _ x hx => ?_, ?_, ?_, ?_, ?_⟩
    · cases hx; exact h.dict.knows_single hm b
    all_goals simp [hc]
  · cases he.symm.trans hok
    refine h.of_buffers ha hk rfl rfl rfl rfl h.acc h.ibuf fun _ => ⟨fun _ x hx => ?_, ?_, ?_, ?_, ?_⟩
    · cases hx; exact knows_of_mapGet hg
    all_goals simp [hc]
  · have hknown := h.encWord hc ha w hw
    rcases encMiss_cases w b s with ⟨_, h'⟩ | ⟨k, _, ⟨_, h'⟩ | ⟨_, _, h'⟩ | ⟨_, _, _, h'⟩ | ⟨_, _, hl, h'⟩⟩ <;>
      cases (he.trans h').symm.trans hok
    have hdict := h.dict.addEntry hm hknown hg hl
    have hacc := appendBits_acc_le (bitsOf (nbits s) k) s
    refine h.of_keepsCall ha hk (hdict.congr (by simp) (by simp) (by simp) (by simp)) (by simp) (by simp) ?_ fun _ =>
      ⟨fun _ x hx => ?_, ?_, ?_, ?_, ?_⟩
    · rw [State.setWord_acc, State.addEntry_acc]
      exact ⟨hacc, by simpa using h.ibuf, by simpa using h.dnbits⟩
    · cases hx; exact hdict.knows_single (by simp) b
    all_goals simp [hc]

theorem encEndRule_keepsInvariant : RuleKeepsInvariant .enc encEndRule := by
  intro s t h ha _ hok
  have hk := RuleSound.encEnd.ok s t hok
  rcases encEndRule_cases s with ⟨_, he⟩ | ⟨w, _, _, he⟩ | ⟨w, k, _, _, _, he⟩ | ⟨w, k, _, _, _, he⟩ <;>
    cases he.symm.trans hok
  all_goals exact h.of_buffers ha hk (by simp) (by simp) (by simp) (by simp) (by simp) (by simpa using h.ibuf) (by simp)

/-- A Symbol the decoder takes before anything is inserted is one of the dictionary's. -/
theorem DictCanonical.knows_of_decodesTo {s : State} (h : DictCanonical s) {c : Nat} {sym : Symbol}
    (hd : DecodesTo s c sym) (hp : s.prev = none) : s.knows sym := by
  rcases hd with hg | ⟨_, _, p, hp', _⟩
  · exact knows_of_mapGet ((h.inverse sym c).mpr hg)
  · rw [hp] at hp'; cases hp'

/-- A Symbol the decoder takes is known once PREV with its first byte is inserted: it was known, or is that entry
(44_decoder.md R193). -/
theorem DictCanonical.knows_addEntry_of_decodesTo {s : State} (h : DictCanonical s) {c : Nat} {p sym : Symbol}
    (hd : DecodesTo s c sym) (hp : s.prev = some p) : (s.addEntry (p.snoc sym.first)).knows sym := by
  rw [State.knows_addEntry]
  rcases hd with hg | ⟨_, _, q, hq, rfl⟩
  · exact .inr (knows_of_mapGet ((h.inverse sym c).mpr hg))
  · cases hp.symm.trans hq; exact .inl rfl

/-- After a decode step fewer than 8 bits are left (44_decoder.md R197). -/
theorem afterRead_ibuf_lt {s : State} (b : Byte) (h : s.ibuf.length < s.dnbits) : (afterRead b s).ibuf.length < 8 := by
  simp; omega

theorem knows_afterInsert (b : Byte) (p sym x : Symbol) (s : State) :
    (afterInsert b p sym s).knows x ↔ (s.addEntry (p.snoc sym.first)).knows x := by
  rw [State.knows, State.knows, afterInsert_fwd, State.addEntry_fwd]

/-- Below the capacity the next width is at most W_MAX + 1 (10_state.md R34). -/
theorem bitLength_next_le {m : Nat} {p : Params} (h : m < codeLimit p) : bitLength (m + 1 + 1) ≤ p.wMax + 1 := by
  rw [bitLength_le_iff, Nat.pow_succ]
  unfold codeLimit at h
  omega

theorem decByteRule_keepsInvariant (b : Byte) : RuleKeepsInvariant .dec (decByteRule b) := by
  intro s t h ha hc hok
  have hk := (RuleSound.decByte b).ok s t hok
  have hbits := h.decBits hc ha
  have hnext := h.decNext hc ha
  have hwide := h.decWidth hc
  have hdn := h.dnbits
  have hpar := wellFormed_bounds h.params
  have hleft := afterRead_ibuf_lt b hbits
  rcases decByteRule_cases b s with ⟨hlt, he⟩ | ⟨_, ⟨_, he⟩ | ⟨_, _, he⟩ | ⟨sym, _, hsym, ⟨hp, he⟩ | ⟨p, _, _, he⟩ |
    ⟨p, _, _, _, he⟩ | ⟨p, hp, hg, hl, he⟩⟩⟩ <;> cases he.symm.trans hok
  · have hlen : (s.push b).ibuf.length < s.dnbits := hlt
    exact h.of_buffers ha hk rfl rfl rfl rfl h.acc (by omega) fun _ =>
      ⟨fun hc' => h.encWord hc' ha, fun _ => hlen, fun _ => hnext, fun _ => h.decFirst hc ha, fun _ => h.decPrev hc ha⟩
  · exact h.of_buffers ha hk rfl rfl rfl rfl h.acc (by rw [State.setPhase_ibuf]; omega) (by simp)
  · have hknown := h.canonical.knows_of_decodesTo hsym hp
    refine h.of_buffers ha hk (by simp) (by simp) (by simp) (by simp) (by simpa using h.acc)
      (by rw [State.setPrev_ibuf, State.outSymbol_ibuf]; omega) fun _ =>
      ⟨by simp [hc], fun _ => ?_, fun _ => by simpa using hnext, by simp, fun _ x hx => ?_⟩
    · rw [State.setPrev_ibuf, State.outSymbol_ibuf]; exact Nat.lt_of_lt_of_le hleft (by simp; omega)
    · cases hx; exact hknown
  · have hdict := h.dict.addEntry (h.seeded (.inr hc)) (h.decPrev hc ha p hp) hg hl
    have hgrow : s.dnbits ≤ (afterInsert b p sym s).dnbits := by
      rw [afterInsert_dnbits, hnext]; exact bitLength_mono (Nat.le_succ _)
    have hcap : (afterInsert b p sym s).dnbits ≤ s.params.wMax + 1 := by
      rw [afterInsert_dnbits]; exact bitLength_next_le hl
    have hleft' : (afterInsert b p sym s).ibuf.length < 8 := hleft
    refine h.of_keepsCall ha hk (hdict.congr (by simp) (by simp) (by simp) (by simp)) (by simp) hgrow ?_ fun _ =>
      ⟨by simp [hc], fun _ => ?_, by simp, by simp, fun _ x hx => ?_⟩
    · rw [afterInsert_acc]
      exact ⟨h.acc, by omega, hcap⟩
    · omega
    · cases hx; exact (knows_afterInsert ..).mpr (h.canonical.knows_addEntry_of_decodesTo hsym hp)

theorem decEndRule_keepsInvariant : RuleKeepsInvariant .dec decEndRule := by
  intro s t h ha _ hok
  have hk := RuleSound.decEnd.ok s t hok
  unfold decEndRule at hok
  split at hok <;> cases hok
  exact h.of_buffers ha hk rfl rfl rfl rfl h.acc (by simp) (by simp)

/-- No item of the invariant speaks of a running raw call. -/
theorem RunSound.of_raw {t : State} (h : t.call = .pk ∨ t.call = .upk) : RunSound t := by
  rcases h with h | h <;> constructor <;> simp [h]

theorem emit_keepsInvariant (v w : Nat) : RuleKeepsInvariant .pk (emit v w) := by
  intro s t h ha hc hok
  have hk := (RuleSound.pkAppend v w).ok s t hok
  rcases emit_cases v w s with ⟨_, he⟩ | ⟨_, he⟩ <;> cases he.symm.trans hok
  exact h.of_buffers ha hk rfl rfl rfl rfl (appendBits_acc_le _ s) h.ibuf fun _ => .of_raw (.inl hc)

theorem pkEnd_keepsInvariant : RuleKeepsInvariant .pk fun s => .ok (s.flush.setPhase .done) := by
  intro s t h ha _ hok
  have hk := RuleSound.pkEnd.ok s t hok
  cases hok
  exact h.of_buffers ha hk (by simp) (by simp) (by simp) (by simp) (by simp) (by simpa using h.ibuf) (by simp)

theorem upkByteRule_keepsInvariant (b : Byte) : RuleKeepsInvariant .upk (upkByteRule b) := by
  intro s t h ha hc hok
  have hk := (RuleSound.upkByte b).ok s t hok
  unfold upkByteRule at hok
  split at hok <;> cases hok
  exact h.of_buffers ha hk rfl rfl rfl rfl h.acc (by simp; omega) fun _ => .of_raw (.inr hc)

theorem upkReadRule_keepsInvariant (w : Nat) : RuleKeepsInvariant .upk (upkReadRule w) := by
  intro s t h ha hc hok
  have hk := (RuleSound.upkRead w).ok s t hok
  have hib := h.ibuf
  rcases upkReadRule_cases w s with ⟨_, he⟩ | ⟨_, he⟩ <;> cases he.symm.trans hok
  exact h.of_buffers ha hk rfl rfl rfl rfl h.acc (by simp; omega) fun _ => .of_raw (.inr hc)

theorem upkEnd_keepsInvariant : RuleKeepsInvariant .upk fun s => .ok ((s.setIbuf []).setPhase .done) := by
  intro s t h ha _ hok
  have hk := RuleSound.upkEnd.ok s t hok
  cases hok
  exact h.of_buffers ha hk rfl rfl rfl rfl h.acc (by simp) (by simp)

/-! ### Commands and steps -/

/-- A data command keeps the invariant if its own rule does: all else it can do is nothing or the fault entry. -/
theorem runData_keepsInvariant {p : Call} {legal : Bool} {rule : State → Except Abort State} {s t : State}
    (hs : RuleSound rule) (hk : RuleKeepsInvariant p rule) (h : Invariant s) (hr : runData p legal rule s = .next t) :
    Invariant t := by
  rcases runData_cases hr with rfl | ⟨e, he, rfl⟩ | ⟨ha, hc, hok⟩ | ⟨_, _, e, he, rfl⟩
  · exact h
  · exact h.faultEntry (by rcases he with rfl | rfl <;> decide)
  · exact hk s t h ha hc hok
  · exact h.faultEntry (hs.raise s e he).1

/-- An *_INIT command keeps the invariant: it faults in a running call, and starts its own call elsewhere. -/
theorem exec_init_keepsInvariant {i : Instr} {s t u : State} (hi : pipelineOf i = none) (h : Invariant s)
    (hstart : s.phase ≠ .active → exec i s = .next u) (hu : Invariant u) (hr : exec i s = .next t) : Invariant t := by
  by_cases ha : s.phase = .active
  · cases (exec_init_active hi ha).symm.trans hr
    exact h.faultEntry (by decide)
  · cases (hstart ha).symm.trans hr
    exact hu

/-- Every command keeps the invariant. -/
theorem exec_keepsInvariant {i : Instr} {s t : State} (h : Invariant s) (hr : exec i s = .next t) : Invariant t := by
  cases i with
  | encInit => exact exec_init_keepsInvariant rfl h exec_encInit h.encInit hr
  | encByte b => exact runData_keepsInvariant (.encByte b) (encByteRule_keepsInvariant b) h hr
  | encEnd => exact runData_keepsInvariant .encEnd encEndRule_keepsInvariant h hr
  | decInit => exact exec_init_keepsInvariant rfl h exec_decInit h.decInit hr
  | decByte b => exact runData_keepsInvariant (.decByte b) (decByteRule_keepsInvariant b) h hr
  | decEnd => exact runData_keepsInvariant .decEnd decEndRule_keepsInvariant h hr
  | pkInit => exact exec_init_keepsInvariant rfl h exec_pkInit (h.startCall (.inl rfl)) hr
  | pkAppend w v => exact runData_keepsInvariant (.pkAppend _ _) (emit_keepsInvariant _ _) h hr
  | pkEnd => exact runData_keepsInvariant .pkEnd pkEnd_keepsInvariant h hr
  | upkInit =>
    exact exec_init_keepsInvariant rfl h exec_upkInit ((h.startCall (.inr rfl)).congr_output _ 0 _ _) hr
  | upkByte b => exact runData_keepsInvariant (.upkByte b) (upkByteRule_keepsInvariant b) h hr
  | upkRead w => exact runData_keepsInvariant (.upkRead _) (upkReadRule_keepsInvariant _) h hr
  | upkEnd => exact runData_keepsInvariant .upkEnd upkEnd_keepsInvariant h hr

/-- Every command word, legal or not, keeps the invariant. -/
theorem runWord_keepsInvariant {w : Word} {s t : State} (h : Invariant s) (hr : runWord w s = .next t) :
    Invariant t := by
  rcases hd : decodeCmd w with e | i
  · rw [runWord_of_error s hd, runIllegal] at hr
    split at hr <;> cases hr
    · exact h
    · exact h.faultEntry (by decide)
  · rw [runWord_of_ok s hd] at hr
    exact exec_keepsInvariant h hr

/-- Settles O57, by the parts of the invariant each access of the host can touch. -/
theorem stepKeepsInvariant : Obligations.StepKeepsInvariant := by
  intro s t h hstep
  rcases step_cases hstep with ⟨_, rfl⟩ | ⟨rest, _, rfl⟩ | ⟨w, rest, _, hr⟩ | ⟨o, rest, v, q, _, rfl, _⟩
  · exact h
  · exact invariant_resetBlock h.params
  · exact runWord_keepsInvariant (h.congr_output _ _ rest _) hr
  · exact h.congr_output _ _ _ _

/-- Settles O56: the reset state is what a reset of the block leaves. -/
theorem resetMeetsInvariant : Obligations.ResetMeetsInvariant := fun p accesses hp =>
  invariant_resetBlock (s := { State.reset with params := p, pending := accesses }) hp

end Sys2Proof.Machine

namespace Sys2Proof.Machine

/-! ### The rule's own terms (R40) -/

theorem Symbol.snoc_inj {s t : Symbol} {x y : Byte} (h : s.snoc x = t.snoc y) : s = t := by
  obtain ⟨f, r⟩ := s
  obtain ⟨g, q⟩ := t
  simp only [Symbol.snoc, Symbol.mk.injEq] at h ⊢
  obtain ⟨hfirst, hrest⟩ := h
  exact ⟨hfirst, List.append_inj_left' hrest rfl⟩

/-- A known Symbol is known without its last byte (R40 item 3). -/
theorem ParentClosed.knows_of_snoc {s : State} (h : ParentClosed s) {sym : Symbol} {x : Byte}
    (hk : s.knows (sym.snoc x)) : s.knows sym := by
  obtain ⟨t, y, ht, he⟩ := h _ hk (by simp [Symbol.snoc])
  exact Symbol.snoc_inj he ▸ ht

/-- Settles O58, item by item. -/
theorem invariantGivesSpecItems : Obligations.InvariantGivesSpecItems := by
  intro s h
  refine ⟨⟨h.canonical.inverse, fun c => ?_⟩, ?_, fun _ _ => h.closed.knows_of_snoc, h.acc, h.decBits,
    fun hc ha => ⟨fun hp => ?_, fun _ => h.decNext hc ha⟩, fun hc ha => ?_, fun hc ha => ?_⟩
  · rw [← Option.isSome_iff_exists]; exact h.canonical.rev_isSome c
  · exact h.capacity.imp_right fun ⟨⟨hge, _⟩, hle⟩ => ⟨hge, hle⟩
  · rw [h.decNext hc ha, h.decFirst hc ha hp]; decide
  · rcases hw : s.word with _ | w
    · exact .inl rfl
    · exact .inr ⟨w, rfl, h.encWord hc ha w hw⟩
  · rcases hp : s.prev with _ | p
    · exact .inl rfl
    · exact .inr ⟨p, rfl, h.decPrev hc ha p hp⟩

/-! ### Frames (R41) -/

/-- What a data command can do to the state, with the code of a fault left open. -/
theorem runData_frame {p : Call} {legal : Bool} {rule : State → Except Abort State} {s t : State}
    (h : runData p legal rule s = .next t) :
    t = s ∨ (∃ e, t = s.faultEntry e) ∨ (s.phase = .active ∧ rule s = .ok t) := by
  rcases runData_cases h with h | ⟨e, _, h⟩ | ⟨ha, _, h⟩ | ⟨_, _, e, _, h⟩
  · exact .inl h
  · exact .inr (.inl ⟨e, h⟩)
  · exact .inr (.inr ⟨ha, h⟩)
  · exact .inr (.inl ⟨e, h⟩)

/-- What an *_INIT command can do: the fault entry in a running call, and elsewhere the state `u` it starts. -/
theorem exec_init_frame {i : Instr} {s t u : State} (hi : pipelineOf i = none)
    (hstart : s.phase ≠ .active → exec i s = .next u) (h : exec i s = .next t) : t = s.faultEntry .sequence ∨ t = u := by
  by_cases ha : s.phase = .active
  · cases (exec_init_active hi ha).symm.trans h; exact .inl rfl
  · cases (hstart ha).symm.trans h; exact .inr rfl

theorem appendBits_outq_append (bits : List Bool) (s : State) : ∃ q, (s.appendBits bits).outq = s.outq ++ q := by
  obtain ⟨q, hq, _⟩ := appendBits_spec bits s
  exact ⟨q, hq⟩

theorem flush_outq_append (s : State) : ∃ q, s.flush.outq = s.outq ++ q := by
  rw [State.flush_outq]
  split
  · exact ⟨[], by simp⟩
  · exact ⟨_, rfl⟩

/-- Flushing after appending bits only appends to OUTQ. -/
theorem flush_appendBits_outq_append (bits : List Bool) (s : State) :
    ∃ q, (s.appendBits bits).flush.outq = s.outq ++ q := by
  obtain ⟨q, hq⟩ := appendBits_outq_append bits s
  obtain ⟨q', hq'⟩ := flush_outq_append (s.appendBits bits)
  exact ⟨q ++ q', by rw [hq', hq, List.append_assoc]⟩

/-- Settles O52, by what each command can do: nothing, the fault entry, or its own rule. -/
theorem packerFrame : Obligations.PackerFrame := by
  rintro i s t (rfl | ⟨a, v, rfl⟩ | rfl) h
  · rcases exec_init_frame rfl exec_pkInit h with rfl | rfl <;> simp
  · rcases runData_frame (h : runData .pk _ _ s = _) with rfl | ⟨e, rfl⟩ | ⟨ha, hok⟩
    · simp
    · simp
    · rcases emit_cases v.toNat a.toNat s with ⟨_, he⟩ | ⟨_, he⟩ <;> cases he.symm.trans hok
      simpa [ha] using appendBits_outq_append (bitsOf a.toNat v.toNat) s
  · rcases runData_frame (h : runData .pk _ _ s = _) with rfl | ⟨e, rfl⟩ | ⟨ha, hok⟩
    · simp
    · simp
    · cases hok
      simpa using flush_outq_append s

/-- Settles O53, by what each command can do: nothing, the fault entry, or its own rule. -/
theorem unpackerFrame : Obligations.UnpackerFrame := by
  rintro i s t (rfl | ⟨b, rfl⟩ | ⟨a, rfl⟩ | rfl) h
  · rcases exec_init_frame rfl exec_upkInit h with rfl | rfl <;> simp
  · rcases runData_frame (h : runData .upk _ _ s = _) with rfl | ⟨e, rfl⟩ | ⟨ha, hok⟩
    · simp
    · simp
    · unfold upkByteRule at hok
      split at hok <;> cases hok
      simp [ha]
  · rcases runData_frame (h : runData .upk _ _ s = _) with rfl | ⟨e, rfl⟩ | ⟨ha, hok⟩
    · simp
    · simp
    · rcases upkReadRule_cases a.toNat s with ⟨_, he⟩ | ⟨_, he⟩ <;> cases he.symm.trans hok
      simp [ha]
  · rcases runData_frame (h : runData .upk _ _ s = _) with rfl | ⟨e, rfl⟩ | ⟨ha, hok⟩
    · simp
    · simp
    · cases hok
      simp

/-- Settles O54, by what each command can do: nothing, the fault entry, or its own rule. -/
theorem encoderFrame : Obligations.EncoderFrame := by
  rintro i s t (rfl | ⟨b, rfl⟩ | rfl) h
  · rcases exec_init_frame rfl exec_encInit h with rfl | rfl <;> simp
  · rcases runData_frame (h : runData .enc _ _ s = _) with rfl | ⟨e, rfl⟩ | ⟨ha, hok⟩
    · simp
    · simp
    · rcases encByteRule_cases b s with ⟨_, he⟩ | ⟨w, c, _, _, he⟩ | ⟨w, _, _, he⟩
      · cases he.symm.trans hok; simp [ha]
      · cases he.symm.trans hok; simp [ha]
      · rcases encMiss_cases w b s with ⟨_, h'⟩ | ⟨k, _, ⟨_, h'⟩ | ⟨_, _, h'⟩ | ⟨_, _, _, h'⟩ | ⟨_, _, _, h'⟩⟩ <;>
          cases (he.trans h').symm.trans hok
        simpa [ha] using appendBits_outq_append (bitsOf (nbits s) k) s
  · rcases runData_frame (h : runData .enc _ _ s = _) with rfl | ⟨e, rfl⟩ | ⟨ha, hok⟩
    · simp
    · simp
    · rcases encEndRule_cases s with ⟨_, he⟩ | ⟨w, _, _, he⟩ | ⟨w, k, _, _, _, he⟩ | ⟨w, k, _, _, _, he⟩ <;>
        cases he.symm.trans hok
      · simpa using flush_appendBits_outq_append (bitsOf (nbits s) 0) s
      · obtain ⟨q, hq⟩ := appendBits_outq_append (bitsOf (nbits s) k) s
        obtain ⟨q', hq'⟩ := flush_appendBits_outq_append (bitsOf (nbits s) 0) (s.appendBits (bitsOf (nbits s) k))
        rw [hq, List.append_assoc] at hq'
        simpa using ⟨_, hq'⟩

/-- Settles O55, by what each command can do: nothing, the fault entry, or its own rule. -/
theorem decoderFrame : Obligations.DecoderFrame := by
  rintro i s t (rfl | ⟨b, rfl⟩ | rfl) h
  · rcases exec_init_frame rfl exec_decInit h with rfl | rfl <;> simp
  · rcases runData_frame (h : runData .dec _ _ s = _) with rfl | ⟨e, rfl⟩ | ⟨ha, hok⟩
    · simp
    · simp
    · rcases decByteRule_cases b s with ⟨_, he⟩ | ⟨_, ⟨_, he⟩ | ⟨_, _, he⟩ | ⟨sym, _, _, ⟨_, he⟩ | ⟨p, _, _, he⟩ |
        ⟨p, _, _, _, he⟩ | ⟨p, _, _, _, he⟩⟩⟩ <;> cases he.symm.trans hok <;> simp [ha]
  · rcases runData_frame (h : runData .dec _ _ s = _) with rfl | ⟨e, rfl⟩ | ⟨ha, hok⟩
    · simp
    · simp
    · unfold decEndRule at hok
      split at hok <;> cases hok
      simp

/-! ### STATUS (R23, R24) -/

/-- A field of STATUS as a number. -/
theorem statusWord_field (s : State) (start len : Nat) :
    ((statusWord s).extractLsb' start len).toNat = (statusWord s).toNat / 2 ^ start % 2 ^ len := by
  rw [BitVec.extractLsb'_toNat, Nat.shiftRight_eq_div_pow]

/-- STATUS.NBITS as a number: the low five bits of the width. -/
theorem statusWord_nbits (s : State) : ((statusWord s).extractLsb' 16 5).toNat = statusNbits s % 32 := by
  have hp := (phaseBits s.phase).isLt
  have hc := (callBits s.call).isLt
  have he := (errBits s.err).isLt
  have ho := (outNe s).isLt
  rw [statusWord_field, statusWord_toNat]
  omega

/-- Every field of STATUS holds its element of the state, and the reserved bits are 0. -/
theorem statusWord_fields (s : State) :
    (statusWord s).extractLsb' 0 2 = phaseBits s.phase ∧ (statusWord s).extractLsb' 2 3 = callBits s.call ∧
      (statusWord s).extractLsb' 5 3 = 0 ∧ (statusWord s).extractLsb' 8 4 = errBits s.err ∧
      (statusWord s).extractLsb' 12 1 = outNe s ∧ (statusWord s).extractLsb' 13 3 = 0 ∧
      (statusWord s).extractLsb' 16 5 = BitVec.ofNat 5 (statusNbits s) ∧ (statusWord s).extractLsb' 21 11 = 0 := by
  have hp := (phaseBits s.phase).isLt
  have hc := (callBits s.call).isLt
  have he := (errBits s.err).isLt
  have ho := (outNe s).isLt
  refine ⟨?_, ?_, ?_, ?_, ?_, ?_, BitVec.eq_of_toNat_eq (by simpa using statusWord_nbits s), ?_⟩ <;>
    apply BitVec.eq_of_toNat_eq <;> rw [statusWord_field, statusWord_toNat] <;> simp <;> omega

/-- Settles O9, field by field. -/
theorem statusReadReportsFields : Obligations.StatusReadReportsFields := by
  refine ⟨fun s rest hp => ?_, fun s n x rest hp => ?_, by decide⟩
  · obtain ⟨hphase, hcall, hr1, herr, hout, hr2, hnbits, hr3⟩ := statusWord_fields s
    refine ⟨statusWord s, step_read_status hp, hphase.trans ?_, hcall.trans ?_, hr1, herr.trans ?_, hout, hr2,
      hnbits.trans ?_, hr3⟩
    · cases s.phase <;> rfl
    · cases s.call <;> rfl
    · cases s.err <;> rfl
    · unfold statusNbits; cases s.call <;> rfl
  · rw [step_of_access hp]
    exact (hostWrite_cases 0x04#5 n x s.takeAccess).resolve_right fun ⟨ho, _⟩ => absurd ho (by decide)

/-- In a state that meets the invariant the width STATUS shows is 0 or in 9..W_MAX+1. -/
theorem statusNbits_range {s : State} (h : Invariant s) :
    statusNbits s = 0 ∨ (9 ≤ statusNbits s ∧ statusNbits s ≤ s.params.wMax + 1) := by
  unfold statusNbits
  rcases hc : s.call with _ | _ | _ | _ | _
  case enc =>
    obtain ⟨⟨hge, _⟩, hle⟩ := h.capacity.resolve_left (h.seeded (.inl hc))
    have hlt : s.maxCode < 2 ^ s.params.wMax := by
      have := codeLimit_ge h.params
      unfold codeLimit at this hle; omega
    have hlow : 8 < bitLength s.maxCode := (lt_bitLength_iff _ _).mpr hge
    have hhigh := (bitLength_le_iff _ _).mpr hlt
    exact .inr ⟨hlow, by simp only; omega⟩
  case dec => exact .inr ⟨h.decWidth hc, h.dnbits⟩
  all_goals exact .inl rfl

/-- Settles O10: the width fits the five bits of its field, as W_MAX is at most 30. -/
theorem statusNbitsIsNextWidth : Obligations.StatusNbitsIsNextWidth := by
  intro s rest h hp
  have hrange := statusNbits_range h
  obtain ⟨_, hw, _⟩ := wellFormed_bounds h.params
  have hfield : ((statusWord s).extractLsb' 16 5).toNat = statusNbits s := by
    rw [statusWord_nbits, Nat.mod_eq_of_lt (by omega)]
  refine ⟨statusWord s, step_read_status hp, ?_⟩
  rw [hfield]
  refine ⟨fun hc => ?_, fun hc => ?_, fun he hd => ?_, hrange⟩
  · simp [statusNbits, hc]
  · simp [statusNbits, hc]
  · unfold statusNbits; cases hc : s.call <;> simp_all

/-! ### OUT, RESULT and MAXCODE (R25 to R27) -/

/-- Settles O11. -/
theorem outReadPopsOldestByte : Obligations.OutReadPopsOldestByte := by
  intro s rest hp
  refine ⟨fun hq => ?_, fun b q hq => ⟨outWord s, outWord_toNat hq, ?_⟩⟩
  · rw [step_read_out hp, outWord, hq]; rfl
  · rw [step_read_out hp, hq]; rfl

/-- Every command belongs to one of the four pipelines. -/
theorem instr_families (i : Instr) :
    (i = .encInit ∨ (∃ b, i = .encByte b) ∨ i = .encEnd) ∨ (i = .decInit ∨ (∃ b, i = .decByte b) ∨ i = .decEnd) ∨
      (i = .pkInit ∨ (∃ a v, i = .pkAppend a v) ∨ i = .pkEnd) ∨
      (i = .upkInit ∨ (∃ b, i = .upkByte b) ∨ (∃ a, i = .upkRead a) ∨ i = .upkEnd) := by
  cases i <;> simp

/-- A command that changes RESULTV is UPK_INIT or UPK_READ, by the frames of the four pipelines. -/
theorem exec_resultv_changed {i : Instr} {s t : State} (h : exec i s = .next t) (hne : t.resultv ≠ s.resultv) :
    i = .upkInit ∨ ∃ a, i = .upkRead a := by
  rcases instr_families i with hi | hi | hi | hi
  · obtain ⟨_, _, hv, _⟩ := encoderFrame i s t hi h
    exact absurd hv hne
  · obtain ⟨_, hv, _⟩ := decoderFrame i s t hi h
    exact absurd hv hne
  · obtain ⟨_, _, _, _, _, _, hv, _⟩ := packerFrame i s t hi h
    exact absurd hv hne
  · obtain ⟨_, _, _, _, _, _, _, _, _, _, _, _, hv⟩ := unpackerFrame i s t hi h
    rcases hi with hi | hi | hi | hi
    · exact .inl hi
    · exact absurd (hv (.inl hi)) hne
    · exact .inr hi
    · exact absurd (hv (.inr hi)) hne

/-- Settles O12. -/
theorem resultRegisterHoldsLastRead : Obligations.ResultRegisterHoldsLastRead := by
  refine ⟨fun s rest hp => ⟨resultWord s, ?_, step_read_result hp⟩, fun i s t => exec_resultv_changed, rfl⟩
  have := s.resultv.isLt
  rw [resultWord, BitVec.toNat_setWidth, Nat.mod_eq_of_lt (by omega)]

/-- The command inserted one Symbol that was not in FWD, at the next code. -/
def InsertsOne (s t : State) : Prop :=
  ∃ sym, mapGet s.fwd sym = none ∧ t.maxCode = s.maxCode + 1 ∧ mapGet t.fwd sym = some t.maxCode

theorem encByte_maxCode {b : Byte} {s t : State} (h : exec (.encByte b) s = .next t) :
    t.maxCode = s.maxCode ∨ InsertsOne s t := by
  rcases runData_frame (h : runData .enc _ _ s = _) with rfl | ⟨e, rfl⟩ | ⟨_, hok⟩
  · exact .inl rfl
  · exact .inl rfl
  · rcases encByteRule_cases b s with ⟨_, he⟩ | ⟨w, c, _, _, he⟩ | ⟨w, _, hn, he⟩
    · cases he.symm.trans hok; exact .inl rfl
    · cases he.symm.trans hok; exact .inl rfl
    · rcases encMiss_cases w b s with ⟨_, h'⟩ | ⟨k, _, ⟨_, h'⟩ | ⟨_, _, h'⟩ | ⟨_, _, _, h'⟩ | ⟨_, _, _, h'⟩⟩ <;>
        cases (he.trans h').symm.trans hok
      exact .inr ⟨w.snoc b, hn, by simp, by simp [mapGet_mapSet]⟩

theorem decByte_maxCode {b : Byte} {s t : State} (h : exec (.decByte b) s = .next t) :
    t.maxCode = s.maxCode ∨ InsertsOne s t := by
  rcases runData_frame (h : runData .dec _ _ s = _) with rfl | ⟨e, rfl⟩ | ⟨_, hok⟩
  · exact .inl rfl
  · exact .inl rfl
  · rcases decByteRule_cases b s with ⟨_, he⟩ | ⟨_, ⟨_, he⟩ | ⟨_, _, he⟩ | ⟨sym, _, _, ⟨_, he⟩ | ⟨p, _, _, he⟩ |
      ⟨p, _, _, _, he⟩ | ⟨p, _, hn, _, he⟩⟩⟩ <;> cases he.symm.trans hok
    · exact .inl rfl
    · exact .inl rfl
    · exact .inl rfl
    · exact .inr ⟨p.snoc sym.first, hn, by simp, by simp [mapGet_mapSet]⟩

/-- But for ENC_INIT and DEC_INIT, a command leaves MAX_CODE or inserts one Symbol. -/
theorem exec_maxCode {i : Instr} {s t : State} (h : exec i s = .next t) (hne : i ≠ .encInit) (hnd : i ≠ .decInit) :
    t.maxCode = s.maxCode ∨ InsertsOne s t := by
  rcases instr_families i with (hi | ⟨b, rfl⟩ | rfl) | (hi | ⟨b, rfl⟩ | rfl) | hi | hi
  · exact absurd hi hne
  · exact encByte_maxCode h
  · obtain ⟨_, _, _, _, _, _, _, _, hdict, _⟩ := encoderFrame .encEnd s t (by simp) h
    obtain ⟨_, _, hm⟩ := hdict rfl
    exact .inl hm
  · exact absurd hi hnd
  · exact decByte_maxCode h
  · obtain ⟨_, _, _, _, _, _, _, hdict⟩ := decoderFrame .decEnd s t (by simp) h
    obtain ⟨_, _, hm, _⟩ := hdict rfl
    exact .inl hm
  · obtain ⟨_, _, hm, _⟩ := packerFrame i s t hi h
    exact .inl hm
  · obtain ⟨_, _, hm, _⟩ := unpackerFrame i s t hi h
    exact .inl hm

/-- In a state that meets the invariant MAX_CODE fits the 32-bit register. -/
theorem Invariant.maxCode_lt {s : State} (h : Invariant s) : s.maxCode < 2 ^ 32 := by
  have hpow : 2 ^ s.params.wMax ≤ 2 ^ 30 := Nat.pow_le_pow_right (by decide) (wellFormed_bounds h.params).2.1
  rcases h.capacity with h0 | ⟨_, hle⟩
  · omega
  · unfold codeLimit at hle; omega

/-- Settles O13. -/
theorem maxcodeRegisterReadsMaxCode : Obligations.MaxcodeRegisterReadsMaxCode := by
  refine ⟨fun s rest h hp => ⟨maxcodeWord s, ?_, step_read_maxcode hp⟩, rfl, fun s ha => ?_, fun i s t => exec_maxCode⟩
  · rw [maxcodeWord, BitVec.toNat_ofNat, Nat.mod_eq_of_lt h.maxCode_lt]
  · exact ⟨⟨_, exec_encInit ha, rfl⟩, ⟨_, exec_decInit ha, rfl⟩⟩

/-! ### The reset state (R39) -/

/-- ENC_INIT leaves the clean-entry state (70_reset_and_hazards.md R259). -/
theorem encInit_cleanEntry (s : State) : CleanEntry .enc ((s.startCall .enc).dictInit.setWord none) := by
  simp [CleanEntry]

/-- DEC_INIT leaves the clean-entry state (70_reset_and_hazards.md R259). -/
theorem decInit_cleanEntry (s : State) :
    CleanEntry .dec (((s.startCall .dec).dictInit.setDnbits 9).setPrev none) := by
  simp [CleanEntry]

/-- Settles O16. -/
theorem resetStateHoldsTableValues : Obligations.ResetStateHoldsTableValues :=
  ⟨rfl, rfl, rfl, rfl, rfl, rfl, rfl, rfl, rfl, rfl, rfl, rfl, rfl, by decide, by decide, by decide, by decide,
    fun s ha => ⟨⟨_, exec_encInit ha, encInit_cleanEntry s⟩, ⟨_, exec_decInit ha, decInit_cleanEntry s⟩⟩⟩

end Sys2Proof.Machine

/-! PROOFS. The statements of 20_memory.md: the accesses the machine refuses (R62) and the order in which the host's
command writes run (R70). -/

namespace Sys2Proof

/-! ### The decoder on the word of a command (30_encoding.md R86, R93) -/

theorem decodeNone_of_fields {w : Word} (i : Instr) (hw : wField w = 0) (hv : vField w = 0) :
    decodeNone i w = .ok i := if_pos ⟨hw, hv⟩

/-- A byte operand in V leaves V[22:8] zero and is read back from V[7:0]. -/
theorem decodeByteForm_of_fields {w : Word} {b : Byte} (mk : Byte → Instr) (hw : wField w = 0)
    (hv : vField w = b.setWidth 23) : decodeByteForm mk w = .ok (mk b) := by
  have hb := b.isLt
  have hval : w.toNat % 2 ^ 23 = b.toNat := by
    rw [← vField_toNat, hv, BitVec.toNat_setWidth, Nat.mod_eq_of_lt (by omega)]
  have hhigh : vHighField w = 0 := BitVec.eq_of_toNat_eq (by rw [vHighField_toNat]; simp; omega)
  have hlow : bField w = b := BitVec.eq_of_toNat_eq (by rw [bField_toNat]; omega)
  rw [decodeByteForm, if_pos ⟨hw, hhigh⟩, hlow]

theorem decodeAppendForm_of_fields {w : Word} {a : BitVec 5} {v : BitVec 23} (hw : wField w = a) (hv : vField w = v)
    (ha : a.toNat ≤ 23) : decodeAppendForm w = .ok (.pkAppend a v) := by
  rw [decodeAppendForm, hw, hv, if_pos ha]

theorem decodeReadForm_of_fields {w : Word} {a : BitVec 5} (hw : wField w = a) (hv : vField w = 0)
    (ha : a.toNat ≤ 23) : decodeReadForm w = .ok (.upkRead a) := by
  rw [decodeReadForm, if_pos hv, hw, if_pos ha]

/-- The word of a well-formed command decodes to the command: its OP selects the row, whose format reads the operands
back. -/
theorem decodeCmd_encode {i : Instr} (h : i.wellFormed = true) : decodeCmd (encode i) = .ok i := by
  obtain ⟨ho, hw, hv⟩ := Laws.EncodedFields.of_fields i
  unfold decodeCmd
  rw [ho]
  cases i with
  | encInit | encEnd | decInit | decEnd | pkInit | pkEnd | upkInit | upkEnd => exact decodeNone_of_fields _ hw hv
  | encByte b | decByte b | upkByte b => exact decodeByteForm_of_fields _ hw hv
  | pkAppend a v => exact decodeAppendForm_of_fields hw hv (of_decide_eq_true h)
  | upkRead a => exact decodeReadForm_of_fields hw hv (of_decide_eq_true h)

end Sys2Proof

namespace Sys2Proof.Machine

/-! ### What is refused (R62) -/

theorem runAdmitted_not_refused (a : Admission) (rule : State → Except Abort State) (s : State) (x : Refusal) :
    runAdmitted a rule s ≠ .refused x := by
  cases a with
  | run => exact commit_not_refused s (rule s) x
  | ignore => simp [runAdmitted]
  | raise e => simp [runAdmitted]

theorem runData_not_refused (p : Call) (legal : Bool) (rule : State → Except Abort State) (s : State) (x : Refusal) :
    runData p legal rule s ≠ .refused x := by
  unfold runData
  split
  · simp
  split
  · simp
  · exact runAdmitted_not_refused _ rule s x

/-- No command is refused: it completes, faults or stops (40_dispatch.md R100). -/
theorem exec_not_refused (i : Instr) (s : State) (x : Refusal) : exec i s ≠ .refused x := by
  rcases hp : pipelineOf i with _ | p
  · obtain ⟨_, _, _, _, he⟩ := exec_init hp
    rw [he]
    exact runAdmitted_not_refused _ _ s x
  · obtain ⟨rule, _, he⟩ := exec_data hp
    rw [he]
    exact runData_not_refused p _ rule s x

/-- No word written to CMD is refused, legal or not. -/
theorem runWord_not_refused (w : Word) (s : State) (x : Refusal) : runWord w s ≠ .refused x := by
  rcases hd : decodeCmd w with e | i
  · rw [runWord_of_error s hd, runIllegal]
    split <;> simp
  · rw [runWord_of_ok s hd]
    exact exec_not_refused i s x

/-- An access is sound in width and offset exactly when it is a word at one of the five registers (10_state.md R21). -/
theorem accessProblem_eq_none_iff (o : BitVec 5) (n : Nat) :
    accessProblem o n = none ↔
      n = 4 ∧ (o = offCmd ∨ o = offStatus ∨ o = offOut ∨ o = offResult ∨ o = offMaxcode) := by
  have hoffsets : (o.toNat % 4 = 0 ∧ o.toNat ≤ 16) ↔
      (o = offCmd ∨ o = offStatus ∨ o = offOut ∨ o = offResult ∨ o = offMaxcode) := by
    revert o; decide
  rw [← hoffsets]
  unfold accessProblem
  split_ifs <;> simp_all [offMaxcode]

/-- Of the host's writes, all but a 32-bit write of CMD are refused. -/
theorem hostWrite_refused_iff (o : BitVec 5) (n : Nat) (w : Word) (s : State) :
    (∃ r, hostWrite o n w s = .refused r) ↔ ¬ (o = offCmd ∧ n = 4) := by
  constructor
  · rintro ⟨r, hr⟩ ⟨rfl, rfl⟩
    exact runWord_not_refused w s r hr
  · intro hne
    exact (hostWrite_cases o n w s).resolve_right fun ⟨ho, hn, _⟩ => hne ⟨ho, hn⟩

/-- Of the host's reads, all but a 32-bit read of STATUS, OUT, RESULT or MAXCODE are refused. -/
theorem hostRead_refused_iff (o : BitVec 5) (n : Nat) (s : State) :
    (∃ r, hostRead o n s = .refused r) ↔
      ¬ (n = 4 ∧ (o = offStatus ∨ o = offOut ∨ o = offResult ∨ o = offMaxcode)) := by
  constructor
  · rintro ⟨r, hr⟩ ⟨rfl, rfl | rfl | rfl | rfl⟩ <;> cases hr
  · intro hne
    unfold hostRead
    rcases ha : accessProblem o n with _ | r
    · obtain ⟨rfl, ho | ho⟩ := (accessProblem_eq_none_iff o n).mp ha
      · exact ⟨.readOfCmd, if_pos ho⟩
      · exact absurd ⟨rfl, ho⟩ hne
    · exact ⟨r, rfl⟩

/-- Settles O14, by the kind of the oldest access. -/
theorem otherAccessesAreRefused : Obligations.OtherAccessesAreRefused := by
  intro s a rest hp
  rw [step_of_access hp]
  cases a with
  | write o n w => exact (hostWrite_refused_iff o n w _).trans (by simp [offCmd])
  | read o n =>
    refine (hostRead_refused_iff o n _).trans ?_
    simp only [reduceCtorEq, HostAccess.read.injEq, exists_false, false_or, ← or_and_right]
    exact not_congr and_comm
  | reset => simp [performAccess]

/-! ### The order of the host's command writes (R70) -/

/-- A step on the write of a well-formed command executes the command, with the later accesses left pending. -/
theorem step_of_commandAccess {i : Instr} {s : State} {rest : List HostAccess} (hi : i.wellFormed = true)
    (h : s.pending = commandAccess i :: rest) : step s = exec i { s with pending := rest } := by
  rw [step_of_command h, takeAccess_of_pending h, runWord_of_ok _ (decodeCmd_encode hi)]

/-- Settles O17, by induction on the commands: no command sees the accesses that wait behind it. -/
theorem hostWritesRunInOrder : Obligations.HostWritesRunInOrder := by
  intro is
  induction is with
  | nil =>
    intro s rest _ hp
    obtain rfl : s.pending = rest := hp
    rfl
  | cons i is ih =>
    intro s rest hw hp
    obtain ⟨hi, his⟩ := List.forall_mem_cons.mp hw
    have hfirst : step s = mapNext (State.withHost (is.map commandAccess ++ rest) s.replies) (exec i s) := by
      rw [step_of_commandAccess hi hp]
      exact exec_withHost _ s.replies i s
    have hcommand : exec i { s with pending := rest } = mapNext (State.withHost rest s.replies) (exec i s) :=
      exec_withHost rest s.replies i s
    rw [List.length_cons, runSteps, runCommands, hfirst, hcommand]
    rcases exec i s with t | f | r
    · exact ih (t.withHost (is.map commandAccess ++ rest) s.replies) rest his rfl
    · rfl
    · rfl

end Sys2Proof.Machine

/-! PROOFS. The statements of 30_encoding.md: the decoder and the encoder invert each other (R86, R93), the opcode map
(R87), the operands (R88), the illegal words (R89), and DRAIN (R92). -/

namespace Sys2Proof

/-! ### The formats of the opcode map (R86, R87) -/

/-- The commands of format N. -/
def formatN : List Instr := [.encInit, .encEnd, .decInit, .decEnd, .pkInit, .pkEnd, .upkInit, .upkEnd]

/-- The commands of format B, each a function of its byte. -/
def formatB : List (Byte → Instr) := [.encByte, .decByte, .upkByte]

theorem formatN_operands : ∀ i ∈ formatN, i.wellFormed = true ∧ i.wOperand = 0 ∧ i.vOperand = 0 := by decide

theorem formatB_operands (b : Byte) {mk : Byte → Instr} (h : mk ∈ formatB) :
    (mk b).wellFormed = true ∧ (mk b).opcode = (mk 0).opcode ∧ (mk b).wOperand = 0 ∧
      (mk b).vOperand = b.setWidth 23 := by
  simp only [formatB, List.mem_cons, List.not_mem_nil, or_false] at h
  rcases h with rfl | rfl | rfl <;> exact ⟨rfl, rfl, rfl, rfl⟩

/-- Every OP is reserved or belongs to one of the four formats. -/
theorem opcode_formats : ∀ o : BitVec 4, o ∈ [0x0#4, 0xE#4, 0xF#4] ∨ (∃ i ∈ formatN, o = i.opcode) ∨
    (∃ mk ∈ formatB, o = (mk 0).opcode) ∨ o = 0x8#4 ∨ o = 0xC#4 := by
  decide

/-! ### The decoder, one equation for each format -/

theorem decodeCmd_of_reserved {w : Word} (h : opField w ∈ [0x0#4, 0xE#4, 0xF#4]) :
    decodeCmd w = .error .reservedOpcode := by
  simp only [List.mem_cons, List.not_mem_nil, or_false] at h
  unfold decodeCmd
  rcases h with h | h | h <;> rw [h] <;> rfl

theorem decodeCmd_of_formatN {w : Word} {i : Instr} (hi : i ∈ formatN) (h : opField w = i.opcode) :
    decodeCmd w = decodeNone i w := by
  simp only [formatN, List.mem_cons, List.not_mem_nil, or_false] at hi
  unfold decodeCmd
  rw [h]
  rcases hi with rfl | rfl | rfl | rfl | rfl | rfl | rfl | rfl <;> rfl

theorem decodeCmd_of_formatB {w : Word} {mk : Byte → Instr} (hm : mk ∈ formatB) (h : opField w = (mk 0).opcode) :
    decodeCmd w = decodeByteForm mk w := by
  simp only [formatB, List.mem_cons, List.not_mem_nil, or_false] at hm
  unfold decodeCmd
  rw [h]
  rcases hm with rfl | rfl | rfl <;> rfl

theorem decodeCmd_of_formatA {w : Word} (h : opField w = 0x8#4) : decodeCmd w = decodeAppendForm w := by
  unfold decodeCmd; rw [h]; rfl

theorem decodeCmd_of_formatR {w : Word} (h : opField w = 0xC#4) : decodeCmd w = decodeReadForm w := by
  unfold decodeCmd; rw [h]; rfl

/-! ### The fields a format requires to be zero -/

theorem wField_eq_zero_iff (w : Word) : wField w = 0 ↔ w.toNat / 2 ^ 23 % 32 = 0 := by
  rw [← BitVec.toNat_inj, wField_toNat]; rfl

theorem vField_eq_zero_iff (w : Word) : vField w = 0 ↔ w.toNat % 2 ^ 23 = 0 := by
  rw [← BitVec.toNat_inj, vField_toNat]; rfl

theorem vHighField_eq_zero_iff (w : Word) : vHighField w = 0 ↔ w.toNat / 2 ^ 8 % 2 ^ 15 = 0 := by
  rw [← BitVec.toNat_inj, vHighField_toNat]; rfl

/-- With V[22:8] zero, V is its byte. -/
theorem vField_of_vHighField {w : Word} (h : vHighField w = 0) : vField w = (bField w).setWidth 23 := by
  have hhigh := (vHighField_eq_zero_iff w).mp h
  apply BitVec.eq_of_toNat_eq
  rw [vField_toNat, BitVec.toNat_setWidth, bField_toNat]
  omega

/-! ### Legal words (R93) -/

/-- A word with the fields of a command is the command's word. -/
theorem encode_eq_of_fields {w : Word} {i : Instr} (ho : opField w = i.opcode) (hw : wField w = i.wOperand)
    (hv : vField w = i.vOperand) : encode i = w := by
  obtain ⟨ho', hw', hv'⟩ := Laws.EncodedFields.of_fields i
  exact word_ext (ho'.trans ho.symm) (hw'.trans hw.symm) (hv'.trans hv.symm)

/-- The decoder drops nothing: each format either fixes a field to zero or gives it to the command whole. -/
theorem fields_of_decodeCmd {w : Word} {i : Instr} (h : decodeCmd w = .ok i) :
    i.wellFormed = true ∧ opField w = i.opcode ∧ wField w = i.wOperand ∧ vField w = i.vOperand := by
  rcases opcode_formats (opField w) with ho | ⟨j, hj, ho⟩ | ⟨mk, hm, ho⟩ | ho | ho
  · rw [decodeCmd_of_reserved ho] at h; cases h
  · rw [decodeCmd_of_formatN hj ho, decodeNone] at h
    split at h <;> cases h
    next hz =>
      obtain ⟨hwf, hw, hv⟩ := formatN_operands _ hj
      exact ⟨hwf, ho, hz.1.trans hw.symm, hz.2.trans hv.symm⟩
  · rw [decodeCmd_of_formatB hm ho, decodeByteForm] at h
    split at h <;> cases h
    next hz =>
      obtain ⟨hwf, hop, hw, hv⟩ := formatB_operands (bField w) hm
      exact ⟨hwf, ho.trans hop.symm, hz.1.trans hw.symm, (vField_of_vHighField hz.2).trans hv.symm⟩
  · rw [decodeCmd_of_formatA ho, decodeAppendForm] at h
    split at h <;> cases h
    next hle => exact ⟨decide_eq_true hle, ho, rfl, rfl⟩
  · rw [decodeCmd_of_formatR ho, decodeReadForm] at h
    split at h
    · split at h <;> cases h
      next hv hle => exact ⟨decide_eq_true hle, ho, rfl, hv⟩
    · cases h

/-- A word is legal exactly when its fields are the opcode and the operands of a well-formed command, and that is the
command it decodes to. -/
theorem decodeCmd_eq_ok_iff {w : Word} {i : Instr} : decodeCmd w = .ok i ↔
    i.wellFormed = true ∧ opField w = i.opcode ∧ wField w = i.wOperand ∧ vField w = i.vOperand :=
  ⟨fields_of_decodeCmd, fun ⟨hwf, ho, hw, hv⟩ => encode_eq_of_fields ho hw hv ▸ decodeCmd_encode hwf⟩

/-- Settles O1: the fields of the word select the row and give its operands back (`decodeCmd_encode`). -/
theorem decodeInvertsEncode : Obligations.DecodeInvertsEncode := fun _ => decodeCmd_encode

/-- Settles O2: the word and the encoding have the same three fields. -/
theorem legalWordIsItsEncoding : Obligations.LegalWordIsItsEncoding := by
  intro w i h
  obtain ⟨hwf, ho, hw, hv⟩ := fields_of_decodeCmd h
  exact ⟨hwf, encode_eq_of_fields ho hw hv⟩

/-! ### The opcode map (R87) -/

/-- A match under a mask is a match of each field under the mask's field. -/
theorem and_eq_iff_fields (w mask m : Word) : w &&& mask = m ↔
    opField w &&& opField mask = opField m ∧ wField w &&& wField mask = wField m ∧
      vField w &&& vField mask = vField m := by
  have ho : opField (w &&& mask) = opField w &&& opField mask := BitVec.extractLsb'_and
  have hw : wField (w &&& mask) = wField w &&& wField mask := BitVec.extractLsb'_and
  have hv : vField (w &&& mask) = vField w &&& vField mask := BitVec.extractLsb'_and
  rw [← ho, ← hw, ← hv]
  exact ⟨fun h => h ▸ ⟨rfl, rfl, rfl⟩, fun ⟨h1, h2, h3⟩ => word_ext h1 h2 h3⟩

/-- A row of format N: all bits of the word are fixed. -/
theorem formatN_row_iff {i : Instr} {m : Word} (w : Word) (hi : i.wellFormed = true) (hm : encode i = m) :
    w &&& 0xFFFFFFFF = m ↔ decodeCmd w = .ok i := by
  subst hm
  have hw : w &&& 0xFFFFFFFF = w := BitVec.and_allOnes
  rw [hw]
  exact ⟨fun h => h ▸ decodeCmd_encode hi, fun h => (legalWordIsItsEncoding w i h).2.symm⟩

/-- V[22:8] is zero exactly when V is the number of some byte. -/
theorem and_byteMask_eq_zero_iff (v : BitVec 23) : v &&& 0x7FFF00 = 0 ↔ ∃ b : Byte, v = b.setWidth 23 := by
  have hmask : (0x7FFF00 : BitVec 23) = BitVec.allOnes 23 <<< 8 := by decide
  have hzero : (0 : BitVec 23).toNat = 0 := rfl
  rw [hmask, ← BitVec.shiftLeft_ushiftRight, ← BitVec.toNat_inj, BitVec.toNat_shiftLeft, BitVec.toNat_ushiftRight,
    Nat.shiftLeft_eq, Nat.shiftRight_eq_div_pow, hzero]
  constructor
  · intro h
    have hlt := v.isLt
    refine ⟨v.setWidth 8, BitVec.eq_of_toNat_eq ?_⟩
    rw [BitVec.toNat_setWidth, BitVec.toNat_setWidth]
    omega
  · rintro ⟨b, rfl⟩
    have hb := b.isLt
    rw [BitVec.toNat_setWidth]
    omega

/-- The mask of a row of format B leaves the byte free. -/
theorem formatB_row_iff {mk : Byte → Instr} {m : Word} (w : Word) (hmk : mk ∈ formatB) (hm : encode (mk 0) = m) :
    w &&& 0xFFFFFF00 = m ↔ ∃ b, decodeCmd w = .ok (mk b) := by
  subst hm
  obtain ⟨ho, hw, hv⟩ := Laws.EncodedFields.of_fields (mk 0)
  obtain ⟨-, -, hw0, hv0⟩ := formatB_operands 0 hmk
  have hop : opField w &&& opField 0xFFFFFF00 = opField w := BitVec.and_allOnes
  have hwf : wField w &&& wField 0xFFFFFF00 = wField w := BitVec.and_allOnes
  rw [and_eq_iff_fields, ho, hw, hv, hw0, hv0, hop, hwf]
  simp only [decodeCmd_eq_ok_iff, formatB_operands _ hmk, true_and, exists_and_left]
  exact and_congr_right' (and_congr_right' (and_byteMask_eq_zero_iff _))

/-- The row of PK_APPEND: the mask leaves W and V free, and W is bounded. -/
theorem formatA_row_iff (w : Word) : w &&& 0xF0000000 = 0x80000000 ∧ w.toNat / 2 ^ 23 % 32 ≤ 23 ↔
    ∃ a v, decodeCmd w = .ok (.pkAppend a v) := by
  have hop : opField w &&& opField 0xF0000000 = opField w := BitVec.and_allOnes
  have hwf : wField w &&& wField 0xF0000000 = 0 := BitVec.and_zero
  have hvf : vField w &&& vField 0xF0000000 = 0 := BitVec.and_zero
  rw [and_eq_iff_fields, ← wField_toNat, hop, hwf, hvf]
  simp only [decodeCmd_eq_ok_iff, Instr.wellFormed, Instr.opcode, Instr.wOperand, Instr.vOperand]
  constructor
  · rintro ⟨⟨ho, -⟩, hle⟩
    exact ⟨_, _, decide_eq_true hle, ho, rfl, rfl⟩
  · rintro ⟨_, _, hle, ho, rfl, rfl⟩
    exact ⟨⟨ho, rfl, rfl⟩, of_decide_eq_true hle⟩

/-- The row of UPK_READ: the mask leaves W free, and W is bounded. -/
theorem formatR_row_iff (w : Word) : w &&& 0xF07FFFFF = 0xC0000000 ∧ w.toNat / 2 ^ 23 % 32 ≤ 23 ↔
    ∃ a, decodeCmd w = .ok (.upkRead a) := by
  have hop : opField w &&& opField 0xF07FFFFF = opField w := BitVec.and_allOnes
  have hwf : wField w &&& wField 0xF07FFFFF = 0 := BitVec.and_zero
  have hvf : vField w &&& vField 0xF07FFFFF = vField w := BitVec.and_allOnes
  rw [and_eq_iff_fields, ← wField_toNat, hop, hwf, hvf]
  simp only [decodeCmd_eq_ok_iff, Instr.wellFormed, Instr.opcode, Instr.wOperand, Instr.vOperand]
  constructor
  · rintro ⟨⟨ho, -, hv⟩, hle⟩
    exact ⟨_, decide_eq_true hle, ho, rfl, hv⟩
  · rintro ⟨_, hle, ho, rfl, hv⟩
    exact ⟨⟨ho, rfl, hv⟩, of_decide_eq_true hle⟩

/-- Settles O3, row by row. -/
theorem opcodeMapRowsDecode : Obligations.OpcodeMapRowsDecode := fun w =>
  ⟨formatN_row_iff w rfl rfl, formatB_row_iff w (by simp [formatB]) rfl, formatN_row_iff w rfl rfl,
    formatN_row_iff w rfl rfl, formatB_row_iff w (by simp [formatB]) rfl, formatN_row_iff w rfl rfl,
    formatN_row_iff w rfl rfl, formatA_row_iff w, formatN_row_iff w rfl rfl,
    formatN_row_iff w rfl rfl, formatB_row_iff w (by simp [formatB]) rfl, formatR_row_iff w,
    formatN_row_iff w rfl rfl⟩

/-! ### Operands (R88) -/

/-- The byte of a byte command is bits 7..0 of its word. -/
theorem byteOperand_toNat {w : Word} {mk : Byte → Instr} {b : Byte} (hmk : mk ∈ formatB)
    (h : decodeCmd w = .ok (mk b)) : b.toNat = w.toNat % 256 := by
  obtain ⟨-, -, -, hv⟩ := fields_of_decodeCmd h
  obtain ⟨-, -, -, hvb⟩ := formatB_operands b hmk
  have hval := congrArg BitVec.toNat (hv.trans hvb)
  have hb := b.isLt
  rw [vField_toNat, BitVec.toNat_setWidth] at hval
  omega

/-! ### Illegal words (R89), one condition for each format -/

/-- What one check of a format refuses. -/
theorem check_illegal_iff {c : Prop} [Decidable c] (i : Instr) (e : IllegalWord) :
    (∃ x, (if c then .ok i else .error e : Except IllegalWord Instr) = .error x) ↔ ¬ c := by
  by_cases hc : c <;> simp [hc]

theorem decodeNone_illegal_iff (i : Instr) (w : Word) :
    (∃ e, decodeNone i w = .error e) ↔ w.toNat % 2 ^ 28 ≠ 0 := by
  unfold decodeNone
  rw [check_illegal_iff, wField_eq_zero_iff, vField_eq_zero_iff]
  omega

theorem decodeByteForm_illegal_iff (mk : Byte → Instr) (w : Word) :
    (∃ e, decodeByteForm mk w = .error e) ↔ w.toNat % 2 ^ 28 / 2 ^ 8 ≠ 0 := by
  unfold decodeByteForm
  rw [check_illegal_iff, wField_eq_zero_iff, vHighField_eq_zero_iff]
  omega

theorem decodeAppendForm_illegal_iff (w : Word) :
    (∃ e, decodeAppendForm w = .error e) ↔ 23 < w.toNat / 2 ^ 23 % 32 := by
  unfold decodeAppendForm
  rw [check_illegal_iff, wField_toNat, not_le]

theorem decodeReadForm_illegal_iff (w : Word) :
    (∃ e, decodeReadForm w = .error e) ↔ w.toNat % 2 ^ 23 ≠ 0 ∨ 23 < w.toNat / 2 ^ 23 % 32 := by
  have hv := vField_eq_zero_iff w
  unfold decodeReadForm
  by_cases hz : vField w = 0
  · have hlow := hv.mp hz
    rw [if_pos hz, check_illegal_iff, wField_toNat, not_le]
    exact (or_iff_right (not_not.mpr hlow)).symm
  · rw [if_neg hz]
    exact iff_of_true ⟨_, rfl⟩ (.inl (mt hv.mpr hz))

/-- The words of R89: their OP is reserved, or the format of their OP refuses a field. -/
theorem decodeCmd_illegal_iff (w : Word) : (∃ e, decodeCmd w = .error e) ↔
      w.toNat / 2 ^ 28 ∈ [0x0, 0xE, 0xF] ∨
      (w.toNat / 2 ^ 28 ∈ [0x1, 0x3, 0x4, 0x6, 0x7, 0x9, 0xA, 0xD] ∧ w.toNat % 2 ^ 28 ≠ 0) ∨
      (w.toNat / 2 ^ 28 ∈ [0x2, 0x5, 0xB] ∧ w.toNat % 2 ^ 28 / 2 ^ 8 ≠ 0) ∨
      (w.toNat / 2 ^ 28 = 0x8 ∧ 23 < w.toNat / 2 ^ 23 % 32) ∨
      (w.toNat / 2 ^ 28 = 0xC ∧ (w.toNat % 2 ^ 23 ≠ 0 ∨ 23 < w.toNat / 2 ^ 23 % 32)) := by
  rcases opcode_formats (opField w) with ho | ⟨i, hi, ho⟩ | ⟨mk, hm, ho⟩ | ho | ho
  · have hop : w.toNat / 2 ^ 28 ∈ [0x0, 0xE, 0xF] := by
      rw [← opField_toNat]
      exact List.mem_map_of_mem (f := BitVec.toNat) ho
    rw [decodeCmd_of_reserved ho]
    exact iff_of_true ⟨_, rfl⟩ (.inl hop)
  · have hop : w.toNat / 2 ^ 28 ∈ [0x1, 0x3, 0x4, 0x6, 0x7, 0x9, 0xA, 0xD] := by
      rw [← opField_toNat, ho]
      exact List.mem_map_of_mem (f := fun i => i.opcode.toNat) hi
    rw [decodeCmd_of_formatN hi ho, decodeNone_illegal_iff]
    simp only [List.mem_cons, List.not_mem_nil, or_false] at hop ⊢
    omega
  · have hop : w.toNat / 2 ^ 28 ∈ [0x2, 0x5, 0xB] := by
      rw [← opField_toNat, ho]
      exact List.mem_map_of_mem (f := fun mk => (mk 0).opcode.toNat) hm
    rw [decodeCmd_of_formatB hm ho, decodeByteForm_illegal_iff]
    simp only [List.mem_cons, List.not_mem_nil, or_false] at hop ⊢
    omega
  · have hop : w.toNat / 2 ^ 28 = 0x8 := by rw [← opField_toNat, ho]; rfl
    rw [decodeCmd_of_formatA ho, decodeAppendForm_illegal_iff, hop]
    simp
  · have hop : w.toNat / 2 ^ 28 = 0xC := by rw [← opField_toNat, ho]; rfl
    rw [decodeCmd_of_formatR ho, decodeReadForm_illegal_iff, hop]
    simp

/-- Settles O6: closed words, which the decoder evaluates. -/
theorem sampleWordsDecode : Obligations.SampleWordsDecode := by
  unfold Obligations.SampleWordsDecode
  decide

end Sys2Proof

namespace Sys2Proof.Machine

/-! ### What operands and illegal words do (R88, R89) -/

/-- In an active PK call a PK_APPEND whose value does not fit its width faults PRECONDITION. -/
theorem exec_pkAppend_precondition {a : BitVec 5} {v : BitVec 23} {s : State} (ha : a.toNat ≤ 23)
    (hv : 2 ^ a.toNat ≤ v.toNat) (hc : s.call = .pk) (hp : s.phase = .active) :
    exec (.pkAppend a v) s = .next (s.faultEntry .precondition) := by
  show runData .pk (decide (a.toNat ≤ 23)) (emit v.toNat a.toNat) s = _
  rw [decide_eq_true ha, runData_of_active hp hc]
  rcases emit_cases v.toNat a.toNat s with ⟨_, he⟩ | ⟨hlt, _⟩
  · rw [he, commit_raise]
  · omega

/-- Settles O4, field by field. -/
theorem operandsTakenFromTheirFields : Obligations.OperandsTakenFromTheirFields := by
  refine ⟨fun w b h => ?_, fun w a v h => ?_, fun w a h => ?_, fun a v s ha hv hc hp =>
    ⟨decodeCmd_encode (decide_eq_true ha), exec_pkAppend_precondition ha hv hc hp⟩⟩
  · rcases h with h | h | h <;> exact byteOperand_toNat (by simp [formatB]) h
  · obtain ⟨hle, -, rfl, rfl⟩ := fields_of_decodeCmd h
    exact ⟨wField_toNat w, of_decide_eq_true hle, vField_toNat w⟩
  · obtain ⟨hle, -, rfl, -⟩ := fields_of_decodeCmd h
    exact ⟨wField_toNat w, of_decide_eq_true hle⟩

theorem runIllegal_of_fault {s : State} (h : s.phase = .fault) : runIllegal s = .next s := if_pos h

theorem runIllegal_of_not_fault {s : State} (h : s.phase ≠ .fault) :
    runIllegal s = .next (s.faultEntry .illegalCommand) := if_neg h

/-- Settles O5: the decoder answers one command or one reason, and only a reason reaches `runIllegal`. -/
theorem illegalWordsRaiseIllegalCommand : Obligations.IllegalWordsRaiseIllegalCommand := by
  refine fun w => ⟨decodeCmd_illegal_iff w, ?_, fun e s h => ?_⟩
  · cases decodeCmd w with
    | ok i => exact iff_of_true ⟨i, rfl, fun j hj => (Except.ok.inj hj).symm⟩ fun ⟨_, he⟩ => nomatch he
    | error e => exact iff_of_false (fun ⟨_, hi, _⟩ => nomatch hi) fun hn => hn ⟨e, rfl⟩
  · rw [runWord_of_error s h]
    exact ⟨runIllegal_of_not_fault, runIllegal_of_fault⟩

/-! ### DRAIN (R92) -/

/-- A word with VALID in bit 8 and a byte below it gives the host the byte. -/
theorem drainedBytes_cons_of_valid {v : Word} {b : Byte} (hv : v.toNat = 256 + b.toNat) (words : List Word) :
    drainedBytes (v :: words) = b :: drainedBytes words := by
  have hb := b.isLt
  have hvalid : v.getLsbD 8 = true := by
    rw [BitVec.getLsbD, Nat.testBit_eq_decide_div_mod_eq, decide_eq_true_iff]
    omega
  have hbyte : v.extractLsb' 0 8 = b := by
    apply BitVec.eq_of_toNat_eq
    rw [BitVec.extractLsb'_toNat, Nat.shiftRight_zero]
    omega
  rw [drainedBytes, List.filterMap_cons_some (by rw [if_pos hvalid, hbyte]), drainedBytes]

/-- A run whose first step answers a next state goes on from it. -/
theorem runSteps_succ_of_next {s t : State} (h : step s = .next t) (n : Nat) :
    runSteps (n + 1) s = runSteps n t := by
  rw [runSteps, h]

/-- Settles O18, by induction on the bytes of OUTQ: each read returns and removes the oldest, the last finds none. -/
theorem drainReturnsOutputInOrder : Obligations.DrainReturnsOutputInOrder := by
  intro s rest
  induction hq : s.outq generalizing s with
  | nil =>
    intro hp
    obtain ⟨hstep, _⟩ := outReadPopsOldestByte s rest hp
    exact ⟨[0], by decide, by rw [runSteps_succ_of_next (hstep hq), hq]; rfl⟩
  | cons b q ih =>
    intro hp
    obtain ⟨_, hpop⟩ := outReadPopsOldestByte s (drainAccesses q.length ++ rest) hp
    obtain ⟨v, hv, hstep⟩ := hpop b q hq
    obtain ⟨words, hwords, hrun⟩ := ih { s with
      pending := drainAccesses q.length ++ rest, outq := q, replies := s.replies ++ [v] } rfl rfl
    refine ⟨v :: words, by rw [drainedBytes_cons_of_valid hv, hwords], ?_⟩
    rw [List.length_cons, runSteps_succ_of_next hstep, hrun, List.append_assoc]
    rfl

end Sys2Proof.Machine

/-! PROOFS. The statements of 40_dispatch.md: a step runs the decoded command (R100), the admission of *_INIT and of data
commands (R101, R102), and that every command completes (R104). -/

namespace Sys2Proof.Machine

/-! ### Admission of a data command (R102) -/

/-- An admitted command ends in no SEQUENCE fault: its own rule does not enter FAULT, and raises only other codes. -/
theorem RuleSound.commit_ne_sequence {rule : State → Except Abort State} (hs : RuleSound rule) {s : State}
    (ha : s.phase = .active) : commit s (rule s) ≠ .next (s.faultEntry .sequence) := by
  intro h
  rcases commit_next h with hok | ⟨e, hraise, ht⟩
  · have hphase := (hs.ok s _ hok).phase
    simp [ha] at hphase
  · obtain ⟨_, _, hne⟩ := hs.raise s e hraise
    exact hne (congrArg State.err ht).symm

/-- Settles O20: the clauses are the answers of `runData`, which is what every data command is. -/
theorem dataCommandAdmission : Obligations.DataCommandAdmission := by
  intro i p s hp hwf
  obtain ⟨rule, hsound, hexec⟩ := exec_data hp
  rw [hexec s, hwf]
  refine ⟨runData_of_fault, fun hf hc => ?_, fun hc hdec hd => ?_, fun hc hf ha hn => ?_, fun hc ha => ?_⟩
  · exact runData_not_admitted hf (.inl hc) fun ⟨_, hcall, hdec⟩ => hc (hcall.trans hdec.symm)
  · subst hdec
    exact runData_dec_done hd hc
  · exact runData_not_admitted hf (.inr ha) fun ⟨hd, _, hdec⟩ => hn ⟨hdec, hd⟩
  · rw [runData_of_active ha hc]
    exact hsound.commit_ne_sequence ha

/-! ### Completion (R104) -/

/-- The own rule of a data command does not stop the model in a running call of its pipeline. -/
def RuleNeverStops (p : Call) (rule : State → Except Abort State) : Prop :=
  ∀ s f, Invariant s → s.phase = .active → s.call = p → rule s ≠ .error (.stop f)

/-- Under the invariant WORD is a key of FWD (R40 item 7), so ENC_BYTE has FWD[WORD]. -/
theorem encByteRule_neverStops (b : Byte) : RuleNeverStops .enc (encByteRule b) := by
  intro s f h ha hc hstop
  rcases encByteRule_cases b s with ⟨_, he⟩ | ⟨w, c, _, _, he⟩ | ⟨w, hw, _, he⟩
  · cases he.symm.trans hstop
  · cases he.symm.trans hstop
  · have hknown := h.encWord hc ha w hw
    rcases encMiss_cases w b s with ⟨hnone, _⟩ | ⟨k, _, ⟨_, h'⟩ | ⟨_, _, h'⟩ | ⟨_, _, _, h'⟩ | ⟨_, _, _, h'⟩⟩
    · simp [State.knows, hnone] at hknown
    all_goals cases (he.trans h').symm.trans hstop

/-- The same for ENC_END. -/
theorem encEndRule_neverStops : RuleNeverStops .enc encEndRule := by
  intro s f h ha hc hstop
  rcases encEndRule_cases s with ⟨_, he⟩ | ⟨w, hw, hnone, _⟩ | ⟨w, k, _, _, _, he⟩ | ⟨w, k, _, _, _, he⟩
  · cases he.symm.trans hstop
  · have hknown := h.encWord hc ha w hw
    simp [State.knows, hnone] at hknown
  · cases he.symm.trans hstop
  · cases he.symm.trans hstop

theorem decByteRule_neverStops (b : Byte) : RuleNeverStops .dec (decByteRule b) := by
  intro s f _ _ _ hstop
  rcases decByteRule_cases b s with ⟨_, he⟩ | ⟨_, ⟨_, he⟩ | ⟨_, _, he⟩ | ⟨sym, _, _, ⟨_, he⟩ | ⟨p, _, _, he⟩ |
    ⟨p, _, _, _, he⟩ | ⟨p, _, _, _, he⟩⟩⟩ <;> cases he.symm.trans hstop

theorem decEndRule_neverStops : RuleNeverStops .dec decEndRule := by
  intro s f _ _ _ hstop
  unfold decEndRule at hstop
  split at hstop <;> cases hstop

theorem emit_neverStops (v w : Nat) : RuleNeverStops .pk (emit v w) := by
  intro s f _ _ _ hstop
  rcases emit_cases v w s with ⟨_, he⟩ | ⟨_, he⟩ <;> cases he.symm.trans hstop

theorem upkByteRule_neverStops (b : Byte) : RuleNeverStops .upk (upkByteRule b) := by
  intro s f _ _ _ hstop
  unfold upkByteRule at hstop
  split at hstop <;> cases hstop

theorem upkReadRule_neverStops (w : Nat) : RuleNeverStops .upk (upkReadRule w) := by
  intro s f _ _ _ hstop
  rcases upkReadRule_cases w s with ⟨_, he⟩ | ⟨_, he⟩ <;> cases he.symm.trans hstop

/-- A rule without a failure branch, as PK_END and UPK_END have. -/
theorem ok_neverStops (p : Call) (g : State → State) : RuleNeverStops p fun s => .ok (g s) :=
  fun _ _ _ _ _ hstop => nomatch hstop

/-- A command ends in a next state unless its rule stops the model (40_dispatch.md R103). -/
theorem commit_completes {s : State} {r : Except Abort State} (h : ∀ f, r ≠ .error (.stop f)) :
    ∃ t, commit s r = .next t := by
  match r, h with
  | .ok t, _ => exact ⟨t, commit_ok s t⟩
  | .error (.raise e), _ => exact ⟨_, commit_raise s e⟩
  | .error (.stop f), h => exact absurd rfl (h f)

/-- The own rule of a data command runs only in a running call of its pipeline. -/
theorem admitData_run {p : Call} {s : State} (h : admitData p s = .run) : s.phase = .active ∧ s.call = p := by
  unfold admitData at h
  split_ifs at h with hc _ ha
  exact ⟨not_not.mp ha, not_not.mp hc⟩

theorem runData_completes {p : Call} {rule : State → Except Abort State} {s : State} (hn : RuleNeverStops p rule)
    (h : Invariant s) (legal : Bool) : ∃ t, runData p legal rule s = .next t := by
  unfold runData
  split
  · exact ⟨s, rfl⟩
  split
  · exact ⟨_, rfl⟩
  cases hadm : admitData p s with
  | run =>
    obtain ⟨ha, hc⟩ := admitData_run hadm
    exact commit_completes fun f => hn s f h ha hc
  | ignore => exact ⟨s, rfl⟩
  | raise e => exact ⟨_, rfl⟩

/-- An *_INIT command completes in every state: its own rule has no failure branch. -/
theorem exec_init_completes {i : Instr} (hi : pipelineOf i = none) (s : State) : ∃ t, exec i s = .next t := by
  by_cases ha : s.phase = .active
  · exact ⟨_, exec_init_active hi ha⟩
  · obtain ⟨_, _, _, _, hexec⟩ := exec_init hi
    exact ⟨_, (hexec s).trans (runInit_of_inactive ha)⟩

theorem exec_completes (i : Instr) {s : State} (h : Invariant s) : ∃ t, exec i s = .next t := by
  cases i with
  | encInit | decInit | pkInit | upkInit => exact exec_init_completes rfl s
  | encByte b => exact runData_completes (encByteRule_neverStops b) h true
  | encEnd => exact runData_completes encEndRule_neverStops h true
  | decByte b => exact runData_completes (decByteRule_neverStops b) h true
  | decEnd => exact runData_completes decEndRule_neverStops h true
  | pkAppend w v => exact runData_completes (emit_neverStops _ _) h _
  | pkEnd => exact runData_completes (ok_neverStops _ _) h true
  | upkByte b => exact runData_completes (upkByteRule_neverStops b) h true
  | upkRead w => exact runData_completes (upkReadRule_neverStops _) h _
  | upkEnd => exact runData_completes (ok_neverStops _ _) h true

/-- Every command word, legal or not, completes. -/
theorem runWord_completes (w : Word) {s : State} (h : Invariant s) : ∃ t, runWord w s = .next t := by
  rcases hd : decodeCmd w with e | i
  · rw [runWord_of_error s hd]
    by_cases hf : s.phase = .fault
    · exact ⟨s, runIllegal_of_fault hf⟩
    · exact ⟨_, runIllegal_of_not_fault hf⟩
  · rw [runWord_of_ok s hd]
    exact exec_completes i h

/-- No command touches the host's queue: the command commutes with replacing the queue by itself. -/
theorem exec_pending {i : Instr} {s t : State} (h : exec i s = .next t) : t.pending = s.pending := by
  have hhost : exec i s = mapNext (State.withHost s.pending s.replies) (exec i s) :=
    exec_withHost s.pending s.replies i s
  rw [h] at hhost
  have ht : t = t.withHost s.pending s.replies := (next_inj _ _).mp hhost
  rw [ht]
  rfl

theorem runWord_pending {w : Word} {s t : State} (h : runWord w s = .next t) : t.pending = s.pending := by
  rcases hd : decodeCmd w with e | i
  · rw [runWord_of_error s hd, runIllegal] at h
    split at h <;> cases h <;> rfl
  · rw [runWord_of_ok s hd] at h
    exact exec_pending h

/-- Settles O59: only a command word could stop the model, and under the invariant none does. -/
theorem everyCommandCompletes : Obligations.EveryCommandCompletes := by
  refine ⟨fun w s h => runWord_completes w h, fun s a rest h hp ha => ?_⟩
  rcases ha with rfl | ⟨w, rfl⟩ | rfl | rfl | rfl | rfl
  · exact ⟨_, step_reset hp, rfl⟩
  · obtain ⟨t, ht⟩ := runWord_completes w (h.congr_output s.outq s.resultv rest s.replies)
    refine ⟨t, ?_, runWord_pending ht⟩
    rw [step_of_command hp, takeAccess_of_pending hp, ht]
  · exact ⟨_, step_read_status hp, rfl⟩
  · exact ⟨_, step_read_out hp, rfl⟩
  · exact ⟨_, step_read_result hp, rfl⟩
  · exact ⟨_, step_read_maxcode hp, rfl⟩

/-! ### Command execution (R100) -/

/-- The decoder's view of a table word is that of the command word it stands for. -/
theorem decodeTableWord_eq_some_iff {nbits n : Nat} {i : Instr} :
    decodeTableWord nbits n = some i ↔ decodeCmd (BitVec.ofNat 32 (n % 2 ^ nbits)) = .ok i := by
  unfold decodeTableWord
  cases decodeCmd (BitVec.ofNat 32 (n % 2 ^ nbits)) <;> simp

/-- A command placed as the host's next one runs in the very next step, on the state it was placed in. -/
theorem step_withNextCommand {w : Word} {i : Instr} (s : State) (h : decodeCmd w = .ok i) :
    step (s.withNextCommand w) = exec i s := by
  rw [step_of_command (s.withNextCommand_pending w), runWord_of_ok _ h]
  rfl

/-- Settles O7. -/
theorem stepRunsDecodedCommand : Obligations.StepRunsDecodedCommand := by
  refine ⟨fun s w i rest hp hd => ?_, fun s n i hd => ?_⟩
  · rw [step_of_command hp, takeAccess_of_pending hp, runWord_of_ok _ hd]
  · exact step_withNextCommand s (decodeTableWord_eq_some_iff.mp hd)

/-! ### Admission of an *_INIT command (R101) -/

/-- Settles O19, by the state each *_INIT starts its call in. -/
theorem initStartsCallUnlessActive : Obligations.InitStartsCallUnlessActive := by
  intro i kind s hmem
  simp only [List.mem_cons, Prod.mk.injEq, List.not_mem_nil, or_false] at hmem
  rcases hmem with ⟨rfl, rfl⟩ | ⟨rfl, rfl⟩ | ⟨rfl, rfl⟩ | ⟨rfl, rfl⟩ <;>
    refine ⟨exec_init_active rfl, fun ha => ?_⟩
  · exact ⟨_, exec_encInit ha, rfl, rfl, rfl, rfl, rfl, rfl⟩
  · exact ⟨_, exec_decInit ha, rfl, rfl, rfl, rfl, rfl, rfl⟩
  · exact ⟨_, exec_pkInit ha, rfl, rfl, rfl, rfl, rfl, rfl⟩
  · exact ⟨_, exec_upkInit ha, rfl, rfl, rfl, rfl, rfl, rfl⟩

end Sys2Proof.Machine

/-! PROOFS. The statements of 41_bitpacker.md: the raw packer (R120 to R123), the raw unpacker (R124 to R127), and that
the unpacker inverts the packer (R116). -/

namespace Sys2Proof

/-! ### The words of the raw commands (30_encoding.md R85) -/

/-- The three fields of a command word as a disjunction, the opcode already in its place. -/
theorem encode_eq_or {i : Instr} {m : Word} (hm : i.opcode.setWidth 32 <<< 28 = m) :
    encode i = m ||| i.wOperand.setWidth 32 <<< 23 ||| i.vOperand.setWidth 32 := by
  subst hm
  apply BitVec.eq_of_getLsbD_eq
  intro k hk
  show (i.opcode ++ i.wOperand ++ i.vOperand).getLsbD k = _
  simp only [BitVec.getLsbD_append, BitVec.getLsbD_or, BitVec.getLsbD_shiftLeft, BitVec.getLsbD_setWidth]
  by_cases hv : k < 23
  · simp [hv, hk, (by omega : k < 28)]
  · have hv0 : i.vOperand.getLsbD k = false := BitVec.getLsbD_of_ge _ _ (by omega)
    by_cases hw : k < 28
    · simp [hv, hw, hv0, hk, (by omega : k - 23 < 5), (by omega : k - 23 < 32)]
    · simp [hv, hw, hv0, hk, (by omega : 5 ≤ k - 23), (by omega : k - 28 < 32), (by omega : k - 23 - 5 = k - 28)]

end Sys2Proof

namespace Sys2Proof.Machine

/-! ### Admission of the raw data commands (R102) -/

/-- A data command outside an active call of its pipeline faults SEQUENCE; only DEC has the exception after DONE. -/
theorem exec_data_sequence {i : Instr} {p : Call} {s : State} (hp : pipelineOf i = some p) (hdec : p ≠ .dec)
    (hwf : i.wellFormed = true) (hf : s.phase ≠ .fault) (hn : s.call ≠ p ∨ s.phase ≠ .active) :
    exec i s = .next (s.faultEntry .sequence) := by
  obtain ⟨rule, _, hexec⟩ := exec_data hp
  rw [hexec, hwf]
  exact runData_not_admitted hf hn fun ⟨_, _, h⟩ => hdec h

/-! ### PK_INIT and UPK_INIT (R120, R124) -/

/-- Settles O25: PK_INIT is the start of a call and nothing else (`exec_pkInit`). -/
theorem pkInitStartsRawPack : Obligations.PkInitStartsRawPack :=
  ⟨by decide, fun _ => exec_pkInit, fun _ => exec_init_active rfl, by decide⟩

/-- Settles O29: UPK_INIT is the start of a call and RESULTV 0 (`exec_upkInit`). -/
theorem upkInitStartsRawUnpack : Obligations.UpkInitStartsRawUnpack :=
  ⟨by decide, fun _ => exec_upkInit, fun _ => exec_init_active rfl, by decide⟩

/-! ### PK_APPEND (R121) -/

theorem length_flatMap_byteBits (bytes : List Byte) : (bytes.flatMap byteBits).length = 8 * bytes.length := by
  simp [List.length_flatMap, mul_comm]

/-- In an active PK call a value that fits its width is appended. -/
theorem exec_pkAppend_of_lt {a : BitVec 5} {v : BitVec 23} {s : State} (ha : a.toNat ≤ 23)
    (hv : v.toNat < 2 ^ a.toNat) (hc : s.call = .pk) (hp : s.phase = .active) :
    exec (.pkAppend a v) s = .next (s.appendBits (bitsOf a.toNat v.toNat)) := by
  show runData .pk (decide (a.toNat ≤ 23)) (emit v.toNat a.toNat) s = _
  rw [decide_eq_true ha, runData_of_active hp hc, emit_of_lt s hv, commit_ok]

/-- The word of a PK_APPEND with W above 23 is illegal (R89). -/
theorem decodeCmd_encode_pkAppend_wide {a : BitVec 5} (v : BitVec 23) (ha : 23 < a.toNat) :
    ∃ e, decodeCmd (encode (.pkAppend a v)) = .error e := by
  obtain ⟨hop, hw, _⟩ := Laws.EncodedFields.pkAppend a v
  rw [decodeCmd_of_formatA hop, decodeAppendForm_illegal_iff, ← wField_toNat, hw]
  exact ha

theorem runWord_of_illegal {w : Word} {s : State} (h : ∃ e, decodeCmd w = .error e) (hf : s.phase ≠ .fault) :
    runWord w s = .next (s.faultEntry .illegalCommand) := by
  obtain ⟨e, he⟩ := h
  rw [runWord_of_error s he, runIllegal_of_not_fault hf]

/-- Settles O26: the bits moved and kept are those of `appendBits_spec`, and their number bounds the bytes. -/
theorem pkAppendAppendsBits : Obligations.PkAppendAppendsBits := by
  refine ⟨fun a v => encode_eq_or (by simp [Instr.opcode]), fun a v s hc hp ha hv => ?_, fun a v s hc hp ha hv =>
    exec_pkAppend_precondition ha hv hc hp, fun a v s hf ha hn =>
    exec_data_sequence rfl (by decide) (decide_eq_true ha) hf hn, fun a v s hf ha =>
    runWord_of_illegal (decodeCmd_encode_pkAppend_wide v ha) hf, by decide⟩
  obtain ⟨bytes, hout, hbits, hlt⟩ := appendBits_spec (bitsOf a.toNat v.toNat) s
  have hnext : exec (.pkAppend a v) s =
      .next { s with acc := (s.appendBits (bitsOf a.toNat v.toNat)).acc, outq := s.outq ++ bytes } := by
    rw [exec_pkAppend_of_lt ha hv hc hp, ← hout]
    rfl
  have hlen := congrArg List.length hbits
  rw [List.length_append, List.length_append, length_flatMap_byteBits, bitsOf_length] at hlen
  refine ⟨_, bytes, hnext, hbits, hlt, fun hacc => by omega, fun h8 hnil => ?_⟩
  have hbytes : bytes.length = 0 := by rw [(List.append_eq_nil_iff.mp hnil).2]; rfl
  omega

/-! ### PK_END (R122) -/

theorem State.flush_of_acc_nil {s : State} (h : s.acc = []) : s.flush = s := if_pos h

theorem State.flush_of_acc_ne_nil {s : State} (h : s.acc ≠ []) : s.flush =
    { s with acc := [], outq := s.outq ++ [byteOfBits (s.acc ++ zeroBits (8 - s.acc.length))] } := if_neg h

/-- The byte that pads at most 8 bits begins with them and ends in zeros. -/
theorem byteBits_padded {bits : List Bool} (h : bits.length ≤ 8) :
    byteBits (byteOfBits (bits ++ zeroBits (8 - bits.length))) = bits ++ zeroBits (8 - bits.length) :=
  byteBits_byteOfBits _ (by rw [List.length_append, zeroBits_length]; omega)

theorem exec_pkEnd {s : State} (hc : s.call = .pk) (hp : s.phase = .active) :
    exec .pkEnd s = .next (s.flush.setPhase .done) :=
  (runData_of_active hp hc : execPkEnd s = _)

/-- Settles O27, by the two cases of `flush`. -/
theorem pkEndPadsLastByte : Obligations.PkEndPadsLastByte := by
  refine ⟨by decide, fun s hc hp hnil => ?_, fun s hc hp hne hle => ?_, fun s =>
    exec_data_sequence rfl (by decide) rfl, by decide⟩
  · rw [exec_pkEnd hc hp, State.flush_of_acc_nil hnil]
    rfl
  · refine ⟨_, ?_, byteBits_padded (by omega)⟩
    rw [exec_pkEnd hc hp, State.flush_of_acc_ne_nil hne]
    rfl

/-! ### A raw-pack call (R123) -/

/-- The bits the packer has been given in this call: those of OUTQ, then those of ACC. -/
def packedBits (s : State) : List Bool := s.outq.flatMap byteBits ++ s.acc

theorem packedBits_startCall (k : Call) (s : State) : packedBits (s.startCall k) = [] := rfl

theorem packedBits_appendBits (bits : List Bool) (s : State) :
    packedBits (s.appendBits bits) = packedBits s ++ bits := by
  obtain ⟨bytes, hout, hbits, _⟩ := appendBits_spec bits s
  rw [packedBits, hout, List.flatMap_append, List.append_assoc, hbits, packedBits, List.append_assoc]

/-- Flushing cuts the packed bits into bytes, the last one padded. -/
theorem flush_isCutOf {s : State} (h : s.acc.length < 8) : IsCutOf s.flush.outq (packedBits s) := by
  by_cases hnil : s.acc = []
  · exact ⟨0, by decide, by simp [State.flush_of_acc_nil hnil, packedBits, hnil, zeroBits]⟩
  · have hpos := List.length_pos_of_ne_nil hnil
    refine ⟨8 - s.acc.length, by omega, ?_⟩
    rw [State.flush_of_acc_ne_nil hnil, packedBits, List.flatMap_append, List.flatMap_singleton,
      byteBits_padded (by omega), List.append_assoc]

/-- From inside the call: the bits of the pairs join those packed before. -/
theorem runCommands_pack (pairs : List (BitVec 5 × BitVec 23)) {s : State} (hc : s.call = .pk)
    (hp : s.phase = .active) (hacc : s.acc.length < 8)
    (hfit : ∀ p ∈ pairs, p.1.toNat ≤ 23 ∧ p.2.toNat < 2 ^ p.1.toNat) :
    ∃ t, runCommands (pairs.map (fun p => Instr.pkAppend p.1 p.2) ++ [.pkEnd]) s = .next t ∧ t.phase = .done ∧
      IsCutOf t.outq (packedBits s ++ packBits (pairs.map fun p => (p.2.toNat, p.1.toNat))) := by
  induction pairs generalizing s with
  | nil =>
    refine ⟨s.flush.setPhase .done, ?_, rfl, ?_⟩
    · simp [runCommands, exec_pkEnd hc hp]
    · simpa [packBits] using flush_isCutOf hacc
  | cons p pairs ih =>
    obtain ⟨⟨hw, hv⟩, hrest⟩ := List.forall_mem_cons.mp hfit
    obtain ⟨_, _, _, hlt⟩ := appendBits_spec (bitsOf p.1.toNat p.2.toNat) s
    obtain ⟨t, hrun, hdone, hcut⟩ := ih (s := s.appendBits (bitsOf p.1.toNat p.2.toNat)) hc hp hlt hrest
    refine ⟨t, ?_, hdone, ?_⟩
    · simpa [runCommands, exec_pkAppend_of_lt hw hv hc hp] using hrun
    · simpa [packedBits_appendBits, packBits] using hcut

/-- Settles O28: PK_INIT starts the call with nothing packed, the rest is `runCommands_pack`. -/
theorem rawPackCallGivesPack : Obligations.RawPackCallGivesPack := by
  intro pairs s hs hfit
  obtain ⟨t, hrun, hdone, hcut⟩ := runCommands_pack pairs (s := s.startCall .pk) rfl rfl (by simp) hfit
  refine ⟨t, ?_, hdone, hcut⟩
  rw [runCommands, exec_pkInit hs]
  exact hrun

/-! ### UPK_BYTE (R125) -/

theorem upkByteRule_of_le {b : Byte} {s : State} (h : s.ibuf.length + 8 ≤ s.params.ibufBits) :
    upkByteRule b s = .ok (s.push b) := if_neg (not_lt.mpr h)

theorem upkByteRule_of_lt {b : Byte} {s : State} (h : s.params.ibufBits < s.ibuf.length + 8) :
    upkByteRule b s = .error (.raise .bufferOverflow) := if_pos h

theorem exec_upkByte {s : State} (b : Byte) (hc : s.call = .upk) (hp : s.phase = .active) :
    exec (.upkByte b) s = commit s (upkByteRule b s) :=
  (runData_of_active hp hc : execUpkByte b s = _)

/-- Bit 7 of a byte is its first bit. -/
theorem byteBits_eq_map_getLsbD (b : Byte) : byteBits b = (List.range 8).map fun k => b.getLsbD (7 - k) := rfl

theorem encode_upkByte (b : Byte) : encode (.upkByte b) = 0xB0000000 ||| b.setWidth 32 := by
  obtain ⟨_, _, hw, hv⟩ := formatB_operands (mk := .upkByte) b (by simp [formatB])
  have hb : (b.setWidth 23).setWidth 32 = b.setWidth 32 :=
    BitVec.eq_of_toNat_eq (by simp only [BitVec.toNat_setWidth]; have := b.isLt; omega)
  rw [encode_eq_or (m := 0xB0000000) (by simp [Instr.opcode]), hw, hv, hb]
  simp

/-- Settles O30, by the two answers of the bound that is checked before the push. -/
theorem upkBytePushesWithinBound : Obligations.UpkBytePushesWithinBound := by
  refine ⟨encode_upkByte, fun b s hc hp hle => ⟨byteBits b, ?_, byteBits_eq_map_getLsbD b⟩, fun b s hc hp hlt => ?_,
    fun b s => exec_data_sequence rfl (by decide) rfl, by decide⟩
  · rw [exec_upkByte b hc hp, upkByteRule_of_le hle]
    rfl
  · rw [exec_upkByte b hc hp, upkByteRule_of_lt hlt]
    rfl

/-! ### UPK_READ (R126) -/

theorem exec_upkRead {a : BitVec 5} {s : State} (ha : a.toNat ≤ 23) (hc : s.call = .upk) (hp : s.phase = .active) :
    exec (.upkRead a) s = commit s (upkReadRule a.toNat s) := by
  show runData .upk (decide (a.toNat ≤ 23)) (upkReadRule a.toNat) s = _
  rw [decide_eq_true ha, runData_of_active hp hc]

/-- The first w bits of a sequence are the digits of their value. -/
theorem bitsOf_bitsVal_take {w : Nat} {s : List Bool} (h : w ≤ s.length) :
    bitsOf w (bitsVal (s.take w)) = s.take w := by
  simpa [h] using bitsOf_bitsVal (s.take w)

/-- A read of at most 23 bits fits RESULTV. -/
theorem toNat_ofNat_bitsVal_take {w : Nat} {s : List Bool} (hw : w ≤ 23) (h : w ≤ s.length) :
    (BitVec.ofNat 23 (bitsVal (s.take w))).toNat = bitsVal (s.take w) ∧ bitsVal (s.take w) < 2 ^ w := by
  have hlt : bitsVal (s.take w) < 2 ^ w := by simpa [h] using bitsVal_lt (s.take w)
  have h23 : 2 ^ w ≤ 2 ^ 23 := Nat.pow_le_pow_right (by decide) hw
  exact ⟨by rw [BitVec.toNat_ofNat, Nat.mod_eq_of_lt (by omega)], hlt⟩

/-- Settles O31: the bits taken are the digits of their value, which fits RESULTV. -/
theorem upkReadTakesNextBits : Obligations.UpkReadTakesNextBits := by
  refine ⟨fun a => ?_, fun a s hc hp ha hle => ?_, fun a s hc hp ha hlt => ?_, fun a s hf ha hn =>
    exec_data_sequence rfl (by decide) (decide_eq_true ha) hf hn, fun w s hf hop hw => ?_, by decide⟩
  · rw [encode_eq_or (m := 0xC0000000) (by simp [Instr.opcode])]
    exact BitVec.or_zero
  · obtain ⟨hval, hlt⟩ := toNat_ofNat_bitsVal_take ha hle
    obtain ⟨_, hr⟩ := (upkReadRule_cases a.toNat s).resolve_left fun ⟨h, _⟩ => by omega
    refine ⟨BitVec.ofNat 23 (bitsVal (s.ibuf.take a.toNat)), s.ibuf.drop a.toNat, ?_, ?_, hval.trans_lt hlt⟩
    · rw [exec_upkRead ha hc hp, hr]
      rfl
    · rw [hval, bitsOf_bitsVal_take hle, List.take_append_drop]
  · obtain ⟨_, hr⟩ := (upkReadRule_cases a.toNat s).resolve_right fun ⟨h, _⟩ => by omega
    rw [exec_upkRead ha hc hp, hr]
    rfl
  · have hill : ∃ e, decodeCmd w = .error e :=
      (decodeCmd_illegal_iff w).mpr (.inr (.inr (.inr (.inr ⟨hop, hw.symm⟩))))
    exact runWord_of_illegal hill hf

/-! ### UPK_END (R127) -/

/-- Settles O32: the rule of an admitted UPK_END has one answer. -/
theorem upkEndDiscardsUnreadBits : Obligations.UpkEndDiscardsUnreadBits :=
  ⟨by decide, fun s hc hp => (runData_of_active hp hc : execUpkEnd s = _), fun _ =>
    exec_data_sequence rfl (by decide) rfl, by decide⟩

/-! ### The unpacker inverts the packer (R116) -/

theorem foldl_push_ibuf (bytes : List Byte) (s : State) :
    (bytes.foldl (fun u b => u.push b) s).ibuf = s.ibuf ++ bytes.flatMap byteBits := by
  induction bytes generalizing s with
  | nil => simp
  | cons b bytes ih => rw [List.foldl_cons, ih, State.push_ibuf, List.flatMap_cons, List.append_assoc]

/-- Reading the width of a packed value gives the value back. -/
theorem readBits_packed {v w : Nat} {rest : List Bool} {s : State} (hv : v < 2 ^ w)
    (h : s.ibuf = bitsOf w v ++ rest) : readBits w s = .ok (v, s.setIbuf rest) := by
  have htake : s.ibuf.take w = bitsOf w v := by rw [h, List.take_left' (bitsOf_length w v)]
  have hdrop : s.ibuf.drop w = rest := by rw [h, List.drop_left' (bitsOf_length w v)]
  have hle : w ≤ s.ibuf.length := by rw [h, List.length_append, bitsOf_length]; omega
  rw [readBits_of_le s hle, htake, hdrop, bitsVal_bitsOf w v hv]

/-- One read of R116: the width of the pair, the value joining those read before. -/
def readPair (u : List Nat × State) (p : Nat × Nat) : Except Abort (List Nat × State) :=
  (readBits p.2 u.2).map fun r => (u.1 ++ [r.1], r.2)

/-- The reads give the values of the packed bits back and stop at what follows them. -/
theorem foldlM_readPair {pairs : List (Nat × Nat)} {rest : List Bool} {values : List Nat} {s : State}
    (hfit : ∀ p ∈ pairs, p.1 < 2 ^ p.2) (h : s.ibuf = packBits pairs ++ rest) :
    ∃ t : State, t.ibuf = rest ∧ pairs.foldlM readPair (values, s) = .ok (values ++ pairs.map Prod.fst, t) := by
  induction pairs generalizing values s with
  | nil => exact ⟨s, h, by simp [pure, Except.pure]⟩
  | cons p pairs ih =>
    obtain ⟨hp, hrest⟩ := List.forall_mem_cons.mp hfit
    have hhead : s.ibuf = bitsOf p.2 p.1 ++ (packBits pairs ++ rest) := by simpa [packBits] using h
    have hread : readPair (values, s) p = .ok (values ++ [p.1], s.setIbuf (packBits pairs ++ rest)) := by
      rw [readPair, readBits_packed hp hhead]
      rfl
    obtain ⟨t, hibuf, hrun⟩ := ih (values := values ++ [p.1]) (s := s.setIbuf (packBits pairs ++ rest)) hrest rfl
    refine ⟨t, hibuf, ?_⟩
    rw [List.foldlM_cons, hread]
    simpa [bind, Except.bind] using hrun

/-- Settles O33: the pushed bytes put the packed bits and their padding into IBUF. -/
theorem unpackerInvertsPacker : Obligations.UnpackerInvertsPacker := by
  rintro pairs bytes s hfit hempty ⟨k, hk, hcut⟩
  have hibuf : (bytes.foldl (fun u b => u.push b) s).ibuf = packBits pairs ++ zeroBits k := by
    rw [foldl_push_ibuf, hempty, hcut, List.nil_append]
  obtain ⟨t, hleft, hrun⟩ := foldlM_readPair (values := []) hfit hibuf
  exact ⟨t, k, hk, hleft, hrun⟩

end Sys2Proof.Machine

/-! PROOFS. The statements of 42_dictionary.md: Dict_init (R142), insert and the two lookups (R145 to R147), the width
calculator (R148), and what the dictionary keeps over a call (R149, R151). -/

namespace Sys2Proof.Machine

/-! ### The width calculator (R148) -/

theorem bitLength_eq_succ_iff (x n : Nat) : bitLength x = n + 1 ↔ 2 ^ n ≤ x ∧ x < 2 ^ (n + 1) := by
  rw [← lt_bitLength_iff, ← bitLength_le_iff]
  omega

/-- Counting one up adds a digit exactly when it reaches a power of two. -/
theorem bitLength_succ_ne_iff (x : Nat) : bitLength (x + 1) ≠ bitLength x ↔ ∃ k, x + 1 = 2 ^ k := by
  constructor
  · intro hne
    have hgrow : bitLength x < bitLength (x + 1) := lt_of_le_of_ne (bitLength_mono (Nat.le_succ x)) hne.symm
    have hlow := (lt_bitLength_iff _ _).mp hgrow
    have hhigh := lt_two_pow_bitLength x
    exact ⟨bitLength x, by omega⟩
  · rintro ⟨k, hk⟩
    have hlow : bitLength x ≤ k := (bitLength_le_iff _ _).mpr (by omega)
    have hhigh : k < bitLength (x + 1) := (lt_bitLength_iff _ _).mpr hk.ge
    omega

/-- Settles O35: the general rows are the bounds of a number with n digits, and the numeric rows are cases of them. -/
theorem widthCalculatorTable : Obligations.WidthCalculatorTable := by
  refine ⟨fun s n hn => ?_, fun s => ⟨bitLength_succ_ne_iff s.maxCode, fun hne => ?_⟩, fun s hl hh => ?_,
    fun s hm => ?_, fun s hl hh => ?_, fun s hm => ?_⟩
  · obtain ⟨n, rfl⟩ := Nat.exists_eq_succ_of_ne_zero (by omega : n ≠ 0)
    have hpos := Nat.two_pow_pos (n + 1)
    rw [nbits, bitLength_eq_succ_iff, Nat.succ_sub_one, Nat.lt_iff_le_pred hpos]
  · have hle : nbits s ≤ nbitsNext s := bitLength_mono (Nat.le_succ s.maxCode)
    have hsucc : nbitsNext s ≤ nbits s + 1 := bitLength_succ_le s.maxCode
    omega
  · exact ⟨(bitLength_eq_succ_iff _ 8).mpr (by omega), (bitLength_eq_succ_iff _ 8).mpr (by omega)⟩
  · exact ⟨(bitLength_eq_succ_iff _ 8).mpr (by omega), (bitLength_eq_succ_iff _ 9).mpr (by omega)⟩
  · exact ⟨(bitLength_eq_succ_iff _ 9).mpr (by omega), (bitLength_eq_succ_iff _ 9).mpr (by omega)⟩
  · exact ⟨(bitLength_eq_succ_iff _ 9).mpr (by omega), (bitLength_eq_succ_iff _ 10).mpr (by omega)⟩

/-! ### insert (R146) -/

theorem insertSymbol_of_present {sym : Symbol} {c : Nat} {s : State} (h : mapGet s.fwd sym = some c) :
    insertSymbol sym s = .error (.raise .corruptDuplicate) :=
  if_pos (by rw [h]; rfl)

theorem insertSymbol_of_full {sym : Symbol} {s : State} (hn : mapGet s.fwd sym = none)
    (hl : codeLimit s.params ≤ s.maxCode) : insertSymbol sym s = .error (.raise .capacity) := by
  rw [insertSymbol, hn, if_neg (by decide), if_pos hl]

theorem insertSymbol_of_room {sym : Symbol} {s : State} (hn : mapGet s.fwd sym = none)
    (hl : s.maxCode < codeLimit s.params) : insertSymbol sym s = .ok (s.addEntry sym) := by
  rw [insertSymbol, hn, if_neg (by decide), if_neg (by omega)]

theorem mapGet_mapSet_self {κ α : Type} [DecidableEq κ] (m : List (κ × α)) (k : κ) (v : α) :
    mapGet (mapSet m k v) k = some v := by
  rw [mapGet_mapSet, if_pos rfl]

theorem mapGet_mapSet_of_ne {κ α : Type} [DecidableEq κ] (m : List (κ × α)) {k k' : κ} (v : α) (h : k' ≠ k) :
    mapGet (mapSet m k v) k' = mapGet m k' := by
  rw [mapGet_mapSet, if_neg h.symm]

/-- Settles O36, by the three answers of the two checks; the state they let through is `State.addEntry`. -/
theorem insertAssignsNextCode : Obligations.InsertAssignsNextCode := by
  intro sym s
  refine ⟨fun c => insertSymbol_of_present, insertSymbol_of_full, fun hn hl =>
    ⟨s.addEntry sym, insertSymbol_of_room hn hl, rfl, ?_, ?_, fun sym' hne => ?_, fun c hne => ?_⟩⟩
  · exact mapGet_mapSet_self _ _ _
  · exact mapGet_mapSet_self _ _ _
  · exact mapGet_mapSet_of_ne _ _ hne
  · exact mapGet_mapSet_of_ne _ _ hne

/-! ### The lookups (R145, R147) -/

theorem lookupCode_eq_found_iff {s : State} {sym : Symbol} {c : Nat} :
    lookupCode s sym = .found c ↔ mapGet s.fwd sym = some c := by
  unfold lookupCode
  cases mapGet s.fwd sym <;> simp

theorem lookupCode_eq_absent_iff {s : State} {sym : Symbol} : lookupCode s sym = .absent ↔ ¬ s.knows sym := by
  unfold lookupCode State.knows
  cases mapGet s.fwd sym <;> simp

theorem lookupSymbol_eq_found_iff {s : State} {c : Nat} {sym : Symbol} :
    lookupSymbol s c = .found sym ↔ mapGet s.rev c = some sym := by
  unfold lookupSymbol
  rcases mapGet s.rev c with _ | x
  · simp only [reduceCtorEq, iff_false]
    split <;> simp
  · simp

theorem lookupSymbol_eq_pendingInsert_iff {s : State} {c : Nat} :
    lookupSymbol s c = .pendingInsert ↔ mapGet s.rev c = none ∧ c = s.maxCode + 1 := by
  unfold lookupSymbol
  rcases mapGet s.rev c with _ | x <;> simp

theorem lookupSymbol_eq_absent_iff {s : State} {c : Nat} :
    lookupSymbol s c = .absent ↔ mapGet s.rev c = none ∧ c ≠ s.maxCode + 1 := by
  unfold lookupSymbol
  rcases mapGet s.rev c with _ | x <;> simp

theorem DictCanonical.rev_eq_none_iff {s : State} (h : DictCanonical s) (c : Nat) :
    mapGet s.rev c = none ↔ c = 0 ∨ s.maxCode < c := by
  rw [← Option.not_isSome_iff_eq_none, h.rev_isSome]
  omega

/-- Settles O37: what each outcome asks of the maps, with REV's keys being 1..MAX_CODE. -/
theorem lookupsAnswerTaggedOutcomes : Obligations.LookupsAnswerTaggedOutcomes := by
  intro s h
  refine ⟨fun _ _ => lookupCode_eq_found_iff, fun _ => lookupCode_eq_absent_iff, fun c => ?_, fun c => ?_, fun c => ?_⟩
  · simp only [lookupSymbol_eq_found_iff, and_self, ← Option.isSome_iff_exists, h.rev_isSome]
  · rw [lookupSymbol_eq_pendingInsert_iff, h.rev_eq_none_iff]
    omega
  · rw [lookupSymbol_eq_absent_iff, h.rev_eq_none_iff]
    omega

/-! ### What a command does to the dictionary (R141, R142, R152) -/

/-- The two states hold the same dictionary. -/
def SameDict (s t : State) : Prop := t.fwd = s.fwd ∧ t.rev = s.rev ∧ t.maxCode = s.maxCode

/-- The dictionary stays as it is or has one new Symbol inserted. -/
def DictGrows (s t : State) : Prop :=
  SameDict s t ∨ ∃ sym, mapGet s.fwd sym = none ∧ SameDict (s.addEntry sym) t

theorem encByteRule_dictGrows {b : Byte} {s t : State} (h : encByteRule b s = .ok t) : DictGrows s t := by
  rcases encByteRule_cases b s with ⟨_, he⟩ | ⟨w, c, _, _, he⟩ | ⟨w, _, hn, he⟩
  · cases he.symm.trans h; exact .inl ⟨rfl, rfl, rfl⟩
  · cases he.symm.trans h; exact .inl ⟨rfl, rfl, rfl⟩
  · rcases encMiss_cases w b s with ⟨_, h'⟩ | ⟨k, _, ⟨_, h'⟩ | ⟨_, _, h'⟩ | ⟨_, _, _, h'⟩ | ⟨_, _, _, h'⟩⟩ <;>
      cases (he.trans h').symm.trans h
    exact .inr ⟨w.snoc b, hn, rfl, rfl, rfl⟩

theorem decByteRule_dictGrows {b : Byte} {s t : State} (h : decByteRule b s = .ok t) : DictGrows s t := by
  rcases decByteRule_cases b s with ⟨_, he⟩ | ⟨_, ⟨_, he⟩ | ⟨_, _, he⟩ | ⟨sym, _, _, ⟨_, he⟩ | ⟨p, _, _, he⟩ |
    ⟨p, _, _, _, he⟩ | ⟨p, _, hn, _, he⟩⟩⟩ <;> cases he.symm.trans h
  · exact .inl ⟨rfl, rfl, rfl⟩
  · exact .inl ⟨rfl, rfl, rfl⟩
  · exact .inl ⟨rfl, rfl, rfl⟩
  · exact .inr ⟨p.snoc sym.first, hn, rfl, rfl, rfl⟩

/-- Outside its own rule a data command does not touch the dictionary. -/
theorem runData_dictGrows {p : Call} {legal : Bool} {rule : State → Except Abort State} {s t : State}
    (hrule : rule s = .ok t → DictGrows s t) (h : runData p legal rule s = .next t) : DictGrows s t := by
  rcases runData_frame h with rfl | ⟨e, rfl⟩ | ⟨_, hok⟩
  · exact .inl ⟨rfl, rfl, rfl⟩
  · exact .inl ⟨rfl, rfl, rfl⟩
  · exact hrule hok

/-- But for ENC_INIT and DEC_INIT, a command leaves the dictionary or inserts one Symbol: ENC_BYTE and DEC_BYTE by their
rules, the others have no dictionary element in their frames. -/
theorem exec_dictGrows {i : Instr} {s t : State} (h : exec i s = .next t) (hne : i ≠ .encInit) (hnd : i ≠ .decInit) :
    DictGrows s t := by
  rcases instr_families i with (hi | ⟨b, rfl⟩ | rfl) | (hi | ⟨b, rfl⟩ | rfl) | hi | hi
  · exact absurd hi hne
  · exact runData_dictGrows encByteRule_dictGrows h
  · obtain ⟨_, _, _, _, _, _, _, _, hdict, _⟩ := encoderFrame .encEnd s t (by simp) h
    exact .inl (hdict rfl)
  · exact absurd hi hnd
  · exact runData_dictGrows decByteRule_dictGrows h
  · obtain ⟨_, _, _, _, _, _, _, hdict⟩ := decoderFrame .decEnd s t (by simp) h
    obtain ⟨hf, hr, hm, _⟩ := hdict rfl
    exact .inl ⟨hf, hr, hm⟩
  · obtain ⟨hf, hr, hm, _⟩ := packerFrame i s t hi h
    exact .inl ⟨hf, hr, hm⟩
  · obtain ⟨hf, hr, hm, _⟩ := unpackerFrame i s t hi h
    exact .inl ⟨hf, hr, hm⟩

/-- Settles O34: the seeded maps are inverse, so what holds of the seed of FWD holds of the seed of REV; the commands
are `exec_dictGrows`. -/
theorem dictInitSeedsSingleBytes : Obligations.DictInitSeedsSingleBytes := by
  refine ⟨fun s => ?_, fun i s t h hne hnd => (exec_dictGrows h hne hnd).imp_right fun ⟨sym, _, hsame⟩ => ⟨sym, hsame⟩⟩
  have hinv := (DictCanonical.dictInit s).inverse
  simp only [← hinv, State.dictInit_fwd, State.dictInit_maxCode]
  exact ⟨trivial, fun b => ⟨mapGet_seedFwd_single b, mapGet_seedFwd_single b⟩, fun _ _ => eq_single_of_mapGet_seedFwd,
    fun _ _ => eq_single_of_mapGet_seedFwd⟩

/-! ### Monotonicity (R151) -/

/-- Writing an absent key keeps every entry. -/
theorem mapGet_mapSet_of_absent {κ α : Type} [DecidableEq κ] {m : List (κ × α)} {k k' : κ} {v v' : α}
    (hn : mapGet m k = none) (h : mapGet m k' = some v') : mapGet (mapSet m k v) k' = some v' := by
  rw [mapGet_mapSet_of_ne m v (by rintro rfl; cases hn.symm.trans h), h]

/-- Settles O38, by the two cases of `exec_dictGrows`: on a canonical dictionary the new code is not in REV. -/
theorem dictionaryOnlyGrowsInCall : Obligations.DictionaryOnlyGrowsInCall := by
  intro i s t hcan hpipe h
  have hgrows := exec_dictGrows h (by rintro rfl; exact hpipe rfl) (by rintro rfl; exact hpipe rfl)
  rcases hgrows with ⟨hf, hr, hm⟩ | ⟨sym, hn, hf, hr, hm⟩
  · rw [hf, hr]
    exact ⟨fun _ _ => id, fun _ _ => id, .inl ⟨hm, rfl, rfl⟩, bitLength_mono hm.ge⟩
  · have hfree : mapGet s.rev (s.maxCode + 1) = none := (hcan.rev_eq_none_iff _).mpr (.inr (Nat.lt_succ_self _))
    rw [hf, hr, hm]
    refine ⟨fun _ _ => mapGet_mapSet_of_absent hn, fun _ _ => mapGet_mapSet_of_absent hfree,
      .inr ⟨rfl, sym, hn, ?_, ?_⟩, bitLength_mono ?_⟩
    · exact mapGet_mapSet_self _ _ _
    · exact mapGet_mapSet_self _ _ _
    · rw [hm]; exact Nat.le_succ _

/-! ### Keys cut short and Symbol length (R149) -/

/-- A key cut short is a key, by taking one byte after the other off its end. -/
theorem ParentClosed.knows_take {s : State} (h : ParentClosed s) {f : Byte} {rest : List Byte} (hk : s.knows ⟨f, rest⟩)
    (n : Nat) : s.knows ⟨f, rest.take n⟩ := by
  induction rest using List.reverseRecOn with
  | nil => simpa using hk
  | append_singleton rest x ih =>
    by_cases hle : n ≤ rest.length
    · rw [List.take_append_of_le_length hle]
      exact ih (h.knows_of_snoc (sym := ⟨f, rest⟩) hk)
    · rwa [List.take_of_length_le (by simp; omega)]

/-- A dictionary with an entry has been seeded and is within the capacity. -/
theorem Invariant.seeded_of_mapGet {s : State} (h : Invariant s) {sym : Symbol} {c : Nat}
    (hg : mapGet s.fwd sym = some c) : Seeded s ∧ s.maxCode ≤ codeLimit s.params := by
  obtain ⟨_, _⟩ := h.canonical.code_range hg
  exact h.capacity.resolve_left (by omega)

/-- Settles O39: the keys cut short by `ParentClosed.knows_take`, the lengths by the invariant's bound and the
capacity; a dictionary with a key is seeded, and so holds the key's first byte at its seed code. -/
theorem dictionaryIsPrefixClosed : Obligations.DictionaryIsPrefixClosed := by
  intro s h
  refine ⟨fun sym n hk => h.closed.knows_take hk n, fun sym k hg => ?_, fun sym hk => ?_⟩
  · have hfwd := (h.canonical.inverse sym k).mpr hg
    have hlen := h.lengths sym k hfwd
    obtain ⟨_, hcode⟩ := h.canonical.code_range hfwd
    obtain ⟨_, hcap⟩ := h.seeded_of_mapGet hfwd
    exact ⟨hlen, hlen.trans (max_le_max le_rfl (Nat.sub_le_sub_right (hcode.trans hcap) 255))⟩
  · obtain ⟨c, hc⟩ := (State.knows_iff_exists s sym).mp hk
    obtain ⟨⟨_, hseed⟩, _⟩ := h.seeded_of_mapGet hc
    exact hseed sym.first

end Sys2Proof.Machine

/-! PROOFS. The statements of 43_encoder.md: ENC_INIT (R170), ENC_BYTE (R172), ENC_END (R174), the faults an encode call
can raise (R173), and the inputs that encode without one (R176, R178). -/

namespace Sys2Proof

/-- The word of a format-B command: the opcode in its place, and the byte in V[7:0] (30_encoding.md R86). -/
theorem encode_formatB {mk : Byte → Instr} {m : Word} (b : Byte) (hmk : mk ∈ formatB)
    (hm : (mk b).opcode.setWidth 32 <<< 28 = m) : encode (mk b) = m ||| b.setWidth 32 := by
  obtain ⟨_, _, hw, hv⟩ := formatB_operands b hmk
  have hb : (b.setWidth 23).setWidth 32 = b.setWidth 32 :=
    BitVec.eq_of_toNat_eq (by simp only [BitVec.toNat_setWidth]; have := b.isLt; omega)
  rw [encode_eq_or hm, hw, hv, hb]
  simp

end Sys2Proof

namespace Sys2Proof.Machine

/-! ### ENC_INIT (R170) -/

/-- Settles O40: ENC_INIT is the start of a call on a seeded dictionary (`exec_encInit`), and 256 has 9 digits. -/
theorem encInitStartsEncodeCall : Obligations.EncInitStartsEncodeCall := by
  refine ⟨by decide, fun s ha => ⟨_, exec_encInit ha, rfl, ?_⟩, fun _ => exec_init_active rfl, ?_⟩
  · have h9 : bitLength 256 = 9 := by decide
    rw [statusWord_nbits]
    show bitLength 256 % 32 = 9
    rw [h9]
  · rw [exec_encInit (by decide)]
    decide

/-! ### ENC_BYTE (R172) -/

theorem exec_encByte {s : State} (b : Byte) (hc : s.call = .enc) (hp : s.phase = .active) :
    exec (.encByte b) s = commit s (encByteRule b s) :=
  (runData_of_active hp hc : execEncByte b s = _)

theorem encByteRule_of_empty {b : Byte} {s : State} (hw : s.word = none) :
    encByteRule b s = .ok (s.setWord (some (Symbol.single b))) := by
  simp only [encByteRule, hw]

theorem encByteRule_of_match {b : Byte} {s : State} {w : Symbol} {c : Nat} (hw : s.word = some w)
    (hg : mapGet s.fwd (w.snoc b) = some c) : encByteRule b s = .ok (s.setWord (some (w.snoc b))) := by
  simp only [encByteRule, hw, lookupCode_eq_found_iff.mpr hg]

theorem encByteRule_of_miss {b : Byte} {s : State} {w : Symbol} (hw : s.word = some w)
    (hn : mapGet s.fwd (w.snoc b) = none) : encByteRule b s = encMiss w b s := by
  simp only [encByteRule, hw, lookupCode, hn]

theorem codeOf_of_mapGet {s : State} {w : Symbol} {k : Nat} (hk : mapGet s.fwd w = some k) : codeOf s w = .ok k := by
  simp only [codeOf, hk]

/-- A miss writes the code of WORD, whatever the capacity; the insertion decides how it ends. -/
theorem encMiss_eq_insert {b : Byte} {s : State} {w : Symbol} {k : Nat} (hk : mapGet s.fwd w = some k)
    (hfit : k < 2 ^ nbits s) :
    encMiss w b s = (insertSymbol (w.snoc b) (s.appendBits (bitsOf (nbits s) k))).map
      (State.setWord (some (Symbol.single b))) := by
  simp only [encMiss, codeOf_of_mapGet hk, emit_of_lt s hfit, bind, Except.bind]
  cases insertSymbol (w.snoc b) (s.appendBits (bitsOf (nbits s) k)) <;> rfl

theorem encMiss_of_room {b : Byte} {s : State} {w : Symbol} {k : Nat} (hk : mapGet s.fwd w = some k)
    (hfit : k < 2 ^ nbits s) (hn : mapGet s.fwd (w.snoc b) = none) (hl : s.maxCode < codeLimit s.params) :
    encMiss w b s =
      .ok (((s.appendBits (bitsOf (nbits s) k)).addEntry (w.snoc b)).setWord (some (Symbol.single b))) := by
  rw [encMiss_eq_insert hk hfit, insertSymbol_of_room (s := s.appendBits _) hn hl]
  rfl

theorem encMiss_of_full {b : Byte} {s : State} {w : Symbol} {k : Nat} (hk : mapGet s.fwd w = some k)
    (hfit : k < 2 ^ nbits s) (hn : mapGet s.fwd (w.snoc b) = none) (hl : codeLimit s.params ≤ s.maxCode) :
    encMiss w b s = .error (.raise .capacity) := by
  rw [encMiss_eq_insert hk hfit, insertSymbol_of_full (s := s.appendBits _) hn hl]
  rfl

/-- A code up to MAX_CODE fits the current width (R173). -/
theorem lt_two_pow_nbits {k : Nat} {s : State} (h : k ≤ s.maxCode) : k < 2 ^ nbits s :=
  Nat.lt_of_le_of_lt h (lt_two_pow_bitLength _)

/-- Settles O41, by the four ways of the rule; the bits of an emission are those of `appendBits_spec`. -/
theorem encByteExtendsOrEmits : Obligations.EncByteExtendsOrEmits := by
  refine ⟨fun b => encode_formatB b (by simp [formatB]) (by simp [Instr.opcode]), fun b s hc hp =>
    ⟨fun hw => ?_, fun w c hw hg => ?_, fun w k hw hn hk hle hl => ?_, fun w k hw hn hk hle hl => ?_⟩, fun b s =>
    exec_data_sequence rfl (by decide) rfl, by decide +kernel⟩
  · rw [exec_encByte b hc hp, encByteRule_of_empty hw]
    rfl
  · rw [exec_encByte b hc hp, encByteRule_of_match hw hg]
    rfl
  · obtain ⟨bytes, hout, hbits, hlt⟩ := appendBits_spec (bitsOf (nbits s) k) s
    refine ⟨_, bytes, ?_, hbits, hlt⟩
    rw [exec_encByte b hc hp, encByteRule_of_miss hw hn, encMiss_of_room hk (lt_two_pow_nbits hle) hn hl, ← hout]
    rfl
  · rw [exec_encByte b hc hp, encByteRule_of_miss hw hn, encMiss_of_full hk (lt_two_pow_nbits hle) hn hl]
    rfl

/-! ### ENC_END (R174) -/

theorem exec_encEnd {s : State} (hc : s.call = .enc) (hp : s.phase = .active) :
    exec .encEnd s = commit s (encEndRule s) :=
  (runData_of_active hp hc : execEncEnd s = _)

/-- How ENC_END ends once it has the bits to write. -/
def State.endEncode (bits : List Bool) (s : State) : State :=
  ((s.appendBits bits).flush.setWord none).setPhase .done

/-- A stream of whole bytes and fewer than 8 bits is cut in one way only. -/
theorem flatMap_byteBits_append_inj {xs ys : List Byte} {p q : List Bool} (hp : p.length < 8) (hq : q.length < 8)
    (h : xs.flatMap byteBits ++ p = ys.flatMap byteBits ++ q) : xs = ys ∧ p = q := by
  have hlen := congrArg List.length h
  simp only [List.length_append, length_flatMap_byteBits] at hlen
  obtain ⟨hxy, rfl⟩ := List.append_inj h (by simp only [length_flatMap_byteBits]; omega)
  refine ⟨?_, rfl⟩
  have hmap : xs.map byteBits = ys.map byteBits := by
    refine List.eq_iff_flatten_eq.mpr ⟨hxy, List.ext_getElem (by simp; omega) fun i h1 h2 => by simp⟩
  exact List.map_injective_iff.mpr (fun _ _ => byteBits_inj) hmap

/-- Two emissions one after the other append their bits together. -/
theorem appendBits_appendBits (s : State) (p q : List Bool) :
    (s.appendBits p).appendBits q = s.appendBits (p ++ q) := by
  obtain ⟨_, _, _, h1⟩ := appendBits_spec q (s.appendBits p)
  obtain ⟨_, _, _, h2⟩ := appendBits_spec (p ++ q) s
  have hbits : packedBits ((s.appendBits p).appendBits q) = packedBits (s.appendBits (p ++ q)) := by
    simp only [packedBits_appendBits, List.append_assoc]
  obtain ⟨hout, hacc⟩ := flatMap_byteBits_append_inj h1 h2 hbits
  show { s with acc := ((s.appendBits p).appendBits q).acc, outq := ((s.appendBits p).appendBits q).outq } = _
  rw [hout, hacc]
  rfl

theorem encEndRule_of_empty {s : State} (hw : s.word = none) :
    encEndRule s = .ok (s.endEncode (bitsOf (nbits s) 0)) := by
  simp only [encEndRule, emitWord, hw, emit_zero, bind, Except.bind, State.endEncode]

theorem encEndRule_of_word {s : State} {w : Symbol} {k : Nat} (hw : s.word = some w) (hk : mapGet s.fwd w = some k)
    (hfit : k < 2 ^ nbits s) :
    encEndRule s = .ok (s.endEncode (bitsOf (nbits s) k ++ bitsOf (nbits s) 0)) := by
  have hsame : nbits (s.appendBits (bitsOf (nbits s) k)) = nbits s := rfl
  simp only [encEndRule, emitWord, hw, codeOf_of_mapGet hk, emit_of_lt s hfit, emit_zero, bind, Except.bind, hsame,
    appendBits_appendBits, State.endEncode]

theorem State.flush_eq (s : State) : s.flush = { s with acc := [], outq := s.flush.outq } := by
  by_cases hnil : s.acc = []
  · rw [State.flush_of_acc_nil hnil, ← hnil]
  · rw [State.flush_of_acc_ne_nil hnil]

/-- A cut of a longer stream, of whose bytes the first are given, is a cut of the rest. -/
theorem isCutOf_append_left_iff {xs ys : List Byte} {bits : List Bool} :
    IsCutOf (xs ++ ys) (xs.flatMap byteBits ++ bits) ↔ IsCutOf ys bits := by
  simp only [IsCutOf, List.flatMap_append, List.append_assoc, List.append_cancel_left_eq]

theorem IsCutOf.ne_nil {bytes : List Byte} {bits : List Bool} (h : IsCutOf bytes bits) (hne : bits ≠ []) :
    bytes ≠ [] := by
  rintro rfl
  obtain ⟨k, _, hk⟩ := h
  exact hne (List.append_eq_nil_iff.mp hk.symm).1

/-- The bytes the end of an encode call adds to OUTQ: what ACC held and the bits written, cut into bytes. -/
theorem endEncode_isCutOf (bits : List Bool) (s : State) :
    ∃ bytes, s.endEncode bits = { s with phase := .done, word := none, acc := [], outq := s.outq ++ bytes } ∧
      IsCutOf bytes (s.acc ++ bits) := by
  obtain ⟨bytes, hout⟩ := flush_appendBits_outq_append bits s
  obtain ⟨_, _, _, hlt⟩ := appendBits_spec bits s
  refine ⟨bytes, ?_, ?_⟩
  · rw [State.endEncode, State.flush_eq, hout]
    rfl
  · have hcut := flush_isCutOf hlt
    rwa [hout, packedBits_appendBits, packedBits, List.append_assoc, isCutOf_append_left_iff] at hcut

/-- ENC_END with its rule's bits: at least one byte is written when those bits are not empty. -/
theorem exec_encEnd_of_rule {s : State} {bits : List Bool} (hc : s.call = .enc) (hp : s.phase = .active)
    (hrule : encEndRule s = .ok (s.endEncode bits)) :
    ∃ bytes, exec .encEnd s = .next { s with phase := .done, word := none, acc := [], outq := s.outq ++ bytes } ∧
      IsCutOf bytes (s.acc ++ bits) ∧ (bits ≠ [] → bytes ≠ []) := by
  obtain ⟨bytes, hend, hcut⟩ := endEncode_isCutOf bits s
  refine ⟨bytes, ?_, hcut, fun hne => hcut.ne_nil (List.append_ne_nil_of_right_ne_nil _ hne)⟩
  rw [exec_encEnd hc hp, hrule, hend, commit_ok]

/-- With codes assigned, a codeword has at least one bit. -/
theorem bitsOf_bitLength_ne_nil {x : Nat} (v : Nat) (h : x ≠ 0) : bitsOf (bitLength x) v ≠ [] := by
  have hpos : 0 < bitLength x := (lt_bitLength_iff x 0).mpr (Nat.pos_of_ne_zero h)
  exact List.ne_nil_of_length_pos (by rwa [bitsOf_length])

/-- Settles O42: an empty and a non-empty WORD differ in the bits of the rule, the rest is `exec_encEnd_of_rule`. -/
theorem encEndWritesStopCode : Obligations.EncEndWritesStopCode := by
  refine ⟨by decide, fun s hc hp hw => ?_, fun s w k hc hp hw hk hle => ?_, fun s =>
    exec_data_sequence rfl (by decide) rfl, by decide +kernel⟩
  · obtain ⟨bytes, hexec, hcut, hne⟩ := exec_encEnd_of_rule hc hp (encEndRule_of_empty hw)
    exact ⟨bytes, _, hexec, rfl, hcut, fun hm => hne (bitsOf_bitLength_ne_nil 0 hm)⟩
  · obtain ⟨bytes, hexec, hcut, hne⟩ := exec_encEnd_of_rule hc hp (encEndRule_of_word hw hk (lt_two_pow_nbits hle))
    exact ⟨bytes, _, hexec, (List.append_assoc ..).symm, hcut,
      fun hm => hne (List.append_ne_nil_of_right_ne_nil _ (bitsOf_bitLength_ne_nil 0 hm))⟩

/-! ### A running encode call (R173, R176) -/

/-- What an encode call needs to go on: it is running without a fault, its dictionary is sound and seeded, and WORD is
one of its keys. The invariant gives it, and so does ENC_INIT from every state with no call running. -/
structure EncRunning (s : State) : Prop where
  phase : s.phase = .active
  call : s.call = .enc
  err : s.err = .none
  dict : DictSound s
  seeded : s.maxCode ≠ 0
  word : ∀ w, s.word = some w → s.knows w

theorem Invariant.encRunning {s : State} (h : Invariant s) (hc : s.call = .enc) (ha : s.phase = .active) :
    EncRunning s :=
  ⟨ha, hc, h.err.mpr (by simp [ha]), h.dict, h.seeded (.inl hc), h.encWord hc ha⟩

theorem EncRunning.encInit {s : State} (h : s.params.wellFormed = true) :
    EncRunning ((s.startCall .enc).dictInit.setWord none) :=
  ⟨rfl, rfl, rfl, (DictSound.dictInit (s.startCall .enc) h).congr rfl rfl rfl rfl, by simp, by simp⟩

/-- WORD may become any key of the dictionary. -/
theorem EncRunning.setWord {s : State} (h : EncRunning s) {w : Symbol} (hw : s.knows w) :
    EncRunning (s.setWord (some w)) :=
  ⟨h.phase, h.call, h.err, h.dict.congr rfl rfl rfl rfl, h.seeded, fun _ hx => Option.some.inj hx ▸ hw⟩

theorem EncRunning.appendBits {s : State} (h : EncRunning s) (bits : List Bool) : EncRunning (s.appendBits bits) :=
  ⟨h.phase, h.call, h.err, h.dict.congr rfl rfl rfl rfl, h.seeded, h.word⟩

theorem EncRunning.addEntry {s : State} (h : EncRunning s) {w : Symbol} {b : Byte} (hw : s.knows w)
    (hn : mapGet s.fwd (w.snoc b) = none) (hl : s.maxCode < codeLimit s.params) :
    EncRunning (s.addEntry (w.snoc b)) :=
  ⟨h.phase, h.call, h.err, h.dict.addEntry h.seeded hw hn hl, by simp, fun x hx =>
    (State.knows_addEntry s _ x).mpr (.inr (h.word x hx))⟩

/-- Everything the rule of ENC_BYTE can do in a running call (R173): go on with at most one insertion, and that only
with WORD not empty, or, at CODE_LIMIT, raise CAPACITY. -/
theorem EncRunning.encByteRule_cases {s : State} (h : EncRunning s) (b : Byte) :
    (∃ t, encByteRule b s = .ok t ∧ EncRunning t ∧ t.params = s.params ∧ t.maxCode ≤ s.maxCode + 1 ∧
      (s.word = none → t.maxCode = s.maxCode)) ∨
    (s.word ≠ none ∧ codeLimit s.params ≤ s.maxCode ∧ encByteRule b s = .error (.raise .capacity)) := by
  rcases hw : s.word with _ | w
  · exact .inl ⟨_, encByteRule_of_empty hw, h.setWord (h.dict.knows_single h.seeded b), rfl, by simp, by simp⟩
  rcases hg : mapGet s.fwd (w.snoc b) with _ | c
  · have hknown := h.word w hw
    obtain ⟨k, hk⟩ := (State.knows_iff_exists s w).mp hknown
    have hfit := h.dict.canonical.code_lt hk
    rw [encByteRule_of_miss hw hg]
    by_cases hl : s.maxCode < codeLimit s.params
    · have hnext := (h.appendBits (bitsOf (nbits s) k)).addEntry hknown hg hl
      exact .inl ⟨_, encMiss_of_room hk hfit hg hl, hnext.setWord (hnext.dict.knows_single hnext.seeded b), rfl,
        by simp, by simp⟩
    · exact .inr ⟨by simp, by omega, encMiss_of_full hk hfit hg (by omega)⟩
  · exact .inl ⟨_, encByteRule_of_match hw hg, h.setWord (knows_of_mapGet hg), rfl, by simp, by simp⟩

/-- In a running call ENC_END ends the call: WORD has a code, and it fits the width (R173). -/
theorem EncRunning.exec_encEnd {s : State} (h : EncRunning s) :
    ∃ t, exec .encEnd s = .next t ∧ t.phase = .done ∧ t.call = .enc ∧ t.err = .none ∧ t.maxCode = s.maxCode := by
  have hrule : ∃ bits, encEndRule s = .ok (s.endEncode bits) := by
    rcases hw : s.word with _ | w
    · exact ⟨_, encEndRule_of_empty hw⟩
    · obtain ⟨k, hk⟩ := (State.knows_iff_exists s w).mp (h.word w hw)
      exact ⟨_, encEndRule_of_word hw hk (h.dict.canonical.code_lt hk)⟩
  obtain ⟨bits, hbits⟩ := hrule
  obtain ⟨bytes, hexec, _⟩ := exec_encEnd_of_rule h.call h.phase hbits
  exact ⟨_, hexec, rfl, h.call, h.err, rfl⟩

theorem eq_encByte_or_encEnd {i : Instr} (h : pipelineOf i = some .enc) : (∃ b, i = .encByte b) ∨ i = .encEnd := by
  cases i <;> simp [pipelineOf] at h ⊢

/-- Settles O43, by what the two rules can do in a running call. -/
theorem encoderRaisesOnlyCapacity : Obligations.EncoderRaisesOnlyCapacity := by
  intro i s hinv hc ha hp
  have h := hinv.encRunning hc ha
  rcases eq_encByte_or_encEnd hp with ⟨b, rfl⟩ | rfl
  · rw [exec_encByte b hc ha]
    rcases h.encByteRule_cases b with ⟨t, hok, ht, _⟩ | ⟨_, _, hraise⟩
    · refine ⟨t, by rw [hok, commit_ok], fun hf => ?_⟩
      cases ht.phase.symm.trans hf
    · exact ⟨_, by rw [hraise, commit_raise], fun _ => ⟨rfl, by simp⟩⟩
  · obtain ⟨t, hexec, hdone, _⟩ := h.exec_encEnd
    refine ⟨t, hexec, fun hf => ?_⟩
    cases hdone.symm.trans hf

/-! ### Inputs within the capacity (R178) -/

/-- Below CODE_LIMIT, or with WORD empty, ENC_BYTE goes on; only with WORD not empty can it insert. -/
theorem EncRunning.exec_encByte {s : State} (h : EncRunning s) (b : Byte)
    (hroom : s.word = none ∨ s.maxCode < codeLimit s.params) :
    ∃ t, exec (.encByte b) s = .next t ∧ EncRunning t ∧ t.params = s.params ∧ t.maxCode ≤ s.maxCode + 1 ∧
      (s.word = none → t.maxCode = s.maxCode) := by
  rcases h.encByteRule_cases b with ⟨t, hok, ht⟩ | ⟨hne, hfull, _⟩
  · exact ⟨t, by rw [Machine.exec_encByte b h.call h.phase, hok, commit_ok], ht⟩
  · exact (hroom.elim hne (by omega)).elim

/-- From inside the call: with one free code for each byte left, the call ends without a fault. -/
theorem EncRunning.runCommands_encode (input : List Byte) {s : State} (h : EncRunning s)
    (hroom : s.maxCode + input.length ≤ codeLimit s.params) :
    ∃ t, runCommands (input.map .encByte ++ [.encEnd]) s = .next t ∧ t.phase = .done ∧ t.call = .enc ∧
      t.err = .none ∧ t.maxCode ≤ s.maxCode + input.length := by
  induction input generalizing s with
  | nil =>
    obtain ⟨t, hexec, hdone, hcall, herr, hmax⟩ := h.exec_encEnd
    exact ⟨t, by simp [runCommands, hexec], hdone, hcall, herr, hmax.le⟩
  | cons b input ih =>
    rw [List.length_cons] at hroom ⊢
    obtain ⟨u, hexec, hu, hpar, hmax, _⟩ := h.exec_encByte b (.inr (by omega))
    obtain ⟨t, hrun, hdone, hcall, herr, hle⟩ := ih hu (by rw [hpar]; omega)
    exact ⟨t, by simpa [runCommands, hexec] using hrun, hdone, hcall, herr, by omega⟩

/-- Settles O44: the first byte inserts nothing, each of the others at most one code (`runCommands_encode`), and
ENC_INIT leaves CODE_LIMIT - 256 codes free. -/
theorem inputsWithinCapacityEncode : Obligations.InputsWithinCapacityEncode := by
  intro s input hwf hs hlen
  have hlim := codeLimit_ge hwf
  have h := EncRunning.encInit hwf
  rw [encodeCommands, runCommands, exec_encInit hs]
  cases input with
  | nil => exact h.runCommands_encode [] (by simp; omega)
  | cons b input =>
    rw [List.length_cons] at hlen
    obtain ⟨u, hexec, hu, hpar, _, hmax⟩ := h.exec_encByte b (.inl rfl)
    have h256 : u.maxCode = 256 := hmax rfl
    have hpar' : u.params = s.params := hpar
    obtain ⟨t, hrun, hdone, hcall, herr, hle⟩ := hu.runCommands_encode input (by rw [hpar', h256]; omega)
    exact ⟨t, by simpa [runCommands, hexec] using hrun, hdone, hcall, herr, by simpa [h256] using hle⟩

end Sys2Proof.Machine

/-! PROOFS. The statements of 44_decoder.md: DEC_INIT (R190), DEC_BYTE with its decode step (R192 to R194), DEC_END (R195),
input after the stop code (R196), what a decode step leaves (R198, R199), and the round trip (R202). -/

namespace Sys2Proof.Machine

/-! ### DEC_INIT (R190) -/

/-- Settles O45: DEC_INIT is the start of a call on a seeded dictionary (`exec_decInit`), with a width of 9 bits. -/
theorem decInitStartsDecodeCall : Obligations.DecInitStartsDecodeCall := by
  refine ⟨by decide, fun s ha => ⟨_, exec_decInit ha, rfl, ?_⟩, fun _ => exec_init_active rfl, ?_⟩
  · rw [statusWord_nbits]
    rfl
  · rw [exec_decInit (by decide)]
    decide

/-! ### Admission of DEC_BYTE and DEC_END (R194 to R196) -/

theorem exec_decByte {s : State} (b : Byte) (hc : s.call = .dec) (hp : s.phase = .active) :
    exec (.decByte b) s = commit s (decByteRule b s) :=
  (runData_of_active hp hc : execDecByte b s = _)

theorem exec_decEnd {s : State} (hc : s.call = .dec) (hp : s.phase = .active) :
    exec .decEnd s = commit s (decEndRule s) :=
  (runData_of_active hp hc : execDecEnd s = _)

theorem eq_decByte_or_decEnd {i : Instr} (h : pipelineOf i = some .dec) : (∃ b, i = .decByte b) ∨ i = .decEnd := by
  cases i <;> simp [pipelineOf] at h ⊢

/-- A legal data command of the decoder. -/
theorem wellFormed_of_dec {i : Instr} (h : pipelineOf i = some .dec) : i.wellFormed = true := by
  rcases eq_decByte_or_decEnd h with ⟨b, rfl⟩ | rfl <;> rfl

/-- Outside ACTIVE and DONE of a decode call the decoder's data commands fault SEQUENCE. -/
theorem exec_dec_sequence {i : Instr} {s : State} (hi : pipelineOf i = some .dec) (hf : s.phase ≠ .fault)
    (hn : s.call ≠ .dec ∨ (s.phase ≠ .active ∧ s.phase ≠ .done)) : exec i s = .next (s.faultEntry .sequence) := by
  obtain ⟨rule, _, hexec⟩ := exec_data hi
  rw [hexec, wellFormed_of_dec hi]
  exact runData_not_admitted hf (hn.imp_right And.left) fun ⟨hd, hc, _⟩ => hn.elim (· hc) (·.2 hd)

/-- In DONE of a decode call they change nothing. -/
theorem exec_dec_done {i : Instr} {s : State} (hi : pipelineOf i = some .dec) (hc : s.call = .dec)
    (hd : s.phase = .done) : exec i s = .next s := by
  obtain ⟨rule, _, hexec⟩ := exec_data hi
  rw [hexec, wellFormed_of_dec hi, runData_dec_done hd hc]

theorem runCommands_cons_of_next {i : Instr} {s t : State} (is : List Instr) (h : exec i s = .next t) :
    runCommands (i :: is) s = runCommands is t := by
  rw [runCommands, h]

theorem runCommands_dec_done {is : List Instr} {s : State} (hc : s.call = .dec) (hd : s.phase = .done)
    (his : ∀ i ∈ is, pipelineOf i = some .dec) : runCommands is s = .next s := by
  induction is with
  | nil => rfl
  | cons i is ih =>
    obtain ⟨hi, hrest⟩ := List.forall_mem_cons.mp his
    rw [runCommands_cons_of_next is (exec_dec_done hi hc hd), ih hrest]

/-! ### The decode step (R192) -/

/-- The decode step once its code is read: steps 3 to 7 of the source. -/
def decodeCode (c : Nat) (s : State) : Except Abort State :=
  if c = 0 then .ok (s.setPhase .done)
  else (decodedSymbol c s).bind fun sym => (growDecoder sym (s.outSymbol sym)).map (State.setPrev (some sym))

theorem decodeStep_eq (s : State) : decodeStep s = (readBits s.dnbits s).bind fun r => decodeCode r.1 r.2 := by
  unfold decodeStep decodeCode
  refine congrArg _ (funext fun r => ?_)
  by_cases hc : r.1 = 0
  · simp only [hc, if_true]
  · simp only [if_neg hc]
    refine congrArg _ (funext fun sym => ?_)
    cases growDecoder sym (r.2.outSymbol sym) <;> rfl

/-- Without a whole codeword DEC_BYTE only pushes. -/
theorem decByteRule_of_short {b : Byte} {s : State} (h : s.ibuf.length + 8 < s.dnbits) :
    decByteRule b s = .ok (s.push b) := by
  rw [decByteRule, if_neg (by simpa using h)]

/-- A DEC_BYTE that completes a codeword runs the decode step on its code; the rest stays in IBUF. -/
theorem decByteRule_of_code {b : Byte} {s : State} {code left : List Bool} (h : code ++ left = s.ibuf ++ byteBits b)
    (hlen : code.length = s.dnbits) : decByteRule b s = decodeCode (bitsVal code) (s.setIbuf left) := by
  have hle : s.dnbits ≤ (s.push b).ibuf.length := by
    rw [State.push_ibuf, ← h, List.length_append]
    omega
  rw [decByteRule, if_pos hle, decodeStep_eq, State.push_dnbits, readBits_of_le _ hle, State.push_ibuf, ← h,
    List.take_left' hlen, List.drop_left' hlen]
  rfl

theorem decodeCode_zero (s : State) : decodeCode 0 s = .ok (s.setPhase .done) := rfl

theorem decodedSymbol_of_decodesTo {c : Nat} {s : State} {sym : Symbol} (h : DecodesTo s c sym) :
    decodedSymbol c s = .ok sym := by
  rcases h with hg | ⟨hg, hm, p, hp, rfl⟩
  · simp only [decodedSymbol, lookupSymbol, hg]
  · simp only [decodedSymbol, lookupSymbol, hg, if_pos hm, hp]

/-- A code with no Symbol and no sanction by PREV is corrupt. -/
theorem decodeCode_of_undefined {c : Nat} {s : State} (hc : c ≠ 0) (h : ∀ sym, ¬ DecodesTo s c sym) :
    decodeCode c s = .error (.raise .corruptBadCode) := by
  rw [decodeCode, if_neg hc]
  rcases decodedSymbol_cases c s with ⟨sym, hg, _⟩ | ⟨p, hg, hm, hp, _⟩ | ⟨_, _, hd⟩
  · exact absurd (.inl hg) (h sym)
  · exact absurd (.inr ⟨hg, hm, p, hp, rfl⟩) (h (p.snoc p.first))
  · rw [hd]
    rfl

theorem decodeCode_of_decodesTo {c : Nat} {s : State} {sym : Symbol} (hc : c ≠ 0) (h : DecodesTo s c sym) :
    decodeCode c s = (growDecoder sym (s.outSymbol sym)).map (State.setPrev (some sym)) := by
  rw [decodeCode, if_neg hc, decodedSymbol_of_decodesTo h]
  rfl

/-- The first Symbol of a call inserts nothing. -/
theorem growDecoder_of_first {sym : Symbol} {s : State} (hp : s.prev = none) : growDecoder sym s = .ok s := by
  simp only [growDecoder, hp]

/-- Every later Symbol inserts PREV with its first byte, and the next width follows. -/
theorem growDecoder_of_prev {sym p : Symbol} {s : State} (hp : s.prev = some p) :
    growDecoder sym s = (insertSymbol (p.snoc sym.first) s).map fun t => t.setDnbits (nbitsNext t) := by
  simp only [growDecoder, hp]
  cases insertSymbol (p.snoc sym.first) s <;> rfl

/-- Settles O46, by how much of a codeword is buffered and by the phase of the call. -/
theorem decByteBuffersBits : Obligations.DecByteBuffersBits := by
  refine ⟨fun b => encode_formatB b (by simp [formatB]) (by simp [Instr.opcode]), fun b s hc hp hlt => ?_,
    fun is s hc hd his => runCommands_dec_done hc hd his, fun b s => exec_dec_sequence rfl, by decide +kernel⟩
  rw [exec_decByte b hc hp, decByteRule_of_short hlt]
  rfl

/-- Settles O47: the rule is `decodeCode` of the code, and its equations are the ways a decode step ends. -/
theorem decByteRunsDecodeStep : Obligations.DecByteRunsDecodeStep := by
  intro b s code left hc hp hcode hlen
  rw [exec_decByte b hc hp, decByteRule_of_code hcode hlen]
  refine ⟨fun hz => ?_, fun hnz hnone => ?_, fun sym hnz hsym hprev => ?_, fun sym p hnz hsym hprev =>
    ⟨fun c hg => ?_, fun hn hl => ?_, fun hn hl => ?_⟩⟩
  · rw [hz, decodeCode_zero]
    rfl
  · rw [decodeCode_of_undefined (s := s.setIbuf left) hnz hnone]
    rfl
  all_goals rw [decodeCode_of_decodesTo (s := s.setIbuf left) hnz hsym]
  · rw [growDecoder_of_first (by exact hprev)]
    rfl
  all_goals rw [growDecoder_of_prev (by exact hprev)]
  · rw [insertSymbol_of_present (s := (s.setIbuf left).outSymbol sym) hg]
    rfl
  · rw [insertSymbol_of_full (s := (s.setIbuf left).outSymbol sym) hn hl]
    rfl
  · rw [insertSymbol_of_room (s := (s.setIbuf left).outSymbol sym) hn hl]
    rfl

/-! ### DEC_END (R195) -/

/-- The condition of the accepting branch, part by part. -/
theorem shortStop_iff (s : State) : shortStop s = true ↔
    s.params.shortStopOk = true ∧ s.prev ≠ none ∧ s.ibuf.length = bitLength s.maxCode ∧ s.ibuf.length < s.dnbits ∧
      ∀ x ∈ s.ibuf, x = false := by
  have hzero : s.ibuf = zeroBits s.ibuf.length ↔ ∀ x ∈ s.ibuf, x = false := by
    simp [zeroBits, List.eq_replicate_iff]
  rw [← hzero]
  simp only [shortStop, Bool.and_eq_true, decide_eq_true_eq, Option.isSome_iff_ne_none, and_assoc]
  exact Iff.rfl

theorem decEndRule_of_shortStop {s : State} (h : shortStop s = true) :
    decEndRule s = .ok ((s.setIbuf []).setPhase .done) := if_pos h

theorem decEndRule_of_not_shortStop {s : State} (h : ¬ shortStop s = true) :
    decEndRule s = .error (.raise .corruptTruncated) := if_neg h

/-- A width below that of the next number is met only just below a power of two. -/
theorem eq_two_pow_of_bitLength_lt {x : Nat} (h : bitLength x < bitLength (x + 1)) : x + 1 = 2 ^ bitLength x := by
  have hlow := (lt_bitLength_iff _ _).mp h
  have hhigh := lt_two_pow_bitLength x
  omega

theorem DictSound.maxCode_ge {s : State} (h : DictSound s) (hc : s.maxCode ≠ 0) : 256 ≤ s.maxCode :=
  (h.capacity.resolve_left hc).1.1

/-- Settles O48: the two branches are those of `shortStop_iff`. -/
theorem decEndAcceptsOnlyShortStop : Obligations.DecEndAcceptsOnlyShortStop := by
  refine ⟨by decide, fun s hc hp hok hprev hlen hlt hzero => ?_, fun s hc hp hn => ?_, fun s hc hd =>
    exec_dec_done rfl hc hd, fun s => exec_dec_sequence rfl, fun s t h hc hp hexec hd => ?_, by decide +kernel⟩
  · rw [exec_decEnd hc hp, decEndRule_of_shortStop ((shortStop_iff s).mpr ⟨hok, hprev, hlen, hlt, hzero⟩)]
    rfl
  · rw [exec_decEnd hc hp, decEndRule_of_not_shortStop (mt (shortStop_iff s).mp hn)]
    rfl
  · rw [exec_decEnd hc hp] at hexec
    by_cases hs : shortStop s = true
    · obtain ⟨_, _, hlen, hlt, _⟩ := (shortStop_iff s).mp hs
      rw [h.decNext hc hp, hlen] at hlt
      have hpow := eq_two_pow_of_bitLength_lt hlt
      have hge := h.dict.maxCode_ge (h.seeded (.inr hc))
      have hne : s.maxCode ≠ 256 := fun he => by
        rw [he] at hlt
        exact absurd hlt (by decide)
      exact ⟨by omega, by rw [hlen, hpow]⟩
    · rw [decEndRule_of_not_shortStop hs, commit_raise, next_inj] at hexec
      subst hexec
      cases hd

/-! ### What a decode step leaves (R193, R198, R199) -/

/-- What a decode step that does not fault did: the stop code ended the call, or a Symbol was decoded, and with PREV set
one entry inserted. -/
theorem decodeCode_ok {c : Nat} {s t : State} (h : decodeCode c s = .ok t) :
    (c = 0 ∧ t = s.setPhase .done) ∨
    ∃ sym, c ≠ 0 ∧ DecodesTo s c sym ∧
      ((s.prev = none ∧ t = (s.outSymbol sym).setPrev (some sym)) ∨
      ∃ p, s.prev = some p ∧ t = (((s.outSymbol sym).addEntry (p.snoc sym.first)).setDnbits
        (bitLength (s.maxCode + 1 + 1))).setPrev (some sym)) := by
  by_cases hc : c = 0
  · subst hc
    cases h
    exact .inl ⟨rfl, rfl⟩
  by_cases hnone : ∀ sym, ¬ DecodesTo s c sym
  · rw [decodeCode_of_undefined hc hnone] at h
    cases h
  obtain ⟨sym, hsym⟩ := not_forall_not.mp hnone
  rw [decodeCode_of_decodesTo hc hsym] at h
  refine .inr ⟨sym, hc, hsym, ?_⟩
  rcases hp : s.prev with _ | p
  · rw [growDecoder_of_first (by exact hp)] at h
    cases h
    exact .inl ⟨rfl, rfl⟩
  · rw [growDecoder_of_prev (by exact hp)] at h
    rcases insertSymbol_cases (p.snoc sym.first) (s.outSymbol sym) with ⟨_, hi⟩ | ⟨_, _, hi⟩ | ⟨_, _, hi⟩ <;>
      rw [hi] at h <;> cases h
    exact .inr ⟨p, rfl, rfl⟩

@[simp] theorem Symbol.snoc_first (w : Symbol) (b : Byte) : (w.snoc b).first = w.first := rfl

@[simp] theorem Symbol.snoc_bytes (w : Symbol) (b : Byte) : (w.snoc b).bytes = w.bytes ++ [b] := rfl

/-- Before the first Symbol only the dictionary gives a code a meaning. -/
theorem decodesTo_of_first {s : State} {c : Nat} {sym : Symbol} (hp : s.prev = none) :
    DecodesTo s c sym ↔ mapGet s.rev c = some sym :=
  or_iff_left fun ⟨_, _, _, hp', _⟩ => by rw [hp] at hp'; cases hp'

/-- The code the decoder has not yet mirrored means PREV ++ [PREV[0]] (R193). -/
theorem DictCanonical.decodesTo_next_iff {s : State} (h : DictCanonical s) {p sym : Symbol} (hp : s.prev = some p) :
    DecodesTo s (s.maxCode + 1) sym ↔ sym = p.snoc p.first := by
  have hnone : mapGet s.rev (s.maxCode + 1) = none := (h.rev_eq_none_iff _).mpr (.inr (Nat.lt_succ_self _))
  simp [DecodesTo, hnone, hp]

/-- With PREV set, a code means the Symbol that it is bound to once PREV with the Symbol's first byte is inserted: the
decoder's dictionary is one entry behind. -/
theorem DictCanonical.decodesTo_iff {s : State} (h : DictCanonical s) {c : Nat} {p sym : Symbol} (hp : s.prev = some p) :
    DecodesTo s c sym ↔ mapGet (s.addEntry (p.snoc sym.first)).rev c = some sym := by
  rw [State.addEntry_rev]
  by_cases hc : c = s.maxCode + 1
  · rw [hc, h.decodesTo_next_iff hp, mapGet_mapSet_self, Option.some.injEq]
    refine ⟨fun he => by rw [he]; rfl, fun he => ?_⟩
    have hfirst := congrArg Symbol.first he
    rw [Symbol.snoc_first] at hfirst
    rw [hfirst, he]
  · rw [mapGet_mapSet_of_ne _ _ hc]
    exact or_iff_left fun ⟨_, hm, _⟩ => hc hm

/-- Settles O49: the Symbol read is bound to its code, by the dictionary from before the step or by the insertion. -/
theorem decodeStepBindsReadCode : Obligations.DecodeStepBindsReadCode := by
  intro b s t code left h hc hp hcode hlen hexec ha
  have hinv := exec_keepsInvariant h hexec
  rw [exec_decByte b hc hp, decByteRule_of_code hcode hlen] at hexec
  rcases commit_next hexec with hok | ⟨e, _, rfl⟩
  swap
  · cases ha
  rcases decodeCode_ok hok with ⟨_, rfl⟩ | ⟨sym, _, hsym, hgrow⟩
  · cases ha
  replace hsym : DecodesTo s (bitsVal code) sym := hsym
  have hprev : t.prev = some sym := by
    rcases hgrow with ⟨_, rfl⟩ | ⟨p, _, rfl⟩ <;> rfl
  have hrev : mapGet t.rev (bitsVal code) = some sym := by
    rcases hgrow with ⟨hnone, rfl⟩ | ⟨p, hq, rfl⟩
    · exact (decodesTo_of_first hnone).mp hsym
    · exact (h.canonical.decodesTo_iff hq).mp hsym
  refine ⟨⟨sym, hprev, hrev, knows_of_mapGet ((hinv.canonical.inverse _ _).mpr hrev)⟩, fun hm p hq => ?_⟩
  rw [hm] at hsym ⊢
  have hpend := (h.canonical.decodesTo_next_iff hq).mp hsym
  refine ⟨hpend ▸ hprev, by rw [← hm, ← hpend, hrev], ?_⟩
  rcases hgrow with ⟨hnone, _⟩ | ⟨_, _, rfl⟩
  · cases hq.symm.trans hnone
  · rfl

/-- The decode step keeps what is left of the input. -/
theorem decodeCode_ibuf {c : Nat} {s t : State} (h : decodeCode c s = .ok t) : t.ibuf = s.ibuf := by
  rcases decodeCode_ok h with ⟨_, rfl⟩ | ⟨sym, _, _, ⟨_, rfl⟩ | ⟨p, _, rfl⟩⟩ <;> rfl

theorem exec_decByte_call {b : Byte} {s t : State} (h : exec (.decByte b) s = .next t) : t.call = s.call := by
  rcases runData_frame (h : runData .dec _ _ s = _) with rfl | ⟨e, rfl⟩ | ⟨_, hok⟩
  · rfl
  · rfl
  · exact ((RuleSound.decByte b).ok s t hok).call

/-- Settles O50: the bounds are the invariant's, and a decode step leaves what follows its codeword. -/
theorem atMostOneStepPerByte : Obligations.AtMostOneStepPerByte := by
  intro b s t h hc hp hexec
  have hbits := h.decBits hc hp
  have hdn := h.dnbits
  obtain ⟨_, _, hcap⟩ := wellFormed_bounds h.params
  refine ⟨by omega, by omega, (exec_keepsInvariant h hexec).decBits ((exec_decByte_call hexec).trans hc),
    fun hle hnf => ?_⟩
  have hlen : ((s.ibuf ++ byteBits b).take s.dnbits).length = s.dnbits := by simpa using hle
  rw [exec_decByte b hc hp, decByteRule_of_code (List.take_append_drop _ _) hlen] at hexec
  rcases commit_next hexec with hok | ⟨e, _, rfl⟩
  · rw [decodeCode_ibuf hok, State.setIbuf_ibuf, List.length_drop, List.length_append, byteBits_length]
    omega
  · exact absurd rfl hnf

/-! ### What the rest of the input does to a running decode call (R200) -/

/-- The commands that give a running decode call the rest of its input and end it (30_encoding.md R92). -/
def decodeRest (bytes : List Byte) : List Instr := bytes.map .decByte ++ [.decEnd]

/-- The bits a decode call has still to read: those of IBUF, then those of the bytes to come. -/
def unreadBits (d : State) (bytes : List Byte) : List Bool := d.ibuf ++ bytes.flatMap byteBits

theorem pipelineOf_decodeRest (bytes : List Byte) : ∀ i ∈ decodeRest bytes, pipelineOf i = some .dec := by
  simp [decodeRest, or_imp, forall_and, pipelineOf]

/-- Pushing the next byte leaves the same bits to read. -/
theorem unreadBits_push (d : State) (b : Byte) (bytes : List Byte) :
    unreadBits (d.push b) bytes = unreadBits d (b :: bytes) := by
  simp [unreadBits]

/-- A byte that completes no codeword joins IBUF. -/
theorem runCommands_decodeRest_push {d : State} {b : Byte} (bytes : List Byte) (hc : d.call = .dec)
    (hp : d.phase = .active) (h : d.ibuf.length + 8 < d.dnbits) :
    runCommands (decodeRest (b :: bytes)) d = runCommands (decodeRest bytes) (d.push b) :=
  runCommands_cons_of_next _ (by rw [exec_decByte b hc hp, decByteRule_of_short h, commit_ok])

/-- With a whole codeword still to come, the call goes on until a byte completes it and the decode step runs; fewer than
8 bits of that byte are left. -/
theorem runCommands_decodeRest_code {code rest : List Bool} (bytes : List Byte) {d : State} (hc : d.call = .dec)
    (hp : d.phase = .active) (hbuf : d.ibuf.length < d.dnbits) (h : unreadBits d bytes = code ++ rest)
    (hlen : code.length = d.dnbits) :
    ∃ left bytes', left.length < 8 ∧ left ++ bytes'.flatMap byteBits = rest ∧
      ∀ t, decodeCode (bitsVal code) (d.setIbuf left) = .ok t →
        runCommands (decodeRest bytes) d = runCommands (decodeRest bytes') t := by
  induction bytes generalizing d with
  | nil =>
    have hlength := congrArg List.length h
    simp only [unreadBits, List.flatMap_nil, List.append_nil, List.length_append] at hlength
    omega
  | cons b bytes ih =>
    rw [← unreadBits_push] at h
    by_cases hlt : d.ibuf.length + 8 < d.dnbits
    · obtain ⟨left, bytes', hleft, hrest, hrun⟩ := ih (d := d.push b) hc hp (by simpa using hlt) h hlen
      exact ⟨left, bytes', hleft, hrest, fun t ht => by rw [runCommands_decodeRest_push bytes hc hp hlt, hrun t ht]⟩
    · obtain ⟨left, hleft⟩ : code <+: d.ibuf ++ byteBits b :=
        List.prefix_of_prefix_length_le ⟨rest, h.symm⟩ ⟨_, rfl⟩ (by simp; omega)
      have hlength := congrArg List.length hleft
      simp only [List.length_append, byteBits_length] at hlength
      have hrest : left ++ bytes.flatMap byteBits = rest := by
        rw [unreadBits, State.push_ibuf, ← hleft, List.append_assoc] at h
        exact List.append_cancel_left h
      refine ⟨left, bytes, by omega, hrest, fun t ht => runCommands_cons_of_next _ ?_⟩
      rw [exec_decByte b hc hp, decByteRule_of_code hleft hlen, ht, commit_ok]

/-- With less than a codeword still to come, all of it is in IBUF when DEC_END runs. -/
theorem runCommands_decodeRest_short (bytes : List Byte) {d : State} (hc : d.call = .dec) (hp : d.phase = .active)
    (h : (unreadBits d bytes).length < d.dnbits) :
    runCommands (decodeRest bytes) d = runCommands [.decEnd] (d.setIbuf (unreadBits d bytes)) := by
  induction bytes generalizing d with
  | nil => simp [unreadBits, decodeRest, State.setIbuf]
  | cons b bytes ih =>
    rw [← unreadBits_push] at h ⊢
    have hlt : d.ibuf.length + 8 < d.dnbits := by
      simp only [unreadBits, State.push_ibuf, List.length_append, byteBits_length] at h
      omega
    rw [runCommands_decodeRest_push bytes hc hp hlt, ih (d := d.push b) hc hp h]
    rfl

theorem bitsOf_zero (w : Nat) : bitsOf w 0 = zeroBits w := by
  simpa [bitsVal_zeroBits] using bitsOf_bitsVal (zeroBits w)

theorem zeroBits_append (m n : Nat) : zeroBits m ++ zeroBits n = zeroBits (m + n) := List.replicate_append_replicate

/-- A call ends where nothing but zero bits is left: as a stop code that is read (R192), or as the short one DEC_END
accepts (R195). -/
theorem runCommands_decodeRest_stop {bytes : List Byte} {d : State} {n : Nat} (hc : d.call = .dec)
    (hp : d.phase = .active) (hbuf : d.ibuf.length < d.dnbits) (h : unreadBits d bytes = zeroBits n)
    (hstop : d.dnbits ≤ n ∨ (d.params.shortStopOk = true ∧ d.prev ≠ none ∧ n = bitLength d.maxCode)) :
    ∃ u, runCommands (decodeRest bytes) d = .next u ∧ u.phase = .done ∧ u.err = d.err ∧ u.outq = d.outq := by
  by_cases hle : d.dnbits ≤ n
  · have hsplit : unreadBits d bytes = zeroBits d.dnbits ++ zeroBits (n - d.dnbits) := by
      rw [h, zeroBits_append, Nat.add_sub_cancel' hle]
    obtain ⟨left, bytes', _, _, hrun⟩ := runCommands_decodeRest_code bytes hc hp hbuf hsplit (zeroBits_length _)
    rw [bitsVal_zeroBits] at hrun
    exact ⟨(d.setIbuf left).setPhase .done, (hrun _ (decodeCode_zero _)).trans
      (runCommands_dec_done hc rfl (pipelineOf_decodeRest bytes')), rfl, rfl, rfl⟩
  · obtain ⟨hok, hprev, hn⟩ := hstop.resolve_left hle
    have hshort : shortStop (d.setIbuf (unreadBits d bytes)) = true := by
      rw [h]
      refine (shortStop_iff _).mpr ⟨hok, hprev, ?_, ?_, fun x hx => List.eq_of_mem_replicate hx⟩
      · simpa using hn
      · simpa using hle
    refine ⟨((d.setIbuf (unreadBits d bytes)).setIbuf []).setPhase .done, ?_, rfl, rfl, rfl⟩
    rw [runCommands_decodeRest_short bytes hc hp (by rw [h, zeroBits_length]; omega)]
    refine runCommands_cons_of_next [] ?_
    rw [exec_decEnd (by exact hc) (by exact hp), decEndRule_of_shortStop hshort, commit_ok]

/-! ### The decoder mirrors the encoder (R193, R197, R202) -/

/-- A running decode call that has read all but the last Symbol of a running encode call: its width is the encoder's, and
its dictionary is the encoder's, but for the entry the first byte of WORD completes. -/
structure Mirrors (e d : State) : Prop where
  phase : d.phase = .active
  call : d.call = .dec
  err : d.err = .none
  params : d.params = e.params
  buffered : d.ibuf.length < d.dnbits
  width : d.dnbits = nbits e
  canonical : DictCanonical d
  behind : (d.prev = none ∧ SameDict d e ∧ e.maxCode = 256) ∨
    ∃ p w, d.prev = some p ∧ e.word = some w ∧ mapGet d.fwd (p.snoc w.first) = none ∧
      SameDict (d.addEntry (p.snoc w.first)) e

/-- The same call once it has read WORD too. -/
structure CaughtUp (e d : State) (w : Symbol) : Prop where
  phase : d.phase = .active
  call : d.call = .dec
  err : d.err = .none
  params : d.params = e.params
  buffered : d.ibuf.length < 8
  width : d.dnbits = nbitsNext e
  prev : d.prev = some w
  dict : SameDict d e

theorem mirrors_init {s t : State} (hparams : t.params = s.params) :
    Mirrors ((s.startCall .enc).dictInit.setWord none) (((t.startCall .dec).dictInit.setDnbits 9).setPrev none) :=
  ⟨rfl, rfl, rfl, hparams, by simp, (by decide : 9 = bitLength 256),
    (DictCanonical.dictInit t).congr rfl rfl rfl, .inl ⟨rfl, ⟨rfl, rfl, rfl⟩, rfl⟩⟩

/-- WORD may grow: only its first byte matters. -/
theorem Mirrors.setWord {e d : State} (hm : Mirrors e d) {w : Symbol} (hw : ∀ v, e.word = some v → v.first = w.first) :
    Mirrors (e.setWord (some w)) d := by
  refine ⟨hm.phase, hm.call, hm.err, hm.params, hm.buffered, hm.width, hm.canonical, ?_⟩
  refine hm.behind.imp_right fun ⟨p, v, hp, hv, hn, hdict⟩ => ⟨p, w, hp, rfl, ?_⟩
  rw [← hw v hv]
  exact ⟨hn, hdict⟩

/-- The code of WORD means WORD to the decoder too, whether it has mirrored that entry or not (R193). -/
theorem Mirrors.decodesTo {e d : State} (hm : Mirrors e d) (hcan : DictCanonical e) {w : Symbol} {k : Nat}
    (hw : e.word = some w) (hk : mapGet e.fwd w = some k) : DecodesTo d k w := by
  have hrev := (hcan.inverse w k).mp hk
  rcases hm.behind with ⟨hp, ⟨_, hdict, _⟩, _⟩ | ⟨p, v, hp, hv, _, _, hdict, _⟩
  · rw [decodesTo_of_first hp, ← hdict, hrev]
  · cases hw.symm.trans hv
    rw [hm.canonical.decodesTo_iff hp, ← hdict, hrev]

/-- Reading the code of WORD catches up with the encoder. -/
theorem Mirrors.decodeCode_word {e d : State} (hm : Mirrors e d) (h : EncRunning e) {w : Symbol} {k : Nat}
    (hw : e.word = some w) (hk : mapGet e.fwd w = some k) {left : List Bool} (hleft : left.length < 8) :
    ∃ t, decodeCode k (d.setIbuf left) = .ok t ∧ t.ibuf = left ∧ t.outq = d.outq ++ w.bytes ∧ CaughtUp e t w := by
  have hpos := (h.dict.canonical.code_range hk).1
  have hcap := (h.dict.capacity.resolve_left h.seeded).2
  rw [decodeCode_of_decodesTo (s := d.setIbuf left) (by omega) (hm.decodesTo h.dict.canonical hw hk)]
  rcases hm.behind with ⟨hp, hdict, h256⟩ | ⟨p, v, hp, hv, hn, hdict⟩
  · rw [growDecoder_of_first (by exact hp)]
    refine ⟨_, rfl, rfl, rfl, hm.phase, hm.call, hm.err, hm.params, hleft, ?_, rfl, hdict⟩
    show d.dnbits = bitLength (e.maxCode + 1)
    rw [hm.width, nbits, h256]
    decide
  · cases hw.symm.trans hv
    have hmax : e.maxCode = d.maxCode + 1 := hdict.2.2
    have hroom : d.maxCode < codeLimit d.params := by
      rw [hm.params]
      omega
    rw [growDecoder_of_prev (by exact hp), insertSymbol_of_room (s := (d.setIbuf left).outSymbol w) hn hroom]
    refine ⟨_, rfl, rfl, rfl, hm.phase, hm.call, hm.err, hm.params, hleft, ?_, rfl, hdict⟩
    show bitLength (d.maxCode + 1 + 1) = bitLength (e.maxCode + 1)
    rw [hmax]

/-- A decoder that finds the code of WORD next in its input reads it. -/
theorem Mirrors.runCommands_word {e d : State} (hm : Mirrors e d) (h : EncRunning e) {w : Symbol} {k : Nat}
    (hw : e.word = some w) (hk : mapGet e.fwd w = some k) {bytes : List Byte} {rest : List Bool}
    (hbits : unreadBits d bytes = bitsOf (nbits e) k ++ rest) :
    ∃ t bytes', runCommands (decodeRest bytes) d = runCommands (decodeRest bytes') t ∧ CaughtUp e t w ∧
      t.outq = d.outq ++ w.bytes ∧ unreadBits t bytes' = rest := by
  obtain ⟨left, bytes', hleft, hrest, hrun⟩ :=
    runCommands_decodeRest_code bytes hm.call hm.phase hm.buffered hbits (by rw [bitsOf_length, hm.width])
  rw [bitsVal_bitsOf _ _ (h.dict.canonical.code_lt hk)] at hrun
  obtain ⟨t, ht, hibuf, hout, hcaught⟩ := hm.decodeCode_word h hw hk hleft
  exact ⟨t, bytes', hrun t ht, hcaught, hout, by rw [unreadBits, hibuf, hrest]⟩

/-- It has no whole codeword buffered: the width is at least 9. -/
theorem CaughtUp.ibuf_lt {e d : State} {w : Symbol} (hd : CaughtUp e d w) (h : EncRunning e) :
    d.ibuf.length < d.dnbits := by
  have hge := h.dict.maxCode_ge h.seeded
  have hwide : 7 < nbitsNext e := (lt_bitLength_iff _ 7).mpr (by omega)
  rw [hd.width]
  exact hd.buffered.trans_le hwide

/-- When the encoder inserts WORD with its next byte, the decoder is one entry behind again. -/
theorem CaughtUp.mirrors {e d : State} {w : Symbol} (hd : CaughtUp e d w) (h : EncRunning e) {b : Byte}
    (hn : mapGet e.fwd (w.snoc b) = none) (bits : List Bool) :
    Mirrors (((e.appendBits bits).addEntry (w.snoc b)).setWord (some (Symbol.single b))) d := by
  obtain ⟨hfwd, hrev, hmax⟩ := hd.dict
  refine ⟨hd.phase, hd.call, hd.err, hd.params, hd.ibuf_lt h, hd.width,
    h.dict.canonical.congr hfwd.symm hrev.symm hmax.symm, .inr ⟨w, Symbol.single b, hd.prev, rfl, hfwd ▸ hn, ?_, ?_, ?_⟩⟩
  · simp [hfwd, hmax, Symbol.single]
  · simp [hrev, hmax, Symbol.single]
  · simp [hmax]

/-! ### What the encoder writes decodes back (R202) -/

/-- The bytes of WORD. -/
def wordBytes (e : State) : List Byte := e.word.elim [] Symbol.bytes

/-- Every decode call that mirrors the encoder and has these bits to read ends DONE and gives these bytes. -/
def DecodesBack (e : State) (stream : List Bool) (out : List Byte) : Prop :=
  ∀ d bytes, Mirrors e d → unreadBits d bytes = stream →
    ∃ u, runCommands (decodeRest bytes) d = .next u ∧ u.phase = .done ∧ u.err = .none ∧ u.outq = d.outq ++ out

/-- With WORD empty, a stop code of the encoder's width is read. -/
theorem decodesBack_stop {e : State} (hw : e.word = none) (k : Nat) :
    DecodesBack e (bitsOf (nbits e) 0 ++ zeroBits k) (wordBytes e) := by
  intro d bytes hm hbits
  rw [bitsOf_zero, zeroBits_append] at hbits
  obtain ⟨u, hrun, hdone, herr, hout⟩ := runCommands_decodeRest_stop hm.call hm.phase hm.buffered hbits
    (.inl (by rw [hm.width]; omega))
  exact ⟨u, hrun, hdone, herr.trans hm.err, by simpa [wordBytes, hw] using hout⟩

/-- After WORD, the stop code in the width from before the decoder's insertion ends the call: padding makes it long
enough to read, or the short stop accepts it. -/
theorem EncRunning.decodesBack_word_stop {e : State} (h : EncRunning e) (hok : e.params.shortStopOk = true) {w : Symbol}
    {k : Nat} (hw : e.word = some w) (hk : mapGet e.fwd w = some k) (pad : Nat) :
    DecodesBack e (bitsOf (nbits e) k ++ bitsOf (nbits e) 0 ++ zeroBits pad) (wordBytes e) := by
  intro d bytes hm hbits
  rw [bitsOf_zero, List.append_assoc, zeroBits_append] at hbits
  obtain ⟨t, bytes', hrun, hd, hout, hrest⟩ := hm.runCommands_word h hw hk hbits
  have hnext : nbitsNext e ≤ nbits e + 1 := bitLength_succ_le e.maxCode
  have hstop : t.dnbits ≤ nbits e + pad ∨
      (t.params.shortStopOk = true ∧ t.prev ≠ none ∧ nbits e + pad = bitLength t.maxCode) := by
    rw [hd.width, hd.params, hd.prev, ← hd.dict.2.2]
    by_cases hpad : pad = 0
    · exact .inr ⟨hok, by simp, by rw [hpad]; rfl⟩
    · exact .inl (by omega)
  obtain ⟨u, hu, hdone, herr, hout'⟩ := runCommands_decodeRest_stop hd.call hd.phase (hd.ibuf_lt h) hrest hstop
  exact ⟨u, hrun.trans hu, hdone, herr.trans hd.err, by rw [hout', hout, wordBytes, hw]; rfl⟩

/-- ENC_END in a running call: what it writes decodes back to WORD. -/
theorem EncRunning.exec_encEnd_decodesBack {e : State} (h : EncRunning e) (hok : e.params.shortStopOk = true) :
    ∃ t stream, exec .encEnd e = .next t ∧ t.phase = .done ∧ t.params = e.params ∧
      t.outq.flatMap byteBits = packedBits e ++ stream ∧ DecodesBack e stream (wordBytes e) := by
  have hrule : ∃ bits, encEndRule e = .ok (e.endEncode bits) ∧
      ∀ pad, DecodesBack e (bits ++ zeroBits pad) (wordBytes e) := by
    rcases hw : e.word with _ | w
    · exact ⟨_, encEndRule_of_empty hw, decodesBack_stop hw⟩
    · obtain ⟨k, hk⟩ := (State.knows_iff_exists e w).mp (h.word w hw)
      exact ⟨_, encEndRule_of_word hw hk (h.dict.canonical.code_lt hk), h.decodesBack_word_stop hok hw hk⟩
  obtain ⟨bits, hbits, hback⟩ := hrule
  obtain ⟨bytes, hexec, ⟨pad, _, hcut⟩, _⟩ := exec_encEnd_of_rule h.call h.phase hbits
  refine ⟨_, bits ++ zeroBits pad, hexec, rfl, rfl, ?_, hback pad⟩
  rw [List.flatMap_append, hcut, packedBits, List.append_assoc, List.append_assoc]

/-- ENC_BYTE in a running call: what decodes back to the new WORD and more, after what it writes decodes back to the old
WORD, its byte and that more. -/
theorem EncRunning.exec_encByte_decodesBack {e e' : State} {b : Byte} (h : EncRunning e)
    (hexec : exec (.encByte b) e = .next e') (ha : e'.phase = .active) :
    ∃ emitted, packedBits e' = packedBits e ++ emitted ∧ ∀ stream rest,
      DecodesBack e' stream (wordBytes e' ++ rest) → DecodesBack e (emitted ++ stream) (wordBytes e ++ b :: rest) := by
  rw [Machine.exec_encByte b h.call h.phase] at hexec
  rcases commit_next hexec with hok | ⟨_, _, rfl⟩
  swap
  · cases ha
  rcases Machine.encByteRule_cases b e with ⟨hw, hrule⟩ | ⟨w, c, hw, _, hrule⟩ | ⟨w, hw, hn, hrule⟩
  · cases hrule.symm.trans hok
    refine ⟨[], (List.append_nil _).symm, fun stream rest hback d bytes hm hbits => ?_⟩
    obtain ⟨u, hu⟩ := hback d bytes (hm.setWord fun v hv => by rw [hw] at hv; cases hv) hbits
    exact ⟨u, by simpa [wordBytes, hw, Symbol.bytes, Symbol.single] using hu⟩
  · cases hrule.symm.trans hok
    refine ⟨[], (List.append_nil _).symm, fun stream rest hback d bytes hm hbits => ?_⟩
    obtain ⟨u, hu⟩ := hback d bytes (hm.setWord fun v hv => by rw [hw] at hv; cases hv; rfl) hbits
    exact ⟨u, by simpa [wordBytes, hw] using hu⟩
  · rcases encMiss_cases w b e with ⟨_, hmiss⟩ | ⟨k, hk, ⟨_, hmiss⟩ | ⟨_, _, hmiss⟩ | ⟨_, _, _, hmiss⟩ |
      ⟨_, _, _, hmiss⟩⟩ <;> cases (hrule.trans hmiss).symm.trans hok
    refine ⟨bitsOf (nbits e) k, packedBits_appendBits _ e, fun stream rest hback d bytes hm hbits => ?_⟩
    obtain ⟨t, bytes', hrun, hd, hout, hrest⟩ := hm.runCommands_word h hw hk hbits
    obtain ⟨u, hu⟩ := hback t bytes' (hd.mirrors h hn _) hrest
    exact ⟨u, by simpa [wordBytes, hw, hrun, hout, Symbol.bytes, Symbol.single] using hu⟩

/-- From inside the encode call: with room for the rest of the input, what is written decodes back to WORD and that
rest. -/
theorem EncRunning.runCommands_decodesBack (input : List Byte) {e : State} (h : EncRunning e)
    (hok : e.params.shortStopOk = true)
    (hroom : e.maxCode + input.length ≤ codeLimit e.params ∨
      (e.word = none ∧ e.maxCode + input.length ≤ codeLimit e.params + 1)) :
    ∃ t stream, runCommands (input.map .encByte ++ [.encEnd]) e = .next t ∧ t.phase = .done ∧ t.params = e.params ∧
      t.outq.flatMap byteBits = packedBits e ++ stream ∧ DecodesBack e stream (wordBytes e ++ input) := by
  induction input generalizing e with
  | nil =>
    obtain ⟨t, stream, hexec, hend⟩ := h.exec_encEnd_decodesBack hok
    exact ⟨t, stream, runCommands_cons_of_next [] hexec, by simpa using hend⟩
  | cons b input ih =>
    rw [List.length_cons] at hroom
    obtain ⟨e', hexec, h', hparams, hmax, hsame⟩ := h.exec_encByte b (hroom.symm.imp And.left (by omega))
    obtain ⟨emitted, hpacked, hback⟩ := h.exec_encByte_decodesBack hexec h'.phase
    have hroom' : e'.maxCode + input.length ≤ codeLimit e'.params := by
      rw [hparams]
      rcases hroom with hle | ⟨hw, hle⟩
      · omega
      · rw [hsame hw]
        omega
    obtain ⟨t, stream, hrun, hdone, hp, hbits, hd⟩ := ih h' (hparams ▸ hok) (.inl hroom')
    refine ⟨t, emitted ++ stream, (runCommands_cons_of_next _ hexec).trans hrun, hdone, hp.trans hparams, ?_,
      hback stream input hd⟩
    rw [hbits, hpacked, List.append_assoc]

/-- Settles O51: the decode call starts as the mirror of the encode call at its start. -/
theorem decodeOfEncodeGivesInput : Obligations.DecodeOfEncodeGivesInput := by
  intro s input hwf hok hs hlen
  have hlim := codeLimit_ge hwf
  obtain ⟨t, stream, hrun, hdone, hparams, hbits, hback⟩ :=
    (EncRunning.encInit (s := s) hwf).runCommands_decodesBack input hok
      (.inr ⟨rfl, show 256 + input.length ≤ codeLimit s.params + 1 by omega⟩)
  obtain ⟨u, hu, hend⟩ := hback _ t.outq (mirrors_init (t := t) hparams) hbits
  refine ⟨t, u, (runCommands_cons_of_next _ (exec_encInit hs)).trans hrun,
    (runCommands_cons_of_next _ (exec_decInit (by rw [hdone]; decide))).trans hu, ?_⟩
  exact hend

end Sys2Proof.Machine

/-! PROOFS. The statements of 60_exceptions.md: the codes and their commands (R220, R223), fault entry (R224), the
behaviour in FAULT (R225), the ways out of FAULT (R226), and waiting (R237). -/

namespace Sys2Proof.Machine

/-! ### Fault entry (R224) -/

/-- A data command outside FAULT ends in FAULT by the fault entry alone; its code says who raised it. -/
theorem RuleSound.runData_fault {p : Call} {legal : Bool} {rule : State → Except Abort State} {s t : State}
    (hs : RuleSound rule) (hf : s.phase ≠ .fault) (h : runData p legal rule s = .next t) (ht : t.phase = .fault) :
    ∃ e, t = s.faultEntry e ∧ ((legal = false ∧ e = .illegalCommand) ∨ e = .sequence ∨
      (s.phase = .active ∧ s.call = p ∧ rule s = .error (.raise e))) := by
  rcases runData_next h with ⟨hphase, _⟩ | ⟨_, hl, rfl⟩ | ⟨_, _, _, _, rfl⟩ | ⟨_, _, _, _, rfl⟩ | ⟨ha, hc, _, hcommit⟩
  · exact absurd hphase hf
  · exact ⟨_, rfl, .inl ⟨hl, rfl⟩⟩
  · exact absurd ht hf
  · exact ⟨_, rfl, .inr (.inl rfl)⟩
  · rcases commit_next hcommit with hok | ⟨e, hraise, rfl⟩
    · have hphase := (hs.ok s t hok).phase
      simp [ha, ht] at hphase
    · exact ⟨e, rfl, .inr (.inr ⟨ha, hc, hraise⟩)⟩

/-- Outside ACTIVE an *_INIT command starts a call; in FAULT too (R226). -/
theorem exec_init_starts {i : Instr} {s : State} (hi : pipelineOf i = none) (ha : s.phase ≠ .active) :
    ∃ t, exec i s = .next t ∧ t.phase = .active ∧ t.err = .none := by
  obtain ⟨kind, rule, _, hrule, hexec⟩ := exec_init hi
  obtain ⟨hkeeps, hphase, _⟩ := hrule s
  exact ⟨_, (hexec s).trans (runInit_of_inactive ha), hphase, hkeeps.err⟩

/-- An *_INIT command ends in FAULT only as a SEQUENCE fault. -/
theorem exec_init_fault {i : Instr} {s t : State} (hi : pipelineOf i = none) (h : exec i s = .next t)
    (ht : t.phase = .fault) : t = s.faultEntry .sequence := by
  by_cases ha : s.phase = .active
  · exact (next_inj _ _).mp (h.symm.trans (exec_init_active hi ha))
  · obtain ⟨u, hu, hactive, _⟩ := exec_init_starts hi ha
    cases h.symm.trans hu
    cases hactive.symm.trans ht

/-- A command that faults commits nothing but PHASE and ERR. -/
theorem exec_fault {i : Instr} {s t : State} (hf : s.phase ≠ .fault) (h : exec i s = .next t)
    (ht : t.phase = .fault) : ∃ e, e ≠ .none ∧ t = s.faultEntry e := by
  rcases hp : pipelineOf i with _ | p
  · exact ⟨.sequence, by decide, exec_init_fault hp h ht⟩
  · obtain ⟨rule, hsound, hexec⟩ := exec_data hp
    rw [hexec] at h
    obtain ⟨e, rfl, ⟨_, rfl⟩ | rfl | ⟨_, _, hraise⟩⟩ := hsound.runData_fault hf h ht
    · exact ⟨_, by decide, rfl⟩
    · exact ⟨_, by decide, rfl⟩
    · exact ⟨e, (hsound.raise s e hraise).1, rfl⟩

/-- Settles O21: an illegal word and a command that faults both end in the fault entry. -/
theorem faultCommitsOnlyPhaseAndErr : Obligations.FaultCommitsOnlyPhaseAndErr := by
  refine ⟨fun w s t h hf ht => ?_, by decide⟩
  rcases hd : decodeCmd w with e | i
  · rw [runWord_of_illegal ⟨e, hd⟩ hf, next_inj] at h
    exact ⟨.illegalCommand, by decide, h.symm⟩
  · rw [runWord_of_ok s hd] at h
    exact exec_fault hf h ht

/-! ### Behaviour in FAULT (R225, R226) -/

/-- In FAULT a word that is not an *_INIT changes nothing, legal or not. -/
theorem runWord_of_fault {w : Word} {s : State} (hf : s.phase = .fault)
    (hw : ∀ i, decodeCmd w = .ok i → pipelineOf i ≠ none) : runWord w s = .next s := by
  rcases hd : decodeCmd w with e | i
  · rw [runWord_of_error s hd, runIllegal_of_fault hf]
  · obtain ⟨p, hp⟩ := Option.ne_none_iff_exists'.mp (hw i hd)
    obtain ⟨rule, _, hexec⟩ := exec_data hp
    rw [runWord_of_ok s hd, hexec, runData_of_fault hf]

/-- Settles O22, by induction on the batch and, for the reads, by register. -/
theorem faultIgnoresAllButInit : Obligations.FaultIgnoresAllButInit := by
  refine ⟨fun ws => ?_, fun s o rest hf ho hp => ?_⟩
  · induction ws with
    | nil => exact fun _ _ _ => rfl
    | cons w ws ih =>
      intro s hf hws
      obtain ⟨hw, hrest⟩ := List.forall_mem_cons.mp hws
      rw [runWords, runWord_of_fault hf hw]
      exact ih s hf hrest
  · simp only [List.mem_cons, List.not_mem_nil, or_false] at ho
    rcases ho with rfl | rfl | rfl | rfl
    · exact ⟨_, _, step_read_status hp, hf, rfl, rfl, rfl⟩
    · exact ⟨_, _, step_read_out hp, hf, rfl, rfl, rfl⟩
    · exact ⟨_, _, step_read_result hp, hf, rfl, rfl, rfl⟩
    · exact ⟨_, _, step_read_maxcode hp, hf, rfl, rfl, rfl⟩

/-- Settles O23, by the kind of the access the step performs. -/
theorem faultIsLeftOnlyByInitOrReset : Obligations.FaultIsLeftOnlyByInitOrReset := by
  refine ⟨fun i s hf hi => exec_init_starts hi (by simp [hf]), fun s t hf hstep => ?_⟩
  rcases step_cases hstep with ⟨_, rfl⟩ | ⟨rest, hp, rfl⟩ | ⟨w, rest, hp, hrun⟩ | ⟨o, rest, v, q, _, rfl, _⟩
  · exact .inl ⟨hf, rfl⟩
  · exact .inr (.inl ⟨rfl, rfl, rest, hp⟩)
  · by_cases hinit : ∃ i, decodeCmd w = .ok i ∧ pipelineOf i = none
    · obtain ⟨i, hd, hi⟩ := hinit
      obtain ⟨u, hu, hactive, herr⟩ := exec_init_starts (s := { s with pending := rest }) hi (by simp [hf])
      rw [runWord_of_ok _ hd, hu, next_inj] at hrun
      subst hrun
      exact .inr (.inr ⟨hactive, herr, w, i, rest, hp, hd, hi⟩)
    · rw [runWord_of_fault (s := { s with pending := rest }) hf fun i hd hi => hinit ⟨i, hd, hi⟩, next_inj] at hrun
      subst hrun
      exact .inl ⟨hf, rfl⟩
  · exact .inl ⟨hf, rfl⟩

/-! ### The fault codes and their commands (R220, R223) -/

/-- The codes a command's own rule may raise: the rows of R220, read by command. -/
def ruleCodes : Instr → List Err
  | .encByte _ => [.capacity]
  | .decByte _ => [.corruptBadCode, .corruptDuplicate, .capacity]
  | .decEnd => [.corruptTruncated]
  | .pkAppend _ _ => [.precondition]
  | .upkByte _ => [.bufferOverflow]
  | .upkRead _ => [.corruptTruncated]
  | .encInit | .encEnd | .decInit | .pkInit | .pkEnd | .upkInit | .upkEnd => []

/-- In a running call of its pipeline, the own rule of a data command raises only the codes listed. -/
def RuleRaisesOnly (p : Call) (rule : State → Except Abort State) (codes : List Err) : Prop :=
  ∀ s e, Invariant s → s.phase = .active → s.call = p → rule s = .error (.raise e) → e ∈ codes

theorem encByteRule_raisesOnly (b : Byte) : RuleRaisesOnly .enc (encByteRule b) (ruleCodes (.encByte b)) := by
  intro s e h ha hc hraise
  rcases (h.encRunning hc ha).encByteRule_cases b with ⟨t, hok, _⟩ | ⟨_, _, hcap⟩
  · cases hok.symm.trans hraise
  · cases hcap.symm.trans hraise; simp [ruleCodes]

/-- Under the invariant the code of WORD fits the width, so ENC_END raises nothing (43_encoder.md R173). -/
theorem encEndRule_raisesOnly : RuleRaisesOnly .enc encEndRule (ruleCodes .encEnd) := by
  intro s e h _ _ hraise
  rcases encEndRule_cases s with ⟨_, he⟩ | ⟨_, _, _, he⟩ | ⟨w, k, _, hk, hwide, _⟩ | ⟨_, _, _, _, _, he⟩
  · cases he.symm.trans hraise
  · cases he.symm.trans hraise
  · exact absurd (h.canonical.code_lt hk) (not_lt.mpr hwide)
  · cases he.symm.trans hraise

theorem decByteRule_raisesOnly (b : Byte) : RuleRaisesOnly .dec (decByteRule b) (ruleCodes (.decByte b)) := by
  intro s e _ _ _ hraise
  rcases decByteRule_cases b s with ⟨_, he⟩ | ⟨_, ⟨_, he⟩ | ⟨_, _, he⟩ | ⟨sym, _, _, ⟨_, he⟩ | ⟨p, _, _, he⟩ |
    ⟨p, _, _, _, he⟩ | ⟨p, _, _, _, he⟩⟩⟩ <;> cases he.symm.trans hraise <;> simp [ruleCodes]

theorem decEndRule_raisesOnly : RuleRaisesOnly .dec decEndRule (ruleCodes .decEnd) := by
  intro s e _ _ _ hraise
  by_cases hs : shortStop s = true
  · cases (decEndRule_of_shortStop hs).symm.trans hraise
  · cases (decEndRule_of_not_shortStop hs).symm.trans hraise; simp [ruleCodes]

theorem emit_raisesOnly (a : BitVec 5) (v : BitVec 23) :
    RuleRaisesOnly .pk (emit v.toNat a.toNat) (ruleCodes (.pkAppend a v)) := by
  intro s e _ _ _ hraise
  rcases emit_cases v.toNat a.toNat s with ⟨_, he⟩ | ⟨_, he⟩ <;> cases he.symm.trans hraise
  simp [ruleCodes]

theorem upkByteRule_raisesOnly (b : Byte) : RuleRaisesOnly .upk (upkByteRule b) (ruleCodes (.upkByte b)) := by
  intro s e _ _ _ hraise
  rcases Nat.lt_or_ge s.params.ibufBits (s.ibuf.length + 8) with hlt | hle
  · cases (upkByteRule_of_lt hlt).symm.trans hraise; simp [ruleCodes]
  · cases (upkByteRule_of_le hle).symm.trans hraise

theorem upkReadRule_raisesOnly (a : BitVec 5) :
    RuleRaisesOnly .upk (upkReadRule a.toNat) (ruleCodes (.upkRead a)) := by
  intro s e _ _ _ hraise
  rcases upkReadRule_cases a.toNat s with ⟨_, he⟩ | ⟨_, he⟩ <;> cases he.symm.trans hraise
  simp [ruleCodes]

/-- A rule without a failure branch, as PK_END and UPK_END have. -/
theorem ok_raisesOnly (p : Call) (g : State → State) (codes : List Err) :
    RuleRaisesOnly p (fun s => .ok (g s)) codes :=
  fun _ _ _ _ _ hraise => nomatch hraise

/-- The code of a legal data command that faults is SEQUENCE or one its own rule raises. -/
theorem RuleRaisesOnly.runData_fault_code {p : Call} {legal : Bool} {rule : State → Except Abort State}
    {codes : List Err} {s t : State} (hr : RuleRaisesOnly p rule codes) (hs : RuleSound rule) (hl : legal = true)
    (h : Invariant s) (hf : s.phase ≠ .fault) (hrun : runData p legal rule s = .next t) (ht : t.phase = .fault) :
    t.err = .sequence ∨ t.err ∈ codes := by
  obtain ⟨e, rfl, ⟨hillegal, _⟩ | rfl | ⟨ha, hc, hraise⟩⟩ := hs.runData_fault hf hrun ht
  · cases hl.symm.trans hillegal
  · exact .inl rfl
  · exact .inr (hr s e h ha hc hraise)

/-- The code of a legal command that faults is SEQUENCE or one listed for the command. -/
theorem exec_fault_code {i : Instr} {s t : State} (hwf : i.wellFormed = true) (h : Invariant s)
    (hf : s.phase ≠ .fault) (hexec : exec i s = .next t) (ht : t.phase = .fault) :
    t.err = .sequence ∨ t.err ∈ ruleCodes i := by
  cases i with
  | encInit | decInit | pkInit | upkInit => exact .inl (congrArg State.err (exec_init_fault rfl hexec ht))
  | encByte b => exact (encByteRule_raisesOnly b).runData_fault_code (.encByte b) rfl h hf hexec ht
  | encEnd => exact encEndRule_raisesOnly.runData_fault_code .encEnd rfl h hf hexec ht
  | decByte b => exact (decByteRule_raisesOnly b).runData_fault_code (.decByte b) rfl h hf hexec ht
  | decEnd => exact decEndRule_raisesOnly.runData_fault_code .decEnd rfl h hf hexec ht
  | pkAppend a v => exact (emit_raisesOnly a v).runData_fault_code (.pkAppend _ _) hwf h hf hexec ht
  | pkEnd => exact (ok_raisesOnly _ _ _).runData_fault_code .pkEnd rfl h hf hexec ht
  | upkByte b => exact (upkByteRule_raisesOnly b).runData_fault_code (.upkByte b) rfl h hf hexec ht
  | upkRead a => exact (upkReadRule_raisesOnly a).runData_fault_code (.upkRead _) hwf h hf hexec ht
  | upkEnd => exact (ok_raisesOnly _ _ _).runData_fault_code .upkEnd rfl h hf hexec ht

/-- No rule of a command raises ILLEGAL_COMMAND: that code belongs to the words (R89). -/
theorem illegalCommand_not_mem_ruleCodes (i : Instr) : Err.illegalCommand ∉ ruleCodes i := by
  cases i <;> simp [ruleCodes]

/-- Settles O24: an illegal word has its one code, a legal one those of `exec_fault_code`. -/
theorem faultCodesAndTheirCommands : Obligations.FaultCodesAndTheirCommands := by
  refine ⟨by decide, fun w s t h hf hrun ht => ?_⟩
  rcases hd : decodeCmd w with e | i
  · rw [runWord_of_illegal ⟨e, hd⟩ hf, next_inj] at hrun
    subst hrun
    exact ⟨iff_of_true rfl ⟨e, rfl⟩, fun i hi => nomatch hi⟩
  · rw [runWord_of_ok s hd] at hrun
    obtain ⟨hwf, _⟩ := fields_of_decodeCmd hd
    have hcode := exec_fault_code hwf h hf hrun ht
    have hlegal : t.err ≠ .illegalCommand := by
      intro he
      rw [he] at hcode
      exact hcode.elim (by decide) (illegalCommand_not_mem_ruleCodes i)
    refine ⟨iff_of_false hlegal fun ⟨_, he⟩ => (nomatch he), fun j hj => ?_⟩
    cases hj
    cases i <;> simpa [ruleCodes] using hcode

/-! ### Waiting (R237) -/

/-- Settles O8: a step with no pending access is the waiting step (`step_of_idle`). -/
theorem waitingHoldsState : Obligations.WaitingHoldsState := fun _ => step_of_idle

end Sys2Proof.Machine

/-! PROOFS. The statements of 70_reset_and_hazards.md: reset (R250), and that an ENC or DEC call does not depend on what
was before its *_INIT (R252). -/

namespace Sys2Proof.Machine

/-! ### Reset (R250) -/

/-- No command leaves the block in IDLE: it ignores the word in FAULT or DONE, faults, starts a call, or runs one. -/
theorem exec_phase_ne_idle {i : Instr} {s t : State} (h : exec i s = .next t) : t.phase ≠ .idle := by
  rcases hi : pipelineOf i with _ | p
  · by_cases ha : s.phase = .active
    · cases (exec_init_active hi ha).symm.trans h
      simp
    · obtain ⟨u, hu, hactive, _⟩ := exec_init_starts hi ha
      cases hu.symm.trans h
      simp [hactive]
  · obtain ⟨rule, hsound, hexec⟩ := exec_data hi
    rw [hexec] at h
    rcases runData_next h with ⟨hf, rfl⟩ | ⟨_, _, rfl⟩ | ⟨hd, _, _, _, rfl⟩ | ⟨_, _, _, _, rfl⟩ | ⟨ha, _, _, hcommit⟩
    · simp [hf]
    · simp
    · simp [hd]
    · simp
    · rcases commit_next hcommit with hok | ⟨e, _, rfl⟩
      · rcases (hsound.ok s t hok).phase with hp | hp <;> simp [hp, ha]
      · simp

theorem runWord_phase_ne_idle {w : Word} {s t : State} (h : runWord w s = .next t) : t.phase ≠ .idle := by
  rcases hd : decodeCmd w with e | i
  · rw [runWord_of_error s hd] at h
    by_cases hf : s.phase = .fault
    · cases (runIllegal_of_fault hf).symm.trans h
      simp [hf]
    · cases (runIllegal_of_not_fault hf).symm.trans h
      simp
  · rw [runWord_of_ok s hd] at h
    exact exec_phase_ne_idle h

/-- Settles O15: a command word never ends in IDLE, and waiting and reads keep PHASE, which leaves reset. -/
theorem resetSetsEveryElement : Obligations.ResetSetsEveryElement := by
  refine ⟨fun s rest hp => step_reset hp, fun s t hs hstep ht => ?_⟩
  rcases step_cases hstep with ⟨_, rfl⟩ | ⟨rest, hp, _⟩ | ⟨w, rest, _, hrun⟩ | ⟨o, rest, v, q, _, rfl, _⟩
  · exact absurd ht hs
  · exact ⟨rest, hp⟩
  · exact absurd ht (runWord_phase_ne_idle hrun)
  · exact absurd ht hs

/-! ### The part of the state a call works on (R41) -/

/-- The state without the elements that the data commands of an ENC or a DEC call neither read nor write: the `-` entries
of R41, and the host's queues. For the raw calls, of which R252 says nothing, it is the whole state. -/
def callPart (p : Call) (s : State) : State :=
  match p with
  | .enc => { s with prev := none, dnbits := 0, ibuf := [], resultv := 0, pending := [], replies := [] }
  | .dec => { s with word := none, acc := [], resultv := 0, pending := [], replies := [] }
  | .none | .pk | .upk => s

section
variable (p : Call) (s : State)

@[simp] theorem callPart_phase : (callPart p s).phase = s.phase := by cases p <;> rfl
@[simp] theorem callPart_call : (callPart p s).call = s.call := by cases p <;> rfl
@[simp] theorem callPart_err : (callPart p s).err = s.err := by cases p <;> rfl
@[simp] theorem callPart_fwd : (callPart p s).fwd = s.fwd := by cases p <;> rfl
@[simp] theorem callPart_rev : (callPart p s).rev = s.rev := by cases p <;> rfl
@[simp] theorem callPart_maxCode : (callPart p s).maxCode = s.maxCode := by cases p <;> rfl
@[simp] theorem callPart_outq : (callPart p s).outq = s.outq := by cases p <;> rfl
@[simp] theorem callPart_params : (callPart p s).params = s.params := by cases p <;> rfl

@[simp] theorem callPart_faultEntry (e : Err) : callPart p (s.faultEntry e) = (callPart p s).faultEntry e := by
  cases p <;> rfl

theorem callPart_addEntry (sym : Symbol) : callPart p (s.addEntry sym) = (callPart p s).addEntry sym := by
  cases p <;> rfl

end

/-- No element of a call's result is left out of its part. -/
theorem result_eq_of_callPart_eq {p : Call} {s t : State} (h : callPart p s = callPart p t) :
    s.phase = t.phase ∧ s.call = t.call ∧ s.err = t.err ∧ s.outq = t.outq ∧ s.maxCode = t.maxCode ∧ s.fwd = t.fwd ∧
      s.rev = t.rev := by
  refine ⟨?_, ?_, ?_, ?_, ?_, ?_, ?_⟩
  · simpa using congrArg State.phase h
  · simpa using congrArg State.call h
  · simpa using congrArg State.err h
  · simpa using congrArg State.outq h
  · simpa using congrArg State.maxCode h
  · simpa using congrArg State.fwd h
  · simpa using congrArg State.rev h

/-! ### The commands of a call work on its part alone -/

/-- A rule that works on a part of the state alone: its result on the part is the part of its result. -/
def WorksOn (f : State → State) (rule : State → Except Abort State) : Prop := ∀ s, rule (f s) = (rule s).map f

section
variable {f : State → State} {rule rule' : State → Except Abort State}

theorem WorksOn.bind (h : WorksOn f rule) (h' : WorksOn f rule') : WorksOn f fun s => (rule s).bind rule' := by
  intro s
  show (rule (f s)).bind rule' = ((rule s).bind rule').map f
  rw [h s]
  cases rule s with
  | error e => rfl
  | ok t => exact h' t

theorem WorksOn.ok {g : State → State} (h : ∀ s, g (f s) = f (g s)) : WorksOn f fun s => .ok (g s) :=
  fun s => congrArg Except.ok (h s)

end

/-- Admission and fault entry see the part alone, so a data command does if its own rule does. -/
theorem WorksOn.runData {p k : Call} {legal : Bool} {rule : State → Except Abort State} (h : WorksOn (callPart p) rule)
    (s : State) : runData k legal rule (callPart p s) = mapNext (callPart p) (runData k legal rule s) := by
  have hadmit : admitData k (callPart p s) = admitData k s := by simp [admitData]
  have hcommit : commit (callPart p s) (rule (callPart p s)) = mapNext (callPart p) (commit s (rule s)) := by
    rw [h s]
    rcases rule s with (e | _) | t
    · exact congrArg _ (callPart_faultEntry p s e).symm
    · rfl
    · rfl
  unfold Machine.runData
  rw [callPart_phase, hadmit]
  by_cases hf : s.phase = .fault
  · rw [if_pos hf, if_pos hf]
    rfl
  rw [if_neg hf, if_neg hf]
  cases legal with
  | false => exact congrArg _ (callPart_faultEntry p s .illegalCommand).symm
  | true =>
    show runAdmitted _ _ _ = mapNext _ (runAdmitted _ _ _)
    cases admitData k s with
    | run => exact hcommit
    | ignore => rfl
    | raise e => exact congrArg _ (callPart_faultEntry p s e).symm

theorem emit_worksOn (v w : Nat) : WorksOn (callPart .enc) (emit v w) := by
  intro s
  unfold emit
  split <;> rfl

theorem insertSymbol_worksOn (p : Call) (sym : Symbol) : WorksOn (callPart p) (insertSymbol sym) := by
  intro s
  rcases insertSymbol_cases sym s with ⟨hk, he⟩ | ⟨hn, hl, he⟩ | ⟨hn, hl, he⟩ <;> rw [he]
  · obtain ⟨c, hc⟩ := Option.isSome_iff_exists.mp hk
    exact insertSymbol_of_present (by simpa using hc)
  · exact insertSymbol_of_full (by simpa using hn) (by simpa using hl)
  · rw [insertSymbol_of_room (by simpa using hn) (by simpa using hl), ← callPart_addEntry]
    rfl

theorem encMiss_worksOn (w : Symbol) (b : Byte) : WorksOn (callPart .enc) (encMiss w b) := by
  intro s
  have hcode : codeOf (callPart .enc s) w = codeOf s w := rfl
  have hwrite (k : Nat) := (emit_worksOn k (nbits s)).bind
    ((insertSymbol_worksOn .enc (w.snoc b)).bind (.ok (g := State.setWord (some (Symbol.single b))) fun _ => rfl))
  unfold encMiss
  rw [hcode]
  cases codeOf s w with
  | error e => rfl
  | ok k => exact hwrite k s

theorem encByteRule_worksOn (b : Byte) : WorksOn (callPart .enc) (encByteRule b) := by
  intro s
  rcases encByteRule_cases b s with ⟨hw, he⟩ | ⟨w, c, hw, hg, he⟩ | ⟨w, hw, hn, he⟩ <;> rw [he]
  · exact encByteRule_of_empty (s := callPart .enc s) hw
  · exact encByteRule_of_match (s := callPart .enc s) hw hg
  · rw [encByteRule_of_miss (s := callPart .enc s) hw hn]
    exact encMiss_worksOn w b s

theorem emitWord_worksOn : WorksOn (callPart .enc) emitWord := by
  intro s
  have hword : (callPart .enc s).word = s.word := rfl
  have hcode (w : Symbol) : codeOf (callPart .enc s) w = codeOf s w := rfl
  unfold emitWord
  rw [hword]
  cases s.word with
  | none => rfl
  | some w =>
    simp only [hcode]
    cases codeOf s w with
    | error e => rfl
    | ok k => exact emit_worksOn k (nbits s) s

theorem callPart_flush (s : State) : callPart .enc s.flush = (callPart .enc s).flush := by
  unfold State.flush
  by_cases h : s.acc = []
  · rw [if_pos h]
    exact (if_pos h).symm
  · rw [if_neg h]
    exact (if_neg h).symm

theorem encEndRule_worksOn : WorksOn (callPart .enc) encEndRule := by
  have hstop : WorksOn (callPart .enc) fun u => emit 0 (nbits u) u := fun u => emit_worksOn 0 (nbits u) u
  have hend : WorksOn (callPart .enc) fun v => .ok ((v.flush.setWord none).setPhase .done) :=
    .ok (g := fun v => (v.flush.setWord none).setPhase .done) fun v => by rw [← callPart_flush]; rfl
  exact emitWord_worksOn.bind (hstop.bind hend)

theorem growDecoder_worksOn (sym : Symbol) : WorksOn (callPart .dec) (growDecoder sym) := by
  intro s
  have hinsert (p : Symbol) := (insertSymbol_worksOn .dec (p.snoc sym.first)).bind
    (.ok (g := fun t => t.setDnbits (nbitsNext t)) fun _ => rfl)
  have hprev : (callPart .dec s).prev = s.prev := rfl
  unfold growDecoder
  rw [hprev]
  cases s.prev with
  | none => rfl
  | some p => exact hinsert p s

theorem decodeCode_worksOn (c : Nat) : WorksOn (callPart .dec) (decodeCode c) := by
  intro s
  have hsymbol : decodedSymbol c (callPart .dec s) = decodedSymbol c s := rfl
  have hgrow (sym : Symbol) := (growDecoder_worksOn sym).bind (.ok (g := State.setPrev (some sym)) fun _ => rfl)
  unfold decodeCode
  rw [hsymbol]
  by_cases hc : c = 0
  · rw [if_pos hc, if_pos hc]
    rfl
  · rw [if_neg hc, if_neg hc]
    cases decodedSymbol c s with
    | error e => rfl
    | ok sym => exact hgrow sym (s.outSymbol sym)

theorem decByteRule_worksOn (b : Byte) : WorksOn (callPart .dec) (decByteRule b) := by
  intro s
  by_cases h : s.ibuf.length + 8 < s.dnbits
  · rw [decByteRule_of_short h]
    exact decByteRule_of_short (s := callPart .dec s) h
  · have hsplit := List.take_append_drop s.dnbits (s.ibuf ++ byteBits b)
    have hlen : ((s.ibuf ++ byteBits b).take s.dnbits).length = s.dnbits := by simpa using h
    rw [decByteRule_of_code hsplit hlen]
    exact (decByteRule_of_code (s := callPart .dec s) hsplit hlen).trans (decodeCode_worksOn _ (s.setIbuf _))

theorem decEndRule_worksOn : WorksOn (callPart .dec) decEndRule := by
  intro s
  by_cases h : shortStop s = true
  · rw [decEndRule_of_shortStop h]
    exact decEndRule_of_shortStop (s := callPart .dec s) h
  · rw [decEndRule_of_not_shortStop h]
    exact decEndRule_of_not_shortStop (s := callPart .dec s) h

/-- The data commands of an ENC or DEC call work on its part of the state alone (R41). -/
theorem exec_callPart {i : Instr} {p : Call} (hp : p = .enc ∨ p = .dec) (hi : pipelineOf i = some p) (s : State) :
    exec i (callPart p s) = mapNext (callPart p) (exec i s) := by
  rcases hp with rfl | rfl
  · rcases eq_encByte_or_encEnd hi with ⟨b, rfl⟩ | rfl
    · exact (encByteRule_worksOn b).runData s
    · exact encEndRule_worksOn.runData s
  · rcases eq_decByte_or_decEnd hi with ⟨b, rfl⟩ | rfl
    · exact (decByteRule_worksOn b).runData s
    · exact decEndRule_worksOn.runData s

/-! ### A call forgets the past (R252) -/

theorem runCommands_callPart {p : Call} (hp : p = .enc ∨ p = .dec) {data : List Instr}
    (hdata : ∀ d ∈ data, pipelineOf d = some p) (s : State) :
    runCommands data (callPart p s) = mapNext (callPart p) (runCommands data s) := by
  induction data generalizing s with
  | nil => rfl
  | cons d data ih =>
    obtain ⟨hd, hrest⟩ := List.forall_mem_cons.mp hdata
    rw [runCommands, runCommands, exec_callPart hp hd]
    cases exec d s with
    | next t => exact ih hrest t
    | fault r => rfl
    | refused r => rfl

theorem mapNext_eq_next_iff {f : State → State} {o : Host.Outcome State Fault Refusal} {t : State} :
    mapNext f o = .next t ↔ ∃ u, o = .next u ∧ f u = t := by
  cases o <;> simp [mapNext]

/-- Data commands that start from the same part end in the same part. -/
theorem runCommands_callPart_eq {p : Call} (hp : p = .enc ∨ p = .dec) {data : List Instr}
    (hdata : ∀ d ∈ data, pipelineOf d = some p) {u u' t : State} (hu : callPart p u' = callPart p u)
    (h : runCommands data u = .next t) :
    ∃ t', runCommands data u' = .next t' ∧ callPart p t' = callPart p t := by
  rw [← mapNext_eq_next_iff, ← runCommands_callPart hp hdata, hu, runCommands_callPart hp hdata, h]
  rfl

/-- An ENC_INIT or DEC_INIT outside ACTIVE starts its call as it does in a block just reset, for all that the call works
on. -/
theorem exec_init_callPart {i : Instr} {p : Call} (hip : i = .encInit ∧ p = .enc ∨ i = .decInit ∧ p = .dec) {s : State}
    (ha : s.phase ≠ .active) : ∃ u, exec i s = .next u ∧
      mapNext (callPart p) (exec i { State.reset with params := s.params }) = .next (callPart p u) := by
  have hreset : ({ State.reset with params := s.params } : State).phase ≠ .active := fun h => nomatch h
  rcases hip with ⟨rfl, rfl⟩ | ⟨rfl, rfl⟩
  · exact ⟨_, exec_encInit ha, by rw [exec_encInit hreset]; rfl⟩
  · exact ⟨_, exec_decInit ha, by rw [exec_decInit hreset]; rfl⟩

/-- Settles O60: the call starts with the same part as in a block just reset, and its commands work on the part alone. -/
theorem callForgetsThePast : Obligations.CallForgetsThePast := by
  intro i p data s s' t hmem hdata ha ha' hparams hrun
  have hip : i = .encInit ∧ p = .enc ∨ i = .decInit ∧ p = .dec := by simpa using hmem
  obtain ⟨u, hu, hstart⟩ := exec_init_callPart hip ha
  obtain ⟨u', hu', hstart'⟩ := exec_init_callPart hip ha'
  rw [← hparams, hstart, next_inj] at hstart'
  rw [runCommands_cons_of_next data hu] at hrun
  obtain ⟨t', hrun', hpart⟩ := runCommands_callPart_eq (hip.imp And.right And.right) hdata hstart'.symm hrun
  exact ⟨t', (runCommands_cons_of_next data hu').trans hrun', result_eq_of_callPart_eq hpart⟩

end Sys2Proof.Machine
